-- ==== Sys2Proof/Word.lean ====
section
/-! DEFINITION. The word types of the irread IR block. -/

namespace Sys2Proof

/-- One byte lane of the register port (R64). -/
abbrev Byte := BitVec 8

/-- A register, a duration, a timestamp, a capture entry: 32 bits (R9: W_REG, W_DUR, W_COUNT, W_TS, W_ENTRY). -/
abbrev Word := BitVec 32

/-- A payload or an XOR mask: 64 bits (R9: W_DATA). -/
abbrev Word64 := BitVec 64

/-- A byte offset of the register port: 13 bits (R13, R60). -/
abbrev Offset := BitVec 13

end Sys2Proof
end

