-- ==== Sys2Proof/Config.lean ====
section
/-! DEFINITION. The implementation parameters of 00_scope R9, and the two that the spec leaves open. -/

namespace Sys2Proof.Config

/-- P_PHASE_MODE (R9, R173, R174; I1): the reference defect, or the intended bipolar coding. -/
inductive PhaseMode where
  | literal
  | bipolar
deriving DecidableEq, Repr

/-- The parameters of 00_scope R9 whose default the spec gives. The field defaults are those values. -/
structure Params where
  /-- P_CAP_N: edge events of a full learn session, baseline included (C1, D6). -/
  capN : Nat := 1000
  /-- P_TIMEOUT_MS. -/
  timeoutMs : Nat := 10000
  /-- P_CARRIER_ON_US. -/
  carrierOnUs : Nat := 8
  /-- P_CARRIER_OFF_US. -/
  carrierOffUs : Nat := 16
  /-- P_QUANT_ADD. -/
  quantAdd : Nat := 12
  /-- P_QUANT_DIV. -/
  quantDiv : Nat := 25
  /-- P_PHASE_MODE. -/
  phaseMode : PhaseMode := .literal
deriving DecidableEq, Repr

/-- The reference values of R9. -/
def Params.reference : Params := {}

/-- The legal parameter values: P_CAP_N is 2 to 1024 (R9, D6). The last two are the model's reading (log 8):
the divisor of R179 is not zero, and the timeout of R11 fits the time base (R245). -/
def Params.legal (p : Params) : Bool :=
  decide (2 ≤ p.capN) && decide (p.capN ≤ 1024) && decide (0 < p.quantDiv) &&
    decide (p.timeoutMs * 1000 < 2 ^ 32)

/-- P_PHASE_SPACE_FIRST_BIT (R9, R174, I2): OPEN in the spec, so a value nothing can evaluate (log 9). -/
opaque phaseSpaceFirstBit : Bool

/-- P_BASE_ADDR (R79, I20): where the platform places the port. OPEN in the spec (log 9). -/
opaque baseAddr : Nat

/-- The host address of a byte offset of the port (R60, R79). -/
def hostAddress (a : Offset) : Nat :=
  baseAddr + a.toNat

end Sys2Proof.Config
end

