-- ==== Sys2Proof/Syntax.lean ====
section
/-! DEFINITION. The operations of the block as syntax: one constructor of Instr per row of
spec/opcode_table.json, and the raw forms in which they arrive at the block's ports. -/

namespace Sys2Proof

/-- SESSION (R23). -/
inductive Session where
  | idle
  | learn
  | recv
  | learnt
deriving DecidableEq, Repr

/-- Coding scheme of a Descriptor (R32, R96). -/
inductive CodingScheme where
  | pulse
  | space
  | phase
  | quad
deriving DecidableEq, Repr

/-- Repeat mode of a Descriptor (R32, R97). `single` is the spec's None. -/
inductive RepeatMode where
  | single
  | sameFrame
  | stopPauseOnly
  | foxtelWeird
deriving DecidableEq, Repr

/-- The repeat characters of the text form (R97, R132): there is none for None. -/
inductive RepeatChar where
  | r
  | e
  | f
deriving DecidableEq, Repr

/-- The field letters of an `s=` section (R103, R122). -/
inductive FieldLetter where
  | C
  | H
  | T
  | P
  | S
  | E
  | G
  | R
deriving DecidableEq, Repr

/-- One field of an `s=` section with its entries read (R121, R125 to R132). An empty T= entry is 0 (R127). -/
inductive Field where
  | c (coding : CodingScheme) (dataBits : BitVec 7)
  | h (headerMark headerSpace : Word)
  | t (entries : List Word)
  | p (pauseSpace : Word)
  | s (stopMark stopSpace : Word)
  | e (endMark : Word)
  | g (gap : Word)
  | r (mode : RepeatChar) (repeatCount foxtelGap : Word) (foxtelMask : Word64)
deriving DecidableEq, Repr

/-- Direction of a register-port access. -/
inductive Dir where
  | read
  | write
deriving DecidableEq, Repr

/-- The operations of the block, one constructor per row of the opcode table (R111). -/
inductive Instr where
  -- CMD (R91, R92, R112)
  | send
  | learn
  | read
  | illegalCmd (op : BitVec 4)
  -- DESC_CTRL (R95, R96, R97): the other fields of the word are the operands
  | codingPulse (rep : RepeatMode) (bits : BitVec 7)
  | codingSpace (rep : RepeatMode) (bits : BitVec 7)
  | codingPhase (rep : RepeatMode) (bits : BitVec 7)
  | codingQuad (rep : RepeatMode) (bits : BitVec 7)
  | repeatNone (coding : CodingScheme) (bits : BitVec 7)
  | repeatSameframe (coding : CodingScheme) (bits : BitVec 7)
  | repeatStoppauseonly (coding : CodingScheme) (bits : BitVec 7)
  | repeatFoxtelweird (coding : CodingScheme) (bits : BitVec 7)
  -- PORT (R113, R114, R210, R80)
  | rdreg (addr : Offset)
  | wrreg (addr : Offset) (v : Word)
  | capbufRd (idx : BitVec 10)
  | busError (dir : Dir) (addr : Offset) (width : Nat)
  -- EVT (R101, R202, R203, R205)
  | edgeBaseline (ts : Word) (lvl : Bool)
  | edgeRecord (ts : Word) (lvl : Bool)
  | edgeIgnored (ts : Word) (lvl : Bool)
  -- INTERNAL (R208, R155)
  | timeout
  | txstep
  -- TEXT (R121 to R133)
  | sectionS (fields : List Field)
  | sectionD (data : Word64)
  | fieldC (coding : CodingScheme) (dataBits : BitVec 7)
  | fieldH (headerMark headerSpace : Word)
  | fieldT (entries : List Word)
  | fieldP (pauseSpace : Word)
  | fieldS (stopMark stopSpace : Word)
  | fieldE (endMark : Word)
  | fieldG (gap : Word)
  | fieldR (mode : RepeatChar) (repeatCount foxtelGap : Word) (foxtelMask : Word64)
  | ccharPulse
  | ccharSpace
  | ccharPhase
  | ccharQuad
  | rcharSameframe
  | rcharStoppauseonly
  | rcharFoxtelweird
deriving DecidableEq, Repr

/-- The "format" column of the opcode table. -/
inductive Format where
  | cmd
  | descCtrl
  | port
  | evt
  | internal
  | text
deriving DecidableEq, Repr

/-- The internal units that act by themselves (R8). -/
inductive Agent where
  | timer
  | sequencer
deriving DecidableEq, Repr

/-- The part of a DESC_CTRL word a unit of the encoder looks at: CODING (bits 1:0) or REPEAT (bits 3:2). -/
inductive EncUnit where
  | coder
  | repeater
deriving DecidableEq, Repr

/-- Where in a Send request a piece of text stands: the "mask" column of the table's TEXT rows. -/
inductive TextPos where
  | whole
  | item
  | codingEntry
  | repeatEntry
deriving DecidableEq, Repr

/-- What arrives at the block, before decoding. -/
inductive Raw where
  /-- A read access: offset and width in bytes (R62). -/
  | read (addr : Offset) (width : Nat)
  /-- A write access: offset and the byte lanes, the byte at `addr` first (R64). -/
  | write (addr : Offset) (lanes : List Byte)
  /-- One pulse of edge_strobe with edge_ts and edge_level (R101). -/
  | edge (ts : Word) (lvl : Bool)
  /-- An internal unit acts (R111 "internal"). -/
  | internal (u : Agent)
  /-- A DESC_CTRL word handed to one unit of the encoder (R95; log 11). -/
  | descWord (u : EncUnit) (w : Word)
  /-- A piece of request text with its position (R102, R121; log 12). -/
  | text (pos : TextPos) (chars : List Char)
deriving DecidableEq, Repr

end Sys2Proof
end

