-- ==== Sys2Proof/WellFormed.lean ====
section
/-! DEFINITION. Which terms of Instr are operations of the block: the operand checks of the opcode table's rows. -/

namespace Sys2Proof

/-- The letter a field begins with (R103). -/
def Field.letter : Field → FieldLetter
  | .c _ _ => .C
  | .h _ _ => .H
  | .t _ => .T
  | .p _ => .P
  | .s _ _ => .S
  | .e _ => .E
  | .g _ => .G
  | .r _ _ _ _ => .R

/-- dataBits is at most 64 (R134), and T= has one to five entries (R127). The ranges of the other entries are
their widths (R134, R135). -/
def Field.wellFormed : Field → Bool
  | .c _ n => decide (n.toNat ≤ 64)
  | .t es => decide (1 ≤ es.length) && decide (es.length ≤ 5)
  | _ => true

/-- No field letter stands twice (R124). -/
def distinctLetters : List Field → Bool
  | [] => true
  | f :: fs => !((fs.map Field.letter).contains f.letter) && distinctLetters fs

/-- An `s=` section: its fields, no letter twice (R124), the C= field among them (R137). -/
def sectionWellFormed (fs : List Field) : Bool :=
  fs.all Field.wellFormed && distinctLetters fs && (fs.map Field.letter).contains .C

/-- An access is naturally aligned (R63). -/
def aligned (a : Offset) : Bool :=
  a.toNat % 4 == 0

/-- The operand checks of the opcode table's rows. -/
def Instr.wellFormed : Instr → Bool
  | .send | .learn | .read => true
  | .illegalCmd op => !(op == 1 || op == 2 || op == 3)
  | .codingPulse _ _ | .codingSpace _ _ | .codingPhase _ _ | .codingQuad _ _ => true
  | .repeatNone _ _ | .repeatSameframe _ _ | .repeatStoppauseonly _ _ | .repeatFoxtelweird _ _ => true
  | .rdreg a => aligned a && decide (a.toNat < 0x1000)
  | .wrreg a _ => aligned a && !(a == 0)
  | .capbufRd _ => true
  | .busError _ a w => !(aligned a) || !(w == 4)
  | .edgeBaseline _ _ | .edgeRecord _ _ | .edgeIgnored _ _ => true
  | .timeout | .txstep => true
  | .sectionS fs => sectionWellFormed fs
  | .sectionD _ => true
  | .fieldC c n => (Field.c c n).wellFormed
  | .fieldT es => (Field.t es).wellFormed
  | .fieldH _ _ | .fieldP _ | .fieldS _ _ | .fieldE _ | .fieldG _ | .fieldR _ _ _ _ => true
  | .ccharPulse | .ccharSpace | .ccharPhase | .ccharQuad => true
  | .rcharSameframe | .rcharStoppauseonly | .rcharFoxtelweird => true

/-- The format of an instruction's row in the opcode table. -/
def Instr.format : Instr → Format
  | .send | .learn | .read | .illegalCmd _ => .cmd
  | .codingPulse _ _ | .codingSpace _ _ | .codingPhase _ _ | .codingQuad _ _ => .descCtrl
  | .repeatNone _ _ | .repeatSameframe _ _ | .repeatStoppauseonly _ _ | .repeatFoxtelweird _ _ => .descCtrl
  | .rdreg _ | .wrreg _ _ | .capbufRd _ | .busError _ _ _ => .port
  | .edgeBaseline _ _ | .edgeRecord _ _ | .edgeIgnored _ _ => .evt
  | .timeout | .txstep => .internal
  | .sectionS _ | .sectionD _ => .text
  | .fieldC _ _ | .fieldH _ _ | .fieldT _ | .fieldP _ | .fieldS _ _ | .fieldE _ | .fieldG _ => .text
  | .fieldR _ _ _ _ => .text
  | .ccharPulse | .ccharSpace | .ccharPhase | .ccharQuad => .text
  | .rcharSameframe | .rcharStoppauseonly | .rcharFoxtelweird => .text

/-- The raw form an input has to have for a row of the format: a CMD word is a write at 0x000. -/
def Raw.format : Raw → Format
  | .read _ _ => .port
  | .write a lanes => if a = 0 ∧ lanes.length = 4 then .cmd else .port
  | .edge _ _ => .evt
  | .internal _ => .internal
  | .descWord _ _ => .descCtrl
  | .text _ _ => .text

/-- The condition a row's "match" column puts on the state, beside the raw form: the three rows of an edge event
are told apart by EDGE_EN and SESSION (R202, R203, R205). Every other row has none. -/
def Instr.selectedIn (edgeEn : Bool) (ses : Session) : Instr → Bool
  | .edgeBaseline _ _ => edgeEn && decide (ses = .learn)
  | .edgeRecord _ _ => edgeEn && decide (ses = .recv)
  | .edgeIgnored _ _ => !(edgeEn && (decide (ses = .learn) || decide (ses = .recv)))
  | _ => true

end Sys2Proof
end

