-- ==== Sys2Proof/Decode.lean ====
section
/-! DEFINITION. From the raw forms to Instr and back: command words, DESC_CTRL words, port accesses, edge events
(30_encoding.md) and the textual request (40_descriptor_parser.md). Decoding is total and rejects by name. -/

namespace Sys2Proof

/-- Why a piece of request text is no operation. Every one of these is the spec's MalformedRequest (R120, R231). -/
inductive Reject where
  /-- A section that begins with neither `s=` nor `d=` (R121). -/
  | sectionHead
  /-- An item that does not begin with a field letter and `=` (R123). -/
  | fieldHead
  /-- A field with too few or too many entries (R125 to R132). -/
  | entryCount
  /-- A coding character that is not one of M S P Q (R125). -/
  | codingChar
  /-- A repeat character that is not one of R E F (R132). -/
  | repeatChar
  /-- An entry that is no number of its syntax (R134, R135). -/
  | number
  /-- A number outside its range (R134, R135). -/
  | range
  /-- A field letter that stands twice (R124), or a second section of one kind (R121). -/
  | duplicate
  /-- An `s=` section without C= (R137). -/
  | missingCoding
  /-- A request without an `s=` section (R121). -/
  | missingSection
deriving DecidableEq, Repr

/-! ### Bit fields and byte lanes -/

/-- Byte lane k of a word: the byte at `addr + k` carries bits 8k+7:8k (R64). -/
def byteLane (w : Word) (k : Nat) : Byte :=
  w.extractLsb' (8 * k) 8

/-- The four byte lanes of a word, the byte at `addr` first (R64). -/
def lanesOf (w : Word) : List Byte :=
  [byteLane w 0, byteLane w 1, byteLane w 2, byteLane w 3]

/-- The word that four byte lanes carry (R64). -/
def wordOf (b0 b1 b2 b3 : Byte) : Word :=
  (b3 ++ b2 ++ b1 ++ b0 : BitVec (8 + 8 + 8 + 8))

/-- CMD.OP, bits 3:0 (R91). -/
def opOf (w : Word) : BitVec 4 :=
  w.extractLsb' 0 4

/-- The scheme of a CODING code (R96). -/
def codingOf (b : BitVec 2) : CodingScheme :=
  if b = 0 then .pulse else if b = 1 then .space else if b = 2 then .phase else .quad

/-- The CODING code of a scheme (R96). -/
def codingCode : CodingScheme → BitVec 2
  | .pulse => 0
  | .space => 1
  | .phase => 2
  | .quad => 3

/-- The mode of a REPEAT code (R97). -/
def repeatOf (b : BitVec 2) : RepeatMode :=
  if b = 0 then .single else if b = 1 then .sameFrame else if b = 2 then .stopPauseOnly else .foxtelWeird

/-- The REPEAT code of a mode (R97). -/
def repeatCode : RepeatMode → BitVec 2
  | .single => 0
  | .sameFrame => 1
  | .stopPauseOnly => 2
  | .foxtelWeird => 3

/-- DESC_CTRL.CODING, bits 1:0 (R33, R95). -/
def ctrlCoding (w : Word) : CodingScheme :=
  codingOf (w.extractLsb' 0 2)

/-- DESC_CTRL.REPEAT, bits 3:2 (R33, R95). -/
def ctrlRepeat (w : Word) : RepeatMode :=
  repeatOf (w.extractLsb' 2 2)

/-- DESC_CTRL.DATABITS, bits 14:8 (R33, R95). -/
def ctrlDataBits (w : Word) : BitVec 7 :=
  w.extractLsb' 8 7

/-- The DESC_CTRL word of three fields, reserved bits 0 (R95, R138). -/
def ctrlWord (c : CodingScheme) (r : RepeatMode) (n : BitVec 7) : Word :=
  ((0 : BitVec 17) ++ n ++ (0 : BitVec 4) ++ repeatCode r ++ codingCode c : BitVec (17 + 7 + 4 + 2 + 2))

/-- The repeat mode of a repeat character (R97, R132). -/
def RepeatChar.mode : RepeatChar → RepeatMode
  | .r => .sameFrame
  | .e => .stopPauseOnly
  | .f => .foxtelWeird

/-! ### Text: splitting and numbers -/

/-- A text split at every `sep` (R121, R122): `n` separators give `n + 1` pieces, some of them possibly empty. -/
def splitOn (sep : Char) : List Char → List (List Char)
  | [] => [[]]
  | c :: cs =>
    if c = sep then [] :: splitOn sep cs
    else
      match splitOn sep cs with
      | [] => [[c]]
      | p :: ps => (c :: p) :: ps

/-- Pieces joined by `sep`: what `splitOn` undoes. -/
def joinWith (sep : Char) : List (List Char) → List Char
  | [] => []
  | [p] => p
  | p :: q :: ps => p ++ sep :: joinWith sep (q :: ps)

/-- DIGIT (R121, R134). -/
def decValue (c : Char) : Option Nat :=
  if 48 ≤ c.toNat ∧ c.toNat ≤ 57 then some (c.toNat - 48) else none

/-- HEXDIG, digits of either case (R121, R135). -/
def hexValue (c : Char) : Option Nat :=
  if 48 ≤ c.toNat ∧ c.toNat ≤ 57 then some (c.toNat - 48)
  else if 97 ≤ c.toNat ∧ c.toNat ≤ 102 then some (c.toNat - 87)
  else if 65 ≤ c.toNat ∧ c.toNat ≤ 70 then some (c.toNat - 55)
  else none

/-- The number some digits spell in base `b`, most significant first, continuing from `acc` (R105). -/
def digitsValue (b : Nat) (val : Char → Option Nat) : Nat → List Char → Option Nat
  | acc, [] => some acc
  | acc, c :: cs =>
    match val c with
    | some d => digitsValue b val (b * acc + d) cs
    | none => none

/-- `dec`: one or more decimal digits (R121, R134). -/
def decNat (cs : List Char) : Except Reject Nat :=
  match cs with
  | [] => .error .number
  | _ => match digitsValue 10 decValue 0 cs with
    | some n => .ok n
    | none => .error .number

/-- `0x` is behind us: one or more hexadecimal digits (R135). -/
def hexNat (cs : List Char) : Except Reject Nat :=
  match cs with
  | [] => .error .number
  | _ => match digitsValue 16 hexValue 0 cs with
    | some n => .ok n
    | none => .error .number

/-- A number held in `w` bits; out of range is malformed, never truncated (R134, R135). -/
def inRange (w : Nat) (n : Nat) : Except Reject (BitVec w) :=
  if n < 2 ^ w then .ok (BitVec.ofNat w n) else .error .range

/-- A duration or a repeat count: `dec` in 0 .. 2^32 - 1 (R134). -/
def decWord (cs : List Char) : Except Reject Word :=
  decNat cs >>= inRange 32

/-- dataBits: `dec` in 0 .. 64 (R134). -/
def decDataBits (cs : List Char) : Except Reject (BitVec 7) :=
  decNat cs >>= fun n => if n ≤ 64 then .ok (BitVec.ofNat 7 n) else .error .range

/-- `opt`: an empty entry is 0, else a `dec` (R121, R127). -/
def optWord (cs : List Char) : Except Reject Word :=
  if cs.isEmpty then .ok 0 else decWord cs

/-- `num64`: a `dec`, or `0x` (lower case) and hexadecimal digits, in 0 .. 2^64 - 1 (R134, R135). -/
def num64 (cs : List Char) : Except Reject Word64 :=
  match cs with
  | '0' :: 'x' :: hs => hexNat hs >>= inRange 64
  | _ => decNat cs >>= inRange 64

/-- All entries of a T= field (R127). -/
def optWords : List (List Char) → Except Reject (List Word)
  | [] => .ok []
  | e :: es => optWord e >>= fun w => optWords es >>= fun ws => .ok (w :: ws)

/-! ### Text: characters, fields, sections -/

/-- `cchar` (R96, R121). -/
def cchar (cs : List Char) : Except Reject CodingScheme :=
  if cs = ['M'] then .ok .pulse
  else if cs = ['S'] then .ok .space
  else if cs = ['P'] then .ok .phase
  else if cs = ['Q'] then .ok .quad
  else .error .codingChar

/-- `rchar` (R97, R121). -/
def rchar (cs : List Char) : Except Reject RepeatChar :=
  if cs = ['R'] then .ok .r
  else if cs = ['E'] then .ok .e
  else if cs = ['F'] then .ok .f
  else .error .repeatChar

/-- C= : a coding character and the bit count (R125). -/
def fieldOfC : List (List Char) → Except Reject Field
  | [c, n] => cchar c >>= fun c => decDataBits n >>= fun n => .ok (.c c n)
  | _ => .error .entryCount

/-- H= : two durations (R126). -/
def fieldOfH : List (List Char) → Except Reject Field
  | [m, s] => decWord m >>= fun m => decWord s >>= fun s => .ok (.h m s)
  | _ => .error .entryCount

/-- T= : one to five entries, each possibly empty (R127). -/
def fieldOfT (es : List (List Char)) : Except Reject Field :=
  if es.length ≤ 5 then optWords es >>= fun ws => .ok (.t ws) else .error .entryCount

/-- P= : one duration (R128). -/
def fieldOfP : List (List Char) → Except Reject Field
  | [p] => decWord p >>= fun p => .ok (.p p)
  | _ => .error .entryCount

/-- S= : two durations (R129). -/
def fieldOfS : List (List Char) → Except Reject Field
  | [m, s] => decWord m >>= fun m => decWord s >>= fun s => .ok (.s m s)
  | _ => .error .entryCount

/-- E= : one duration (R130). -/
def fieldOfE : List (List Char) → Except Reject Field
  | [e] => decWord e >>= fun e => .ok (.e e)
  | _ => .error .entryCount

/-- G= : one duration (R131). -/
def fieldOfG : List (List Char) → Except Reject Field
  | [g] => decWord g >>= fun g => .ok (.g g)
  | _ => .error .entryCount

/-- R= : a repeat character, a count, a duration and a mask (R132). -/
def fieldOfR : List (List Char) → Except Reject Field
  | [c, n, g, m] =>
    rchar c >>= fun c => decWord n >>= fun n => decWord g >>= fun g => num64 m >>= fun m => .ok (.r c n g m)
  | _ => .error .entryCount

/-- One item of an `s=` section: a field letter, `=`, and the entries between commas (R122, R123). The empty item, which a
section skips, is no field; on its own it is rejected (DESIGN CHOICE, log 27). -/
def decodeField (item : List Char) : Except Reject Field :=
  match item with
  | 'C' :: '=' :: v => fieldOfC (splitOn ',' v)
  | 'H' :: '=' :: v => fieldOfH (splitOn ',' v)
  | 'T' :: '=' :: v => fieldOfT (splitOn ',' v)
  | 'P' :: '=' :: v => fieldOfP (splitOn ',' v)
  | 'S' :: '=' :: v => fieldOfS (splitOn ',' v)
  | 'E' :: '=' :: v => fieldOfE (splitOn ',' v)
  | 'G' :: '=' :: v => fieldOfG (splitOn ',' v)
  | 'R' :: '=' :: v => fieldOfR (splitOn ',' v)
  | _ => .error .fieldHead

/-- Items in order, the empty ones skipped (R122). -/
def decodeFields : List (List Char) → Except Reject (List Field)
  | [] => .ok []
  | [] :: items => decodeFields items
  | item :: items => decodeField item >>= fun f => decodeFields items >>= fun fs => .ok (f :: fs)

/-- An `s=` section's value: its fields, no letter twice, C= among them (R122, R124, R137). -/
def decodeFieldList (v : List Char) : Except Reject (List Field) :=
  decodeFields (splitOn ';' v) >>= fun fs =>
    if !distinctLetters fs then .error .duplicate
    else if !(fs.map Field.letter).contains .C then .error .missingCoding
    else .ok fs

/-- One section of a request (R121, R122, R133). -/
def decodeSection (cs : List Char) : Except Reject Instr :=
  match cs with
  | 's' :: '=' :: v => decodeFieldList v >>= fun fs => .ok (.sectionS fs)
  | 'd' :: '=' :: v => num64 v >>= fun d => .ok (.sectionD d)
  | _ => .error .sectionHead

/-- A field as an operation of its own. -/
def fieldInstr : Field → Instr
  | .c c n => .fieldC c n
  | .h m s => .fieldH m s
  | .t es => .fieldT es
  | .p p => .fieldP p
  | .s m s => .fieldS m s
  | .e e => .fieldE e
  | .g g => .fieldG g
  | .r c n g m => .fieldR c n g m

/-- A coding character as an operation of its own. -/
def ccharInstr : CodingScheme → Instr
  | .pulse => .ccharPulse
  | .space => .ccharSpace
  | .phase => .ccharPhase
  | .quad => .ccharQuad

/-- A repeat character as an operation of its own. -/
def rcharInstr : RepeatChar → Instr
  | .r => .rcharSameframe
  | .e => .rcharStoppauseonly
  | .f => .rcharFoxtelweird

/-- A piece of request text, by its position (the table's TEXT rows). -/
def decodeText (pos : TextPos) (cs : List Char) : Except Reject Instr :=
  match pos with
  | .whole => decodeSection cs
  | .item => decodeField cs >>= fun f => .ok (fieldInstr f)
  | .codingEntry => cchar cs >>= fun c => .ok (ccharInstr c)
  | .repeatEntry => rchar cs >>= fun c => .ok (rcharInstr c)

/-! ### Binary forms -/

/-- A word written to CMD (R91, R92, R112): bits 31:4 are ignored. -/
def decodeCmd (w : Word) : Instr :=
  if opOf w = 1 then .send
  else if opOf w = 2 then .learn
  else if opOf w = 3 then .read
  else .illegalCmd (opOf w)

/-- A read access (R62, R63, R113, R210). -/
def decodeRead (a : Offset) (width : Nat) : Instr :=
  if width = 4 ∧ aligned a then
    if a.toNat < 0x1000 then .rdreg a else .capbufRd (a.extractLsb' 2 10)
  else .busError .read a width

/-- A write access (R62, R63, R64, R112, R114). -/
def decodeWrite (a : Offset) (lanes : List Byte) : Instr :=
  match lanes with
  | [b0, b1, b2, b3] =>
    if aligned a then
      if a = 0 then decodeCmd (wordOf b0 b1 b2 b3) else .wrreg a (wordOf b0 b1 b2 b3)
    else .busError .write a 4
  | _ => .busError .write a lanes.length

/-- An edge event, told apart by EDGE_EN and SESSION (R202, R203, R205). With EDGE_EN = 1 in a session that accepts
no edge, which R26 rules out, the event is ignored (log 13). -/
def decodeEdge (edgeEn : Bool) (ses : Session) (ts : Word) (lvl : Bool) : Instr :=
  if edgeEn then
    match ses with
    | .learn => .edgeBaseline ts lvl
    | .recv => .edgeRecord ts lvl
    | _ => .edgeIgnored ts lvl
  else .edgeIgnored ts lvl

/-- A DESC_CTRL word handed to one unit of the encoder (R95, R96, R97): the unit's own field selects the operation,
the other fields are its operands. -/
def decodeDescWord (u : EncUnit) (w : Word) : Instr :=
  match u with
  | .coder =>
    match ctrlCoding w with
    | .pulse => .codingPulse (ctrlRepeat w) (ctrlDataBits w)
    | .space => .codingSpace (ctrlRepeat w) (ctrlDataBits w)
    | .phase => .codingPhase (ctrlRepeat w) (ctrlDataBits w)
    | .quad => .codingQuad (ctrlRepeat w) (ctrlDataBits w)
  | .repeater =>
    match ctrlRepeat w with
    | .single => .repeatNone (ctrlCoding w) (ctrlDataBits w)
    | .sameFrame => .repeatSameframe (ctrlCoding w) (ctrlDataBits w)
    | .stopPauseOnly => .repeatStoppauseonly (ctrlCoding w) (ctrlDataBits w)
    | .foxtelWeird => .repeatFoxtelweird (ctrlCoding w) (ctrlDataBits w)

/-- The decoder: total on every raw form. Only text can be rejected. -/
def decode (edgeEn : Bool) (ses : Session) (r : Raw) : Except Reject Instr :=
  match r with
  | .read a w => .ok (decodeRead a w)
  | .write a lanes => .ok (decodeWrite a lanes)
  | .edge ts lvl => .ok (decodeEdge edgeEn ses ts lvl)
  | .internal .timer => .ok .timeout
  | .internal .sequencer => .ok .txstep
  | .descWord u w => .ok (decodeDescWord u w)
  | .text pos cs => decodeText pos cs

/-- A bare word of the opcode table, with no port beside it, is a word written to CMD (log 3). -/
def tableRaw (_nbits w : Nat) : Raw :=
  .write 0 (lanesOf (BitVec.ofNat 32 w))

/-- The instruction the decoder reads from a bare word of the opcode table. -/
def decodeTableWord (nbits w : Nat) : Option Instr :=
  match decode false .idle (tableRaw nbits w) with
  | .ok i => some i
  | .error _ => none

/-! ### The encoder -/

/-- Decimal digits of `n`, most significant first, at most `fuel` of them, before `acc`. -/
def decDigits : Nat → Nat → List Char → List Char
  | 0, _, acc => acc
  | fuel + 1, n, acc =>
    if n / 10 = 0 then Char.ofNat (48 + n % 10) :: acc
    else decDigits fuel (n / 10) (Char.ofNat (48 + n % 10) :: acc)

/-- A number in decimal (R134). Twenty digits hold every 64-bit value. -/
def decText (n : Nat) : List Char :=
  decDigits 20 n []

/-- The character of a coding scheme (R96). -/
def ccharText : CodingScheme → List Char
  | .pulse => ['M']
  | .space => ['S']
  | .phase => ['P']
  | .quad => ['Q']

/-- The character of a repeat mode (R97). -/
def rcharText : RepeatChar → List Char
  | .r => ['R']
  | .e => ['E']
  | .f => ['F']

/-- Entries between commas. -/
def entriesText (es : List (List Char)) : List Char :=
  joinWith ',' es

/-- A field in the text form (R103, R139): every number in decimal. -/
def fieldText : Field → List Char
  | .c c n => 'C' :: '=' :: entriesText [ccharText c, decText n.toNat]
  | .h m s => 'H' :: '=' :: entriesText [decText m.toNat, decText s.toNat]
  | .t es => 'T' :: '=' :: entriesText (es.map fun e => decText e.toNat)
  | .p p => 'P' :: '=' :: entriesText [decText p.toNat]
  | .s m s => 'S' :: '=' :: entriesText [decText m.toNat, decText s.toNat]
  | .e e => 'E' :: '=' :: entriesText [decText e.toNat]
  | .g g => 'G' :: '=' :: entriesText [decText g.toNat]
  | .r c n g m =>
    'R' :: '=' :: entriesText [rcharText c, decText n.toNat, decText g.toNat, decText m.toNat]

/-- An `s=` section in the text form (R121, R122). -/
def sectionSText (fs : List Field) : List Char :=
  's' :: '=' :: joinWith ';' (fs.map fieldText)

/-- A `d=` section in the text form (R133). -/
def sectionDText (d : Word64) : List Char :=
  'd' :: '=' :: decText d.toNat

/-- A CMD word with a given opcode (R91). -/
def cmdRaw (op : BitVec 4) : Raw :=
  .write 0 (lanesOf (op.setWidth 32))

/-- The raw form of an instruction, from the encoding tables of 30_encoding.md and 20_memory.md. -/
def encode : Instr → Raw
  | .send => cmdRaw 1
  | .learn => cmdRaw 2
  | .read => cmdRaw 3
  | .illegalCmd op => cmdRaw op
  | .codingPulse r n => .descWord .coder (ctrlWord .pulse r n)
  | .codingSpace r n => .descWord .coder (ctrlWord .space r n)
  | .codingPhase r n => .descWord .coder (ctrlWord .phase r n)
  | .codingQuad r n => .descWord .coder (ctrlWord .quad r n)
  | .repeatNone c n => .descWord .repeater (ctrlWord c .single n)
  | .repeatSameframe c n => .descWord .repeater (ctrlWord c .sameFrame n)
  | .repeatStoppauseonly c n => .descWord .repeater (ctrlWord c .stopPauseOnly n)
  | .repeatFoxtelweird c n => .descWord .repeater (ctrlWord c .foxtelWeird n)
  | .rdreg a => .read a 4
  | .wrreg a v => .write a (lanesOf v)
  | .capbufRd idx => .read ((1 : BitVec 1) ++ idx ++ (0 : BitVec 2)) 4
  | .busError .read a w => .read a w
  | .busError .write a w => .write a (List.replicate w 0)
  | .edgeBaseline ts lvl => .edge ts lvl
  | .edgeRecord ts lvl => .edge ts lvl
  | .edgeIgnored ts lvl => .edge ts lvl
  | .timeout => .internal .timer
  | .txstep => .internal .sequencer
  | .sectionS fs => .text .whole (sectionSText fs)
  | .sectionD d => .text .whole (sectionDText d)
  | .fieldC c n => .text .item (fieldText (.c c n))
  | .fieldH m s => .text .item (fieldText (.h m s))
  | .fieldT es => .text .item (fieldText (.t es))
  | .fieldP p => .text .item (fieldText (.p p))
  | .fieldS m s => .text .item (fieldText (.s m s))
  | .fieldE e => .text .item (fieldText (.e e))
  | .fieldG g => .text .item (fieldText (.g g))
  | .fieldR c n g m => .text .item (fieldText (.r c n g m))
  | .ccharPulse => .text .codingEntry ['M']
  | .ccharSpace => .text .codingEntry ['S']
  | .ccharPhase => .text .codingEntry ['P']
  | .ccharQuad => .text .codingEntry ['Q']
  | .rcharSameframe => .text .repeatEntry ['R']
  | .rcharStoppauseonly => .text .repeatEntry ['E']
  | .rcharFoxtelweird => .text .repeatEntry ['F']

end Sys2Proof
end

