-- ==== Sys2Proof/Machine/State.lean ====
section
/-! DEFINITION. The state of the block as plain data (10_state.md), the reasons a step can stop, and the state
after reset (70_reset_and_hazards R260). -/

namespace Sys2Proof.Machine

open Sys2Proof.Config (Params)

/-- Why a step stops with a fault. -/
inductive Fault where
  /-- The bus error of a host access that is not an aligned 32-bit one (R80, R237). Raised by BUS_ERROR, and by
  RDREG and WRREG at an offset that is not aligned. Safe: the block itself goes on unchanged (log 15). -/
  | busError
deriving DecidableEq, Repr

/-- Why a step has no meaning. -/
inductive Refusal where
  /-- An instruction without a meaning in the model: no arm of `exec` is one. Raised by Dispatch only. Safe. -/
  | notModelled (mnemonic : String)
deriving DecidableEq, Repr

/-- STATUS.ERR (R29, R230). Codes 6 to 15 are never written (R44), so they are no values. -/
inductive ErrCode where
  | ok
  | malformed
  | sessionBusy
  | unsupported
  | illegalCmd
  | txBusy
deriving DecidableEq, Repr

/-- One requested interval of a transmission, its duration in µs (R19, R40). -/
inductive Segment where
  | mark (d : Word)
  | space (d : Word)
deriving DecidableEq, Repr

/-- timings[0..4] of a Descriptor (R31). -/
structure Timings where
  t0 : Word := 0
  t1 : Word := 0
  t2 : Word := 0
  t3 : Word := 0
  t4 : Word := 0
deriving DecidableEq, Repr

/-- A Descriptor (R31, R32). -/
structure Descriptor where
  codingScheme : CodingScheme := .pulse
  repeatMode : RepeatMode := .single
  dataBits : BitVec 7 := 0
  data : Word64 := 0
  headerMark : Word := 0
  headerSpace : Word := 0
  timings : Timings := {}
  pauseSpace : Word := 0
  stopMark : Word := 0
  stopSpace : Word := 0
  endMark : Word := 0
  gap : Word := 0
  repeatCount : Word := 0
  foxtelGap : Word := 0
  foxtelMask : Word64 := 0
deriving DecidableEq, Repr

/-- The names of the 19 descriptor registers, in offset order from 0x00C (R61). -/
inductive DescReg where
  | ctrl
  | dataLo
  | dataHi
  | hdrMark
  | hdrSpace
  | t0
  | t1
  | t2
  | t3
  | t4
  | pauseSpace
  | stopMark
  | stopSpace
  | endMark
  | gap
  | repeatCount
  | foxtelGap
  | foxtelMaskLo
  | foxtelMaskHi
deriving DecidableEq, Repr

/-- The descriptor registers (R31). -/
structure DescRegs where
  ctrl : Word := 0
  dataLo : Word := 0
  dataHi : Word := 0
  hdrMark : Word := 0
  hdrSpace : Word := 0
  t0 : Word := 0
  t1 : Word := 0
  t2 : Word := 0
  t3 : Word := 0
  t4 : Word := 0
  pauseSpace : Word := 0
  stopMark : Word := 0
  stopSpace : Word := 0
  endMark : Word := 0
  gap : Word := 0
  repeatCount : Word := 0
  foxtelGap : Word := 0
  foxtelMaskLo : Word := 0
  foxtelMaskHi : Word := 0
deriving DecidableEq, Repr

/-- What the encoder gives for a Descriptor: a segment list, or the error a SEND of it ends with (R140). -/
inductive Build where
  | nothing
  | built (segs : List Segment)
  | rejected (e : ErrCode)
deriving DecidableEq, Repr

/-- The textual front-end while it reads a request (R120 to R137; the model's own, log 12; when a new request begins,
log 26). -/
structure Front where
  desc : Descriptor := {}
  seen : List FieldLetter := []
  sSeen : Bool := false
  dSeen : Bool := false
  malformed : Bool := false
deriving DecidableEq, Repr

/-- One thing the outside does to the block, or a host pseudo-instruction still to be expanded (log 1, log 16). -/
inductive Input where
  /-- Signals on a port, or an internal unit acting at a chosen place of the order. -/
  | raw (r : Raw)
  /-- The reset pin (R260). -/
  | rst
  /-- SENDTXT (R110). -/
  | sendTxt (req : List Char)
  /-- WAITTX (R110). -/
  | waitTx
  /-- WAITTX after a read of STATUS: go on, or read again. -/
  | waitTxTest
  /-- DRAIN (R110). -/
  | drain
  /-- DRAIN after the read of RESULT: read that many window words. -/
  | drainWindow
deriving DecidableEq, Repr

/-- An input and the microseconds of the time base that pass before it (log 6). -/
structure Pending where
  wait : Nat
  input : Input
deriving DecidableEq, Repr

/-- The state of the block (R20), and the fields of the model's own named in INVENTORY.md. -/
structure State where
  /-- The parameters of R9, fixed for a machine (log 8). -/
  cfg : Params := Params.reference
  /-- SESSION (R23). -/
  session : Session := .idle
  /-- STATUS.TX_BUSY (R25). -/
  txBusy : Bool := false
  /-- STATUS.EDGE_EN and the edge_enable output (R26). -/
  edgeEn : Bool := false
  /-- STATUS.TMO_PENDING (R27). -/
  tmoPending : Bool := false
  /-- TMO_DEADLINE (R27). -/
  tmoDeadline : Word := 0
  /-- STATUS.FULL (R28). -/
  full : Bool := false
  /-- STATUS.ERR (R29). -/
  err : ErrCode := .ok
  /-- RESULT (R30). -/
  result : Word := 0
  /-- The descriptor registers (R31). -/
  regs : DescRegs := {}
  /-- BUF, entry 0 first (R35). -/
  buf : List Word := []
  /-- RD_LEN (R36). -/
  rdLen : BitVec 11 := 0
  /-- REF (R39). -/
  ref : Word := 0
  /-- DESC_SNAP (R40). -/
  descSnap : Descriptor := {}
  /-- TXQ, the segment in emission first (R40). -/
  txq : List Segment := []
  /-- NOW (R41). -/
  now : Word := 0
  /-- TXTRACE (R156). -/
  txTrace : List Segment := []
  /-- Model's own: microseconds of the head of TXQ already emitted (log 6). -/
  txPhase : Nat := 0
  /-- Model's own: the read-data lines of the register port (log 10). -/
  rdata : Word := 0
  /-- Model's own: what the last coding or repeat operation run on its own gave (log 11). -/
  encOut : Build := .nothing
  /-- Model's own: the textual front-end (log 12). -/
  front : Front := {}
  /-- Model's own: the inputs still to come (log 1). -/
  inbox : List Pending := []
deriving DecidableEq, Repr

/-- The state after reset (R260): every field at its default above. The defaults of `tmoDeadline`, `ref`, `descSnap`
and `now` are the model's choice (log 4). -/
def State.reset : State := {}

end Sys2Proof.Machine
end

