-- ==== Sys2Proof/Machine/Operands.lean ====
section
/-! DEFINITION. Operand assembly: which register an offset names (20_memory R61), the Descriptor a register image
denotes (10_state R32) and the image of a Descriptor (40_descriptor_parser R138). -/

namespace Sys2Proof.Machine

/-- What an aligned offset of the register port names (R61). -/
inductive Target where
  | cmd
  | status
  | result
  | desc (r : DescReg)
  | reserved
  | window (i : Nat)
deriving DecidableEq, Repr

/-- The descriptor register at position k of the map, 0x00C first (R61). -/
def descRegAt : Nat → DescReg
  | 0 => .ctrl
  | 1 => .dataLo
  | 2 => .dataHi
  | 3 => .hdrMark
  | 4 => .hdrSpace
  | 5 => .t0
  | 6 => .t1
  | 7 => .t2
  | 8 => .t3
  | 9 => .t4
  | 10 => .pauseSpace
  | 11 => .stopMark
  | 12 => .stopSpace
  | 13 => .endMark
  | 14 => .gap
  | 15 => .repeatCount
  | 16 => .foxtelGap
  | 17 => .foxtelMaskLo
  | _ => .foxtelMaskHi

/-- The offset of a descriptor register (R61). -/
def DescReg.offset : DescReg → Offset
  | .ctrl => 0x00C
  | .dataLo => 0x010
  | .dataHi => 0x014
  | .hdrMark => 0x018
  | .hdrSpace => 0x01C
  | .t0 => 0x020
  | .t1 => 0x024
  | .t2 => 0x028
  | .t3 => 0x02C
  | .t4 => 0x030
  | .pauseSpace => 0x034
  | .stopMark => 0x038
  | .stopSpace => 0x03C
  | .endMark => 0x040
  | .gap => 0x044
  | .repeatCount => 0x048
  | .foxtelGap => 0x04C
  | .foxtelMaskLo => 0x050
  | .foxtelMaskHi => 0x054

/-- The descriptor registers in offset order (R61, R110). -/
def descRegs : List DescReg :=
  (List.range 19).map descRegAt

/-- The register map (R61): what the word at an offset is. -/
def target (a : Offset) : Target :=
  if a.toNat < 0x004 then .cmd
  else if a.toNat < 0x008 then .status
  else if a.toNat < 0x00C then .result
  else if a.toNat < 0x058 then .desc (descRegAt ((a.toNat - 0x00C) / 4))
  else if a.toNat < 0x1000 then .reserved
  else .window ((a.toNat - 0x1000) / 4)

/-- The stored value of a descriptor register (R113). -/
def DescRegs.get (g : DescRegs) : DescReg → Word
  | .ctrl => g.ctrl
  | .dataLo => g.dataLo
  | .dataHi => g.dataHi
  | .hdrMark => g.hdrMark
  | .hdrSpace => g.hdrSpace
  | .t0 => g.t0
  | .t1 => g.t1
  | .t2 => g.t2
  | .t3 => g.t3
  | .t4 => g.t4
  | .pauseSpace => g.pauseSpace
  | .stopMark => g.stopMark
  | .stopSpace => g.stopSpace
  | .endMark => g.endMark
  | .gap => g.gap
  | .repeatCount => g.repeatCount
  | .foxtelGap => g.foxtelGap
  | .foxtelMaskLo => g.foxtelMaskLo
  | .foxtelMaskHi => g.foxtelMaskHi

/-- The bits a write to a descriptor register stores (R33, R114): reserved bits of DESC_CTRL are discarded (R70). -/
def storedBits (r : DescReg) (v : Word) : Word :=
  match r with
  | .ctrl => v &&& 0x00007F0F
  | _ => v

/-- A register file with one register's contents replaced. -/
def DescRegs.set (g : DescRegs) (r : DescReg) (v : Word) : DescRegs :=
  match r with
  | .ctrl => { g with ctrl := v }
  | .dataLo => { g with dataLo := v }
  | .dataHi => { g with dataHi := v }
  | .hdrMark => { g with hdrMark := v }
  | .hdrSpace => { g with hdrSpace := v }
  | .t0 => { g with t0 := v }
  | .t1 => { g with t1 := v }
  | .t2 => { g with t2 := v }
  | .t3 => { g with t3 := v }
  | .t4 => { g with t4 := v }
  | .pauseSpace => { g with pauseSpace := v }
  | .stopMark => { g with stopMark := v }
  | .stopSpace => { g with stopSpace := v }
  | .endMark => { g with endMark := v }
  | .gap => { g with gap := v }
  | .repeatCount => { g with repeatCount := v }
  | .foxtelGap => { g with foxtelGap := v }
  | .foxtelMaskLo => { g with foxtelMaskLo := v }
  | .foxtelMaskHi => { g with foxtelMaskHi := v }

/-- A 64-bit field from its two registers (R34, R99). -/
def pair64 (hi lo : Word) : Word64 :=
  (hi ++ lo : BitVec (32 + 32))

/-- Bits 31:0 of a 64-bit field (R99). -/
def lowHalf (v : Word64) : Word :=
  v.extractLsb' 0 32

/-- Bits 63:32 of a 64-bit field (R99). -/
def highHalf (v : Word64) : Word :=
  v.extractLsb' 32 32

/-- The Descriptor a register image denotes (R32, R104). -/
def descriptorOf (g : DescRegs) : Descriptor where
  codingScheme := ctrlCoding g.ctrl
  repeatMode := ctrlRepeat g.ctrl
  dataBits := ctrlDataBits g.ctrl
  data := pair64 g.dataHi g.dataLo
  headerMark := g.hdrMark
  headerSpace := g.hdrSpace
  timings := { t0 := g.t0, t1 := g.t1, t2 := g.t2, t3 := g.t3, t4 := g.t4 }
  pauseSpace := g.pauseSpace
  stopMark := g.stopMark
  stopSpace := g.stopSpace
  endMark := g.endMark
  gap := g.gap
  repeatCount := g.repeatCount
  foxtelGap := g.foxtelGap
  foxtelMask := pair64 g.foxtelMaskHi g.foxtelMaskLo

/-- The register image of a Descriptor (R138). -/
def imageOf (d : Descriptor) : DescRegs where
  ctrl := ctrlWord d.codingScheme d.repeatMode d.dataBits
  dataLo := lowHalf d.data
  dataHi := highHalf d.data
  hdrMark := d.headerMark
  hdrSpace := d.headerSpace
  t0 := d.timings.t0
  t1 := d.timings.t1
  t2 := d.timings.t2
  t3 := d.timings.t3
  t4 := d.timings.t4
  pauseSpace := d.pauseSpace
  stopMark := d.stopMark
  stopSpace := d.stopSpace
  endMark := d.endMark
  gap := d.gap
  repeatCount := d.repeatCount
  foxtelGap := d.foxtelGap
  foxtelMaskLo := lowHalf d.foxtelMask
  foxtelMaskHi := highHalf d.foxtelMask

/-- The Descriptor of the descriptor registers as they stand (R140). -/
def State.descriptor (s : State) : Descriptor :=
  descriptorOf s.regs

/-- The learn timeout in microseconds of the time base (R11). -/
def timeoutUs (p : Config.Params) : Nat :=
  p.timeoutMs * 1000

end Sys2Proof.Machine
end

