-- ==== Sys2Proof/Machine/Flags.lean ====
section
/-! DEFINITION. The STATUS word, its codes, and the outputs that are functions of state (10_state.md R23 to R29,
R37, R38). -/

namespace Sys2Proof.Machine

/-- SESSION codes (R23). -/
def sessionCode : Session → BitVec 2
  | .idle => 0
  | .learn => 1
  | .recv => 2
  | .learnt => 3

/-- STATUS.ERR codes (R29, R230). -/
def errBits : ErrCode → BitVec 4
  | .ok => 0
  | .malformed => 1
  | .sessionBusy => 2
  | .unsupported => 3
  | .illegalCmd => 4
  | .txBusy => 5

/-- The session accepts edges: Learn or Recv (R26, R37). -/
def armed (ses : Session) : Bool :=
  decide (ses = .learn) || decide (ses = .recv)

/-- The `indicator` output (R37): TxActive over Armed over Off. -/
def State.indicator (s : State) : BitVec 2 :=
  if s.txBusy then 1 else if armed s.session then 2 else 0

/-- The STATUS word (R24, R93). -/
def State.status (s : State) : Word :=
  ((0 : BitVec 18) ++ s.indicator ++ errBits s.err ++ (0 : BitVec 2) ++ BitVec.ofBool s.full
    ++ BitVec.ofBool s.tmoPending ++ BitVec.ofBool s.edgeEn ++ BitVec.ofBool s.txBusy
    ++ sessionCode s.session : BitVec (18 + 2 + 4 + 2 + 1 + 1 + 1 + 1 + 2))

/-- `count(us)`, the carrier cycles of a mark (R179, R182): exact arithmetic, floor division. -/
def count (p : Config.Params) (us : Word) : Nat :=
  (us.toNat + p.quantAdd) / p.quantDiv

/-- The length of one carrier cycle (R180). -/
def cycleUs (p : Config.Params) : Nat :=
  p.carrierOnUs + p.carrierOffUs

/-- How long a segment lasts on `carrier_out` (R183, R186, R275). -/
def segmentUs (p : Config.Params) : Segment → Nat
  | .mark d => count p d * cycleUs p
  | .space d => d.toNat

/-- The `carrier_out` output (R38, R185, R186): 1 in the active part of a carrier cycle of the mark in emission. -/
def State.carrierOut (s : State) : Bool :=
  match s.txq with
  | .mark d :: _ =>
    decide (s.txPhase < segmentUs s.cfg (.mark d)) && decide (s.txPhase % cycleUs s.cfg < s.cfg.carrierOnUs)
  | _ => false

/-- The `edge_enable` output (R13, R26). -/
def State.edgeEnable (s : State) : Bool :=
  s.edgeEn

end Sys2Proof.Machine
end

