-- ==== Sys2Proof/Machine/Ops.lean ====
section
/-! DEFINITION. The named operations over the state that the meanings share. The block has no traps (R235): what
stands for taking an exception is `raise` (R17), which records the error code and ends the command, and the bus
error, which is a fault of the host's step (R237). -/

namespace Sys2Proof.Machine

/-- What a step gives. -/
abbrev Result := Host.Outcome State Fault Refusal

/-- `raise E` (R17, R230): the code is recorded in STATUS.ERR, and nothing else happens. -/
def State.raise (s : State) (e : ErrCode) : State :=
  { s with err := e }

/-- The bus error of a host access (R80, R237). -/
def busErrorStop : Result :=
  .fault .busError

/-- The part of command decode every opcode goes through first (R112, R242): while TX_BUSY = 1 the command is
rejected, RESULT and everything else unchanged. -/
def command (body : State → State) (s : State) : Result :=
  .next (if s.txBusy then s.raise .txBusy else body s)

/-- One word of the capture window (R210). -/
def State.window (s : State) (i : Nat) : Word :=
  if i < s.rdLen.toNat then s.buf.getD i 0 else 0

/-- The word a read of an offset answers (R113, R210, R61). -/
def State.readWord (s : State) (a : Offset) : Word :=
  match target a with
  | .cmd => 0
  | .status => s.status
  | .result => s.result
  | .desc r => s.regs.get r
  | .reserved => 0
  | .window i => s.window i

/-- One byte of the register port's address space (R64). -/
def State.readByte (s : State) (a : Offset) : Byte :=
  byteLane (s.readWord a) (a.toNat % 4)

/-- The register port answers a read: the value stands on its read-data lines (log 10), no state of the block
changes (R68, R113). -/
def State.answer (s : State) (v : Word) : State :=
  { s with rdata := v }

/-- A read access of the register port (R63, R113). -/
def portRead (a : Offset) (s : State) : Result :=
  if aligned a then .next (s.answer (s.readWord a)) else busErrorStop

/-- A write to a register that is not CMD (R114): only descriptor registers store anything (R66, R67). -/
def State.writeReg (s : State) (a : Offset) (v : Word) : State :=
  match target a with
  | .desc r => { s with regs := s.regs.set r (storedBits r v) }
  | _ => s

/-- Microseconds of the time base pass (R12, R41): NOW counts them, and the sequencer is that much further into the
segment in emission. -/
def State.elapse (s : State) (n : Nat) : State :=
  { s with
    now := s.now + BitVec.ofNat 32 n
    txPhase := if s.txq.isEmpty then s.txPhase else s.txPhase + n }

/-- Inputs put before all others. -/
def State.push (s : State) (ps : List Pending) : State :=
  { s with inbox := ps ++ s.inbox }

/-- The encoder's output when a coding or repeat operation is run on its own (log 11). -/
def State.encode (s : State) (b : Build) : State :=
  { s with encOut := b }

/-- The front-end after an operation of the text form (log 12). -/
def State.onFront (s : State) (f : Front → Front) : State :=
  { s with front := f s.front }

end Sys2Proof.Machine
end

