-- ==== Sys2Proof/Machine/Capture.lean ====
section
/-! DEFINITION. The capture engine's own steps: edge events (43_capture R202 to R205) and the learn timeout (R208). -/

namespace Sys2Proof.Machine

/-- The duration from one timestamp to the next, over one wrap (R203, D4). -/
def edgeDelta (ref ts : Word) : Word :=
  ts - ref

/-- The entry of a delta: negative when the level after the edge is inactive, then `trunc_32` (R203, R100, R215). -/
def captureEntry (delta : Word) (lvl : Bool) : Word :=
  BitVec.ofInt 32 (if lvl then (delta.toNat : Int) else -(delta.toNat : Int))

/-- The full transition (R204). -/
def State.fullTransition (s : State) : State :=
  { s with session := .learnt, edgeEn := false, tmoPending := false, full := true }

/-- An edge in Learn: the baseline (R202). -/
def baselineEffect (ts : Word) (s : State) : State :=
  { s with ref := ts, session := .recv }

/-- An edge in Recv: one entry, and the full transition when the buffer reaches capacity (R203, R204). -/
def recordEffect (ts : Word) (lvl : Bool) (s : State) : State :=
  let s' := { s with ref := ts, buf := s.buf ++ [captureEntry (edgeDelta s.ref ts) lvl] }
  if s'.buf.length = s.cfg.capN - 1 then s'.fullTransition else s'

/-- The firing of the learn timeout (R208). -/
def timeoutEffect (s : State) : State :=
  if armed s.session then { s with tmoPending := false, session := .learnt, edgeEn := false }
  else { s with tmoPending := false }

/-- EDGE_BASELINE (R202): enabled with EDGE_EN = 1 in Learn; where it is not the row of the event, nothing happens
(log 7). -/
def execEdgeBaseline (ts : Word) (_lvl : Bool) (s : State) : Result :=
  .next (if s.edgeEn ∧ s.session = .learn then baselineEffect ts s else s)

/-- EDGE_RECORD (R203, R204): enabled with EDGE_EN = 1 in Recv; where it is not the row of the event, nothing happens
(log 7). -/
def execEdgeRecord (ts : Word) (lvl : Bool) (s : State) : Result :=
  .next (if s.edgeEn ∧ s.session = .recv then recordEffect ts lvl s else s)

/-- EDGE_IGNORED (R205): no effect on any state. -/
def execEdgeIgnored (_ts : Word) (_lvl : Bool) (s : State) : Result :=
  .next s

/-- TIMEOUT (R208, R209): enabled when the timeout is pending and the time base has reached the deadline; else
nothing happens (log 7). -/
def execTimeout (s : State) : Result :=
  .next (if s.tmoPending ∧ s.now = s.tmoDeadline then timeoutEffect s else s)

end Sys2Proof.Machine
end

