-- ==== Sys2Proof/Machine/Transmit.lean ====
section
/-! DEFINITION. The encoder and the transmit sequencer: bit coding and carrier (42_bit_coding.md), framing, repeat
policies and TXSTEP (41_transmit_framing.md), and the meanings of the rows CODING_*, REPEAT_* and TXSTEP. -/

namespace Sys2Proof.Machine

open Sys2Proof.Config (Params PhaseMode)

/-! ### Bit coding -/

/-- Bit `i` of the payload (R170). -/
def payloadBit (v : Word64) (i : Nat) : Bool :=
  v.getLsbD i

/-- Pulse (R171). -/
def pulseBit (t : Timings) (b : Bool) : List Segment :=
  [.mark (if b then t.t1 else t.t0), .space t.t2]

/-- Space (R172). -/
def spaceBit (t : Timings) (b : Bool) : List Segment :=
  [.mark t.t0, .space (if b then t.t2 else t.t1)]

/-- Phase, literal behaviour (R173): the bit value has no effect. -/
def phaseBitLiteral (t : Timings) (_b : Bool) : List Segment :=
  [.mark t.t0, .space t.t0]

/-- Phase, bipolar behaviour (R174): `first` is the bit value coded silence-then-burst. -/
def phaseBitBipolar (first : Bool) (t : Timings) (b : Bool) : List Segment :=
  if b = first then [.space t.t0, .mark t.t0] else [.mark t.t0, .space t.t0]

/-- Phase, by P_PHASE_MODE (R173, R174). -/
def phaseBit (m : PhaseMode) (t : Timings) (b : Bool) : List Segment :=
  match m with
  | .literal => phaseBitLiteral t b
  | .bipolar => phaseBitBipolar Config.phaseSpaceFirstBit t b

/-- The silence of a Quad symbol 0..3, timings[1 + symbol] (R175). -/
def quadSilence (t : Timings) : Nat → Word
  | 0 => t.t1
  | 1 => t.t2
  | 2 => t.t3
  | _ => t.t4

/-- Symbol `k` of a Quad payload, the lower bit of the pair its low bit (R175). -/
def quadSymbol (v : Word64) (k : Nat) : Nat :=
  (payloadBit v (2 * k)).toNat + 2 * (payloadBit v (2 * k + 1)).toNat

/-- One Quad symbol (R175). -/
def quadSegments (t : Timings) (sym : Nat) : List Segment :=
  [.mark t.t0, .space (quadSilence t sym)]

/-- The payload's segments: `n` bits of `v`, bit 0 first, or `n / 2` symbols for Quad (R170). -/
def payload (p : Params) (scheme : CodingScheme) (t : Timings) (v : Word64) (n : Nat) : List Segment :=
  match scheme with
  | .pulse => (List.range n).flatMap fun i => pulseBit t (payloadBit v i)
  | .space => (List.range n).flatMap fun i => spaceBit t (payloadBit v i)
  | .phase => (List.range n).flatMap fun i => phaseBit p.phaseMode t (payloadBit v i)
  | .quad => (List.range (n / 2)).flatMap fun k => quadSegments t (quadSymbol v k)

/-! ### Framing -/

/-- A burst followed by a silence, absent when the burst is 0 (R145, R148). -/
def burstSilence (mark space : Word) : List Segment :=
  if 0 < mark.toNat then [.mark mark, .space space] else []

/-- Step 1 of a frame (R145). -/
def header (d : Descriptor) : List Segment :=
  burstSilence d.headerMark d.headerSpace

/-- Step 3 of a frame (R147). -/
def pause (d : Descriptor) : List Segment :=
  if 0 < d.pauseSpace.toNat then [.space d.pauseSpace] else []

/-- Step 4 of a frame (R148). -/
def stop (d : Descriptor) : List Segment :=
  burstSilence d.stopMark d.stopSpace

/-- Step 5 of a frame (R149). -/
def endmark (d : Descriptor) : List Segment :=
  if 0 < d.endMark.toNat then [.mark d.endMark] else []

/-- Step 6 of a frame (R150). -/
def gapseg (gap : Word) : List Segment :=
  if 0 < gap.toNat then [.space gap] else []

/-- One frame with payload value `data` and gap value `gap` (R144). -/
def frame (p : Params) (d : Descriptor) (data : Word64) (gap : Word) : List Segment :=
  header d ++ payload p d.codingScheme d.timings data d.dataBits.toNat ++ pause d ++ stop d ++ endmark d
    ++ gapseg gap

/-- A frame sent `n` times, back to back (R143). -/
def repeated (n : Nat) (f : List Segment) : List Segment :=
  (List.replicate n f).flatten

/-- How often the base frame is sent (R152, R153): 0 is treated as 1. -/
def repetitions (d : Descriptor) : Nat :=
  max d.repeatCount.toNat 1

/-- None (R151). -/
def waveSingle (p : Params) (d : Descriptor) : List Segment :=
  frame p d d.data d.gap

/-- SameFrame (R152). -/
def waveSameFrame (p : Params) (d : Descriptor) : List Segment :=
  repeated (repetitions d) (frame p d d.data d.gap)

/-- FoxtelWeird (R153). -/
def waveFoxtel (p : Params) (d : Descriptor) : List Segment :=
  repeated (repetitions d) (frame p d d.data d.gap) ++ frame p d d.data d.foxtelGap
    ++ frame p d (d.data ^^^ d.foxtelMask) d.foxtelGap

/-- `valid(d)` (R141). -/
def valid (d : Descriptor) : Bool :=
  decide (d.dataBits.toNat ≤ 64) && (!decide (d.codingScheme = .quad) || d.dataBits.toNat % 2 == 0)

/-- What the encoder makes of a Descriptor, in the order of checks of R140: MALFORMED, then UNSUPPORTED for
StopPauseOnly (R154), else `waveform(d)` (R143). -/
def buildWave (p : Params) (d : Descriptor) : Build :=
  if !valid d then .rejected .malformed
  else
    match d.repeatMode with
    | .single => .built (waveSingle p d)
    | .sameFrame => .built (waveSameFrame p d)
    | .stopPauseOnly => .rejected .unsupported
    | .foxtelWeird => .built (waveFoxtel p d)

/-- The payload segments of a Descriptor alone (R146), rejected as a SEND of it would be (R141). -/
def buildPayload (p : Params) (d : Descriptor) : Build :=
  if !valid d then .rejected .malformed
  else .built (payload p d.codingScheme d.timings d.data d.dataBits.toNat)

/-- The Descriptor of the registers with DESC_CTRL's three fields taken from an operation's word (R32). -/
def withCtrl (s : State) (c : CodingScheme) (r : RepeatMode) (n : BitVec 7) : Descriptor :=
  { s.descriptor with codingScheme := c, repeatMode := r, dataBits := n }

/-! ### The carrier -/

/-- One carrier cycle: (level, µs) (R180, R185). -/
def cycle (p : Params) : List (Bool × Nat) :=
  [(true, p.carrierOnUs), (false, p.carrierOffUs)]

/-- `expand` of one segment: the levels `carrier_out` takes (R185, R186). -/
def expand (p : Params) : Segment → List (Bool × Nat)
  | .mark d => (List.replicate (count p d) (cycle p)).flatten
  | .space d => [(false, d.toNat)]

/-- `expand` of a segment list (R187). -/
def expandAll (p : Params) (segs : List Segment) : List (Bool × Nat) :=
  segs.flatMap (expand p)

/-- The total time of a level list (R187, R276). -/
def totalUs (ls : List (Bool × Nat)) : Nat :=
  (ls.map Prod.snd).sum

/-- The level a level list has after `n` microseconds; 0 after its end (R38, R187). -/
def levelAt : List (Bool × Nat) → Nat → Bool
  | [], _ => false
  | (l, t) :: ls, n => if n < t then l else levelAt ls (n - t)

/-- Adjacent levels that are equal, merged (R188). -/
def mergeLevels : List (Bool × Nat) → List (Bool × Nat)
  | [] => []
  | (l, t) :: ls =>
    match mergeLevels ls with
    | (l', t') :: rest => if l = l' then (l, t + t') :: rest else (l, t) :: (l', t') :: rest
    | [] => [(l, t)]

/-- The electrical view of a level list: no level of time 0, adjacent equal levels merged (R188). -/
def electrical (ls : List (Bool × Nat)) : List (Bool × Nat) :=
  mergeLevels (ls.filter fun x => !(x.2 == 0))

/-! ### Meanings -/

/-- CODING_PULSE (R171, R170). -/
def execCodingPulse (r : RepeatMode) (n : BitVec 7) (s : State) : Result :=
  .next (s.encode (buildPayload s.cfg (withCtrl s .pulse r n)))

/-- CODING_SPACE (R172, R170). -/
def execCodingSpace (r : RepeatMode) (n : BitVec 7) (s : State) : Result :=
  .next (s.encode (buildPayload s.cfg (withCtrl s .space r n)))

/-- CODING_PHASE (R173, R174, R170). -/
def execCodingPhase (r : RepeatMode) (n : BitVec 7) (s : State) : Result :=
  .next (s.encode (buildPayload s.cfg (withCtrl s .phase r n)))

/-- CODING_QUAD (R175, R170). -/
def execCodingQuad (r : RepeatMode) (n : BitVec 7) (s : State) : Result :=
  .next (s.encode (buildPayload s.cfg (withCtrl s .quad r n)))

/-- REPEAT_NONE (R151). -/
def execRepeatNone (c : CodingScheme) (n : BitVec 7) (s : State) : Result :=
  .next (s.encode (buildWave s.cfg (withCtrl s c .single n)))

/-- REPEAT_SAMEFRAME (R152). -/
def execRepeatSameframe (c : CodingScheme) (n : BitVec 7) (s : State) : Result :=
  .next (s.encode (buildWave s.cfg (withCtrl s c .sameFrame n)))

/-- REPEAT_STOPPAUSEONLY (R154). -/
def execRepeatStoppauseonly (c : CodingScheme) (n : BitVec 7) (s : State) : Result :=
  .next (s.encode (buildWave s.cfg (withCtrl s c .stopPauseOnly n)))

/-- REPEAT_FOXTELWEIRD (R153). -/
def execRepeatFoxtelweird (c : CodingScheme) (n : BitVec 7) (s : State) : Result :=
  .next (s.encode (buildWave s.cfg (withCtrl s c .foxtelWeird n)))

/-- TXSTEP (R155): the head segment is emitted, recorded in TXTRACE (R156) and removed; TX_BUSY falls with the last.
With TXQ empty the sequencer is not enabled, and nothing happens (log 7). -/
def execTxstep (s : State) : Result :=
  match s.txq with
  | [] => .next s
  | seg :: rest =>
    .next { s with
      txTrace := s.txTrace ++ [seg]
      txq := rest
      txPhase := 0
      txBusy := if rest.isEmpty then false else s.txBusy }

end Sys2Proof.Machine
end

