-- ==== Sys2Proof/Machine/Command.lean ====
section
/-! DEFINITION. The commands written to CMD: SEND (41_transmit_framing R140), LEARN and READ (43_capture R200, R201,
R206, R207) and the reserved opcodes (30_encoding R112). -/

namespace Sys2Proof.Machine

/-- SEND past command decode (R140, R141, R142). -/
def sendEffect (s : State) : State :=
  match buildWave s.cfg s.descriptor with
  | .built w =>
    { s with
      result := 0
      descSnap := s.descriptor
      txq := w
      txPhase := 0
      txBusy := !w.isEmpty
      err := .ok }
  | .rejected e => { s with result := 0, err := e }
  | .nothing => { s with result := 0 }

/-- LEARN past command decode (R200, R201). -/
def learnEffect (s : State) : State :=
  if s.session = .idle then
    { s with
      result := (sessionCode s.session).setWidth 32
      buf := []
      rdLen := 0
      full := false
      tmoDeadline := s.now + BitVec.ofNat 32 (timeoutUs s.cfg)
      tmoPending := true
      edgeEn := true
      session := .learn
      err := .ok }
  else { s with result := (sessionCode s.session).setWidth 32, err := .sessionBusy }

/-- READ past command decode (R206, R207). -/
def readEffect (s : State) : State :=
  if s.session = .learnt then
    { s with
      rdLen := BitVec.ofNat 11 s.buf.length
      result := BitVec.ofNat 32 s.buf.length
      session := .idle
      err := .ok }
  else { s with rdLen := 0, result := 0, err := .ok }

/-- A reserved opcode past the TX_BUSY check (R112): RESULT unchanged. -/
def illegalEffect (s : State) : State :=
  s.raise .illegalCmd

/-- Command decode (R112): one word written to CMD. -/
def commandWrite (w : Word) (s : State) : Result :=
  match decodeCmd w with
  | .send => command sendEffect s
  | .learn => command learnEffect s
  | .read => command readEffect s
  | _ => command illegalEffect s

/-- SEND (R140, R112). -/
def execSend (s : State) : Result :=
  command sendEffect s

/-- LEARN (R200, R201, R112). -/
def execLearn (s : State) : Result :=
  command learnEffect s

/-- READ (R206, R207, R112). -/
def execRead (s : State) : Result :=
  command readEffect s

/-- ILLEGAL_CMD (R106, R112). -/
def execIllegalCmd (_op : BitVec 4) (s : State) : Result :=
  command illegalEffect s

end Sys2Proof.Machine
end

