-- ==== Sys2Proof/Machine/Port.lean ====
section
/-! DEFINITION. The accesses of the register port: RDREG (30_encoding R113), WRREG (R114), CAPBUF_RD (43_capture
R210) and BUS_ERROR (20_memory R80). -/

namespace Sys2Proof.Machine

/-- RDREG (R113). -/
def execRdreg (a : Offset) (s : State) : Result :=
  portRead a s

/-- WRREG (R114). At offset 0x000, which is no operand of this row, the write is a command (R112; log 19); an offset
that is not aligned is a bus error (R63). -/
def execWrreg (a : Offset) (v : Word) (s : State) : Result :=
  if aligned a then
    if a = 0 then commandWrite v s else .next (s.writeReg a v)
  else busErrorStop

/-- CAPBUF_RD (R210). -/
def execCapbufRd (idx : BitVec 10) (s : State) : Result :=
  .next (s.answer (s.window idx.toNat))

/-- BUS_ERROR (R80, R237): a fault of the host's step, no effect on the block. -/
def execBusError (_dir : Dir) (_a : Offset) (_width : Nat) (_s : State) : Result :=
  busErrorStop

end Sys2Proof.Machine
end

