-- ==== Sys2Proof/Machine/Text.lean ====
section
/-! DEFINITION. The textual front-end (40_descriptor_parser.md): what each section, field and character does to the
Descriptor being read, the parser `parse` made of them (R120), the serializer `ser` (R139), and the meanings of the
TEXT rows. -/

namespace Sys2Proof.Machine

/-- Before the first section of a request (R137: every field 0, repeat mode None). -/
def Front.start : Front := {}

/-- The request is malformed: nothing is read any more (R120, R123). -/
def Front.reject (f : Front) : Front :=
  { f with malformed := true }

/-- A field is read: once only (R124). -/
def Front.take (l : FieldLetter) (upd : Descriptor → Descriptor) (f : Front) : Front :=
  if f.malformed then f
  else if f.seen.contains l then f.reject
  else { f with desc := upd f.desc, seen := f.seen ++ [l] }

/-- The coding character sets the scheme (R125). -/
def setCoding (c : CodingScheme) (d : Descriptor) : Descriptor :=
  { d with codingScheme := c }

/-- The repeat character sets the mode (R132). -/
def setRepeat (c : RepeatChar) (d : Descriptor) : Descriptor :=
  { d with repeatMode := c.mode }

/-- T= entries, the missing ones 0 (R127). -/
def timingsOf (es : List Word) : Timings where
  t0 := es.getD 0 0
  t1 := es.getD 1 0
  t2 := es.getD 2 0
  t3 := es.getD 3 0
  t4 := es.getD 4 0

/-- What a field writes into the Descriptor (R125 to R132). -/
def writeField (fld : Field) (d : Descriptor) : Descriptor :=
  match fld with
  | .c c n => { setCoding c d with dataBits := n }
  | .h m s => { d with headerMark := m, headerSpace := s }
  | .t es => { d with timings := timingsOf es }
  | .p p => { d with pauseSpace := p }
  | .s m s => { d with stopMark := m, stopSpace := s }
  | .e e => { d with endMark := e }
  | .g g => { d with gap := g }
  | .r c n g m => { setRepeat c d with repeatCount := n, foxtelGap := g, foxtelMask := m }

/-- A field is read (R125 to R132): its entries are checked, then it is written, once only. -/
def applyField (f : Front) (fld : Field) : Front :=
  if fld.wellFormed then f.take fld.letter (writeField fld) else f.reject

/-- An `s=` section (R121, R122, R124, R137): one only, its fields in order, C= among them. -/
def applySectionS (fs : List Field) (f : Front) : Front :=
  if f.malformed then f
  else if f.sSeen then f.reject
  else
    let f' := fs.foldl applyField { f with sSeen := true }
    if f'.seen.contains .C then f' else f'.reject

/-- A `d=` section (R121, R133): one only. -/
def applySectionD (v : Word64) (f : Front) : Front :=
  if f.malformed then f
  else if f.dSeen then f.reject
  else { f with dSeen := true, desc := { f.desc with data := v } }

/-- A coding character on its own: the first entry of C= (R125). -/
def applyCchar (c : CodingScheme) (f : Front) : Front :=
  if f.malformed then f else { f with desc := setCoding c f.desc }

/-- A repeat character on its own: the first entry of R= (R132). -/
def applyRchar (c : RepeatChar) (f : Front) : Front :=
  if f.malformed then f else { f with desc := setRepeat c f.desc }

/-- One section of a request, decoded and read (R121). -/
def readSection (f : Front) (cs : List Char) : Front :=
  match decodeSection cs with
  | .ok (.sectionS fs) => applySectionS fs f
  | .ok (.sectionD v) => applySectionD v f
  | _ => f.reject

/-- A whole request: split at every `&`, its sections in order (R121); an `s=` section must be among them. -/
def readRequest (req : List Char) : Front :=
  let f := (splitOn '&' req).foldl readSection Front.start
  if f.sSeen then f else f.reject

/-- `parse(req)` (R120): a Descriptor, or nothing (MalformedRequest). -/
def parse (req : List Char) : Option Descriptor :=
  if (readRequest req).malformed then none else some (readRequest req).desc

/-! ### The serializer -/

/-- The repeat character of a mode; None has none (R97, R132). -/
def repeatCharOf : RepeatMode → Option RepeatChar
  | .single => none
  | .sameFrame => some .r
  | .stopPauseOnly => some .e
  | .foxtelWeird => some .f

/-- The fields `ser` writes, in its order (R139). -/
def serFields (d : Descriptor) : List Field :=
  [.c d.codingScheme d.dataBits, .h d.headerMark d.headerSpace,
    .t [d.timings.t0, d.timings.t1, d.timings.t2, d.timings.t3, d.timings.t4], .p d.pauseSpace,
    .s d.stopMark d.stopSpace, .e d.endMark, .g d.gap]
  ++ match repeatCharOf d.repeatMode with
    | some c => [.r c d.repeatCount d.foxtelGap d.foxtelMask]
    | none => []

/-- `ser(d)` (R139). -/
def ser (d : Descriptor) : List Char :=
  joinWith '&' [sectionSText (serFields d), sectionDText d.data]

/-! ### Meanings -/

/-- SECTION_S (R122). -/
def execSectionS (fs : List Field) (s : State) : Result :=
  .next (s.onFront (applySectionS fs))

/-- SECTION_D (R133). -/
def execSectionD (v : Word64) (s : State) : Result :=
  .next (s.onFront (applySectionD v))

/-- FIELD_C (R125). -/
def execFieldC (c : CodingScheme) (n : BitVec 7) (s : State) : Result :=
  .next (s.onFront fun f => applyField f (.c c n))

/-- FIELD_H (R126). -/
def execFieldH (m sp : Word) (s : State) : Result :=
  .next (s.onFront fun f => applyField f (.h m sp))

/-- FIELD_T (R127). -/
def execFieldT (es : List Word) (s : State) : Result :=
  .next (s.onFront fun f => applyField f (.t es))

/-- FIELD_P (R128). -/
def execFieldP (p : Word) (s : State) : Result :=
  .next (s.onFront fun f => applyField f (.p p))

/-- FIELD_S (R129). -/
def execFieldS (m sp : Word) (s : State) : Result :=
  .next (s.onFront fun f => applyField f (.s m sp))

/-- FIELD_E (R130). -/
def execFieldE (e : Word) (s : State) : Result :=
  .next (s.onFront fun f => applyField f (.e e))

/-- FIELD_G (R131). -/
def execFieldG (g : Word) (s : State) : Result :=
  .next (s.onFront fun f => applyField f (.g g))

/-- FIELD_R (R132). -/
def execFieldR (c : RepeatChar) (n g : Word) (m : Word64) (s : State) : Result :=
  .next (s.onFront fun f => applyField f (.r c n g m))

/-- CCHAR_PULSE (R125). -/
def execCcharPulse (s : State) : Result :=
  .next (s.onFront (applyCchar .pulse))

/-- CCHAR_SPACE (R125). -/
def execCcharSpace (s : State) : Result :=
  .next (s.onFront (applyCchar .space))

/-- CCHAR_PHASE (R125). -/
def execCcharPhase (s : State) : Result :=
  .next (s.onFront (applyCchar .phase))

/-- CCHAR_QUAD (R125). -/
def execCcharQuad (s : State) : Result :=
  .next (s.onFront (applyCchar .quad))

/-- RCHAR_SAMEFRAME (R132). -/
def execRcharSameframe (s : State) : Result :=
  .next (s.onFront (applyRchar .r))

/-- RCHAR_STOPPAUSEONLY (R132). -/
def execRcharStoppauseonly (s : State) : Result :=
  .next (s.onFront (applyRchar .e))

/-- RCHAR_FOXTELWEIRD (R132). -/
def execRcharFoxtelweird (s : State) : Result :=
  .next (s.onFront (applyRchar .f))

end Sys2Proof.Machine
end

