-- ==== Sys2Proof/Machine/Dispatch.lean ====
section
/-! DEFINITION. One arm per row of the opcode table. -/

namespace Sys2Proof.Machine

def exec (i : Instr) (s : State) : Host.Outcome State Fault Refusal :=
  match i with
  -- CMD
  | .send => Sys2Proof.Machine.execSend s
  | .learn => Sys2Proof.Machine.execLearn s
  | .read => Sys2Proof.Machine.execRead s
  | .illegalCmd op => Sys2Proof.Machine.execIllegalCmd op s
  -- DESC_CTRL
  | .codingPulse r n => Sys2Proof.Machine.execCodingPulse r n s
  | .codingSpace r n => Sys2Proof.Machine.execCodingSpace r n s
  | .codingPhase r n => Sys2Proof.Machine.execCodingPhase r n s
  | .codingQuad r n => Sys2Proof.Machine.execCodingQuad r n s
  | .repeatNone c n => Sys2Proof.Machine.execRepeatNone c n s
  | .repeatSameframe c n => Sys2Proof.Machine.execRepeatSameframe c n s
  | .repeatStoppauseonly c n => Sys2Proof.Machine.execRepeatStoppauseonly c n s
  | .repeatFoxtelweird c n => Sys2Proof.Machine.execRepeatFoxtelweird c n s
  -- PORT
  | .rdreg a => Sys2Proof.Machine.execRdreg a s
  | .wrreg a v => Sys2Proof.Machine.execWrreg a v s
  | .capbufRd idx => Sys2Proof.Machine.execCapbufRd idx s
  | .busError dir a w => Sys2Proof.Machine.execBusError dir a w s
  -- EVT
  | .edgeBaseline ts lvl => Sys2Proof.Machine.execEdgeBaseline ts lvl s
  | .edgeRecord ts lvl => Sys2Proof.Machine.execEdgeRecord ts lvl s
  | .edgeIgnored ts lvl => Sys2Proof.Machine.execEdgeIgnored ts lvl s
  -- INTERNAL
  | .timeout => Sys2Proof.Machine.execTimeout s
  | .txstep => Sys2Proof.Machine.execTxstep s
  -- TEXT
  | .sectionS fs => Sys2Proof.Machine.execSectionS fs s
  | .sectionD v => Sys2Proof.Machine.execSectionD v s
  | .fieldC c n => Sys2Proof.Machine.execFieldC c n s
  | .fieldH m sp => Sys2Proof.Machine.execFieldH m sp s
  | .fieldT es => Sys2Proof.Machine.execFieldT es s
  | .fieldP p => Sys2Proof.Machine.execFieldP p s
  | .fieldS m sp => Sys2Proof.Machine.execFieldS m sp s
  | .fieldE e => Sys2Proof.Machine.execFieldE e s
  | .fieldG g => Sys2Proof.Machine.execFieldG g s
  | .fieldR c n g m => Sys2Proof.Machine.execFieldR c n g m s
  | .ccharPulse => Sys2Proof.Machine.execCcharPulse s
  | .ccharSpace => Sys2Proof.Machine.execCcharSpace s
  | .ccharPhase => Sys2Proof.Machine.execCcharPhase s
  | .ccharQuad => Sys2Proof.Machine.execCcharQuad s
  | .rcharSameframe => Sys2Proof.Machine.execRcharSameframe s
  | .rcharStoppauseonly => Sys2Proof.Machine.execRcharStoppauseonly s
  | .rcharFoxtelweird => Sys2Proof.Machine.execRcharFoxtelweird s

end Sys2Proof.Machine
end

