-- ==== Sys2Proof/Machine/Schedule.lean ====
section
/-! DEFINITION. Which agent moves next, and the time that passes before it does (00_scope R8, R12; 20_memory R71, R72):
the inputs of State.inbox in order, each after its own microseconds, and between them the timer and the sequencer at
the instants the time base gives them (43_capture R209, 70_reset_and_hazards R274, R276). Logs 1, 6, 16, 17. -/

namespace Sys2Proof.Machine

/-- Microseconds until the head segment of TXQ is emitted to its end (R155, R275). -/
def State.txRemaining (s : State) : Option Nat :=
  match s.txq with
  | [] => none
  | seg :: _ => some (segmentUs s.cfg seg - s.txPhase)

/-- Microseconds until the armed timeout fires (R27, R209). -/
def State.tmoRemaining (s : State) : Option Nat :=
  if s.tmoPending then some (s.tmoDeadline - s.now).toNat else none

/-- The next thing the block does by itself, and when. Of two at one instant the sequencer's comes first; any order is
possible (R241), and an inbox entry can ask for the other one. -/
def State.nextInternal (s : State) : Option (Nat × Instr) :=
  match s.txRemaining, s.tmoRemaining with
  | none, none => none
  | some a, none => some (a, .txstep)
  | none, some b => some (b, .timeout)
  | some a, some b => if b < a then some (b, .timeout) else some (a, .txstep)

/-- The time that passes before an input: its own wait, or, for an input that names an internal unit's step, the time
that unit needs. -/
def State.due (s : State) (p : Pending) : Nat :=
  match p.input with
  | .raw (.internal .sequencer) => s.txRemaining.getD p.wait
  | .raw (.internal .timer) => s.tmoRemaining.getD p.wait
  | _ => p.wait

/-- A read of a register, at once. -/
def readAt (a : Offset) : Pending :=
  { wait := 0, input := .raw (.read a 4) }

/-- A write of a register, at once. -/
def writeAt (a : Offset) (v : Word) : Pending :=
  { wait := 0, input := .raw (.write a (lanesOf v)) }

/-- The accesses of SENDTXT for a parsed Descriptor (R110, R138): the whole image in offset order, then SEND. -/
def sendTxtAccesses (d : Descriptor) : List Pending :=
  descRegs.map (fun r => writeAt r.offset ((imageOf d).get r)) ++ [writeAt 0x000 1]

/-- SENDTXT (R110, R120): on MalformedRequest no access is made. Its request begins a new accumulator, which then stays
with that request's letters and sections for the TEXT rows run on their own after it (DESIGN CHOICE, log 26). -/
def sendTxt (req : List Char) (s : State) : State :=
  match parse req with
  | some d => { s with front := readRequest req }.push (sendTxtAccesses d)
  | none => { s with front := readRequest req }

/-- The reset pin (R260 to R262): every piece of state takes its reset value; the inputs still to come and the machine's
parameters are not state of the block (log 17). The front-end's accumulator is emptied (DESIGN CHOICE, log 26). -/
def State.resetPin (s : State) : State :=
  { State.reset with cfg := s.cfg, inbox := s.inbox }

/-- WAITTX: read STATUS (R110). -/
def waitTx (s : State) : State :=
  s.push [readAt 0x004, { wait := 0, input := .waitTxTest }]

/-- WAITTX: done when bit 2 of STATUS read 0, else read it again, one microsecond later (R110; log 16). -/
def waitTxTest (s : State) : State :=
  if s.rdata.getLsbD 2 then
    s.push [{ wait := 1, input := .raw (.read 0x004 4) }, { wait := 0, input := .waitTxTest }]
  else s

/-- DRAIN: READ, then read RESULT (R110). -/
def drain (s : State) : State :=
  s.push [writeAt 0x000 3, readAt 0x008, { wait := 0, input := .drainWindow }]

/-- The offset of CAPBUF[i] (R61). -/
def capbufOffset (i : Nat) : Offset :=
  BitVec.ofNat 13 (0x1000 + 4 * i)

/-- DRAIN: read CAPBUF[i] for every i below the value RESULT gave (R110), at most the window's 1024 words. -/
def drainWindow (s : State) : State :=
  s.push ((List.range (min s.rdata.toNat 1024)).map fun i => readAt (capbufOffset i))

/-- One input, its time already passed. A piece of request text that is no operation makes the request malformed
(R120) and has no other effect; the empty item on its own is such a piece (DESIGN CHOICE, log 27). -/
def runInput (inp : Input) (s : State) : Result :=
  match inp with
  | .raw r =>
    match decode s.edgeEn s.session r with
    | .ok i => exec i s
    | .error _ => .next (s.onFront Front.reject)
  | .rst => .next s.resetPin
  | .sendTxt req => .next (sendTxt req s)
  | .waitTx => .next (waitTx s)
  | .waitTxTest => .next (waitTxTest s)
  | .drain => .next (drain s)
  | .drainWindow => .next (drainWindow s)

/-- Nothing left to come from outside: the block's own next step, or one microsecond of the time base (R12). -/
def stepAlone (s : State) : Result :=
  match s.nextInternal with
  | some (n, i) => exec i (s.elapse n)
  | none => .next (s.elapse 1)

/-- The block's own next step before an input still `wait` microseconds away. -/
def stepBefore (n : Nat) (i : Instr) (p : Pending) (rest : List Pending) (s : State) : Result :=
  exec i ({ s with inbox := { p with wait := p.wait - n } :: rest }.elapse n)

/-- An input is next. -/
def stepInput (p : Pending) (rest : List Pending) (s : State) : Result :=
  runInput p.input ({ s with inbox := rest }.elapse (s.due p))

/-- One step of the block and its surroundings: one step of one agent (R71). -/
def nextStep (s : State) : Result :=
  match s.inbox with
  | [] => stepAlone s
  | p :: rest =>
    match s.nextInternal with
    | some (n, i) => if n < s.due p then stepBefore n i p rest s else stepInput p rest s
    | none => stepInput p rest s

end Sys2Proof.Machine
end

