-- ==== Sys2Proof/Machine/Step.lean ====
section
/-! DEFINITION. One step, and how a bare word of the opcode table comes to be the next input. -/

namespace Sys2Proof.Machine

/-- One step (R8, R71): see Machine/Schedule.lean. -/
def step (s : State) : Host.Outcome State Fault Refusal :=
  nextStep s

/-- The word stands as the next input, written to CMD at once (log 2, log 3). -/
def State.withFetchWord (s : State) (nbits w : Nat) : State :=
  s.push [{ wait := 0, input := .raw (tableRaw nbits w) }]

end Sys2Proof.Machine
end

