-- ==== Sys2Proof/Safety.lean ====
section
/-! DEFINITION. What a good state is (the invariants of 10_state.md and 43_capture.md together), and what a run without
a bus error needs of its inputs. And what claims are stated with: several steps in a row, and the numbers and the grammar
of a request. -/

namespace Sys2Proof.Machine

/-- The head of TXQ is not emitted beyond its end, and with TXQ empty nothing is in emission. -/
def State.phaseInRange (s : State) : Bool :=
  match s.txq with
  | [] => s.txPhase == 0
  | seg :: _ => decide (s.txPhase ≤ segmentUs s.cfg seg)

/-- The states the block can be in. -/
structure State.Inv (s : State) : Prop where
  /-- The parameters are legal (R9, D6). -/
  cfg_legal : s.cfg.legal = true
  /-- TX_BUSY = 1 if and only if TXQ is non-empty (R40). -/
  busy_iff_queue : s.txBusy = true ↔ s.txq ≠ []
  /-- EDGE_EN = 1 if and only if SESSION is Learn or Recv (R26). -/
  edge_iff_armed : s.edgeEn = armed s.session
  /-- TMO_PENDING = 1 exactly in Learn and Recv (R208). -/
  timeout_iff_armed : s.tmoPending = armed s.session
  /-- BUF never exceeds P_CAP_N - 1 entries (R35). -/
  buf_bound : s.buf.length ≤ s.cfg.capN - 1
  /-- In Recv the buffer is not full yet (R204). -/
  recv_room : s.session = .recv → s.buf.length < s.cfg.capN - 1
  /-- In Learn the buffer is empty (R200, R202). -/
  learn_empty : s.session = .learn → s.buf = []
  /-- The window exposes entries of BUF only (R36, R210). -/
  window_bound : s.rdLen.toNat ≤ s.buf.length
  /-- The window is closed from LEARN until READ drains the session (R200, R207, R210). -/
  window_closed : s.session ≠ .idle → s.rdLen = 0
  /-- FULL is not set while a session runs (R28, R200). -/
  full_not_armed : s.full = true → armed s.session = false
  /-- The reserved bits of DESC_CTRL are 0 (R33, R70). -/
  ctrl_masked : s.regs.ctrl &&& 0x00007F0F = s.regs.ctrl
  /-- The segment in emission is not past its end. -/
  phase_in_range : s.phaseInRange = true
  /-- An armed timeout is at most the learn timeout away (R27, R209). -/
  deadline_near : s.tmoPending = true → (s.tmoDeadline - s.now).toNat ≤ timeoutUs s.cfg

/-- An access the register port accepts: four bytes, aligned (R62, R63). Every other raw form is legal. -/
def legalRaw : Raw → Bool
  | .read a w => w == 4 && aligned a
  | .write a lanes => lanes.length == 4 && aligned a
  | _ => true

/-- An input that cannot end in a bus error. -/
def legalInput : Input → Bool
  | .raw r => legalRaw r
  | _ => true

/-- Every input still to come is legal. -/
def State.inboxLegal (s : State) : Bool :=
  s.inbox.all fun p => legalInput p.input

/-! ### Several steps one after the other, for claims -/

/-- A step, then what comes after it; a stop stays a stop. -/
def andThen (r : Result) (k : State → Result) : Result :=
  match r with
  | .next s => k s
  | .fault f => .fault f
  | .refused f => .refused f

/-- Instructions one after the other. -/
def execAll : List Instr → State → Result
  | [], s => .next s
  | i :: is, s => andThen (exec i s) (execAll is)

/-- Edge events one after the other, each taken as the state stands (R202, R203, R205). -/
def edges : List (Word × Bool) → State → Result
  | [], s => .next s
  | (ts, lvl) :: es, s => andThen (runInput (.raw (.edge ts lvl)) s) (edges es)

/-! ### Numbers as a request spells them, for claims: independent of the decoder's own reading -/

/-- The decimal digits (R134), each at the place of its value. -/
def digits10 : List Char :=
  ['0', '1', '2', '3', '4', '5', '6', '7', '8', '9']

/-- The hexadecimal digits in lower case (R135). -/
def digits16 : List Char :=
  digits10 ++ ['a', 'b', 'c', 'd', 'e', 'f']

/-- The hexadecimal digits in upper case (R135). -/
def digits16Upper : List Char :=
  digits10 ++ ['A', 'B', 'C', 'D', 'E', 'F']

/-- The value of a digit: its place among the digits of its case. -/
def digit (c : Char) : Nat :=
  if c ∈ digits16 then digits16.idxOf c else digits16Upper.idxOf c

/-- The number some digits spell in base `b`, most significant digit first (R105). -/
def spelled (b : Nat) (cs : List Char) : Nat :=
  cs.foldl (fun n c => b * n + digit c) 0

/-- One or more decimal digits (R134). -/
def isDec (cs : List Char) : Bool :=
  !cs.isEmpty && cs.all fun c => digits10.contains c

/-- One or more hexadecimal digits, of either case (R135). -/
def isHex (cs : List Char) : Bool :=
  !cs.isEmpty && cs.all fun c => digits16.contains c || digits16Upper.contains c

/-- `cs` is a `num64` that spells `n`: decimal digits, or `0x` and hexadecimal digits (R135). -/
def spellsNum64 (cs : List Char) (n : Nat) : Prop :=
  (isDec cs = true ∧ n = spelled 10 cs) ∨
    ∃ hs, cs = '0' :: 'x' :: hs ∧ isHex hs = true ∧ n = spelled 16 hs

/-! ### The grammar of a request (R121), for claims: independent of the decoder's own reading -/

/-- `dec` as a duration or a repeat count, in range (R134). -/
def isWord (cs : List Char) : Prop :=
  isDec cs = true ∧ spelled 10 cs < 2 ^ 32

/-- `num64`, in range (R135). -/
def isNum64 (cs : List Char) : Prop :=
  ∃ n, spellsNum64 cs n ∧ n < 2 ^ 64

/-- `cs` is the field of a letter: exactly its entries, each of its syntax and in range (R123, R125 to R132). -/
def isField : FieldLetter → List Char → Prop
  | .C, cs => ∃ c ∈ ['M', 'S', 'P', 'Q'], ∃ n, cs = ['C', '=', c, ','] ++ n ∧ isDec n = true ∧ spelled 10 n ≤ 64
  | .H, cs => ∃ a b, cs = ['H', '='] ++ a ++ [','] ++ b ∧ isWord a ∧ isWord b
  | .T, cs => ∃ es, cs = ['T', '='] ++ joinWith ',' es ∧ 1 ≤ es.length ∧ es.length ≤ 5 ∧ ∀ e ∈ es, e = [] ∨ isWord e
  | .P, cs => ∃ a, cs = ['P', '='] ++ a ∧ isWord a
  | .S, cs => ∃ a b, cs = ['S', '='] ++ a ++ [','] ++ b ∧ isWord a ∧ isWord b
  | .E, cs => ∃ a, cs = ['E', '='] ++ a ∧ isWord a
  | .G, cs => ∃ a, cs = ['G', '='] ++ a ∧ isWord a
  | .R, cs => ∃ c ∈ ['R', 'E', 'F'], ∃ a b m, cs = ['R', '=', c, ','] ++ a ++ [','] ++ b ++ [','] ++ m ∧
      isWord a ∧ isWord b ∧ isNum64 m

/-- An `s=` section: items between semicolons, the empty ones skipped, the others fields, no letter twice, C= among
them (R122, R124, R137). -/
def isSectionS (cs : List Char) : Prop :=
  ∃ (items : List (List Char)) (ls : List FieldLetter), cs = ['s', '='] ++ joinWith ';' items ∧
    ls.Nodup ∧ .C ∈ ls ∧ List.Forall₂ isField ls (items.filter fun x => !x.isEmpty)

/-- A `d=` section (R133). -/
def isSectionD (cs : List Char) : Prop :=
  ∃ m, cs = ['d', '='] ++ m ∧ isNum64 m

/-- A request: an `s=` section, and at most one `d=` section before or after it (R121). -/
def isRequest (req : List Char) : Prop :=
  ∃ s, isSectionS s ∧ (req = s ∨ ∃ d, isSectionD d ∧ (req = s ++ ['&'] ++ d ∨ req = d ++ ['&'] ++ s))

/-- The total time of a list of segments (R276). -/
def segmentsUs (p : Config.Params) (segs : List Segment) : Nat :=
  (segs.map (segmentUs p)).sum

end Sys2Proof.Machine
end

