-- ==== Sys2Proof/Certificates/Slice0/Obligations.lean ====
section
/-! DEFINITION. The statements about the irread IR block, for the provers. Each docstring names the rules of spec/ it
formalises. -/

open Sys2Proof Sys2Proof.Machine

/-! ### Encoding and decoding -/

/-- Words written out from the encoding tables (R61, R91, R92, R95, R101, R62, R63) and pieces of request text
(R103, R121) decode to the operations they stand for, and so do the steps of the two internal units (R111). -/
def Obligations.WrittenWordsDecode : Prop :=
  decode false .idle (.write 0x000 [0x01, 0x00, 0x00, 0x00]) = .ok .send ∧
  decode false .idle (.write 0x000 [0x11, 0x00, 0x00, 0x00]) = .ok .send ∧
  decode false .idle (.write 0x000 [0x02, 0x00, 0x00, 0x00]) = .ok .learn ∧
  decode false .idle (.write 0x000 [0x03, 0x00, 0x00, 0x00]) = .ok .read ∧
  decode false .idle (.write 0x000 [0x0F, 0x00, 0x00, 0x00]) = .ok (.illegalCmd 0xF) ∧
  decode false .idle (.write 0x00C [0x00, 0x04, 0x00, 0x00]) = .ok (.wrreg 0x00C 0x00000400) ∧
  decode false .idle (.read 0x004 4) = .ok (.rdreg 0x004) ∧
  decode false .idle (.read 0x1008 4) = .ok (.capbufRd 2) ∧
  decode false .idle (.read 0x006 4) = .ok (.busError .read 0x006 4) ∧
  decode false .idle (.write 0x00C [0x00, 0x00]) = .ok (.busError .write 0x00C 2) ∧
  decode true .learn (.edge 1000 true) = .ok (.edgeBaseline 1000 true) ∧
  decode true .recv (.edge 1560 false) = .ok (.edgeRecord 1560 false) ∧
  decode false .learnt (.edge 500 true) = .ok (.edgeIgnored 500 true) ∧
  decode true .learn (.internal .timer) = .ok .timeout ∧
  decode false .idle (.internal .sequencer) = .ok .txstep ∧
  decode false .idle (.descWord .coder 0x00000303) = .ok (.codingQuad .single 3) ∧
  decode false .idle (.descWord .repeater 0x0000040C) = .ok (.repeatFoxtelweird .pulse 4) ∧
  decode false .idle (.text .item ['C', '=', 'S', ',', '3', '2']) = .ok (.fieldC .space 32) ∧
  decode false .idle (.text .item ['R', '=', 'F', ',', '3', ',', '5', ',', '0', 'x', '2']) = .ok (.fieldR .f 3 5 2) ∧
  decode false .idle (.text .whole ['d', '=', '0', 'x', '1', 'F']) = .ok (.sectionD 31) ∧
  decode false .idle (.text .whole ['s', '=', 'C', '=', 'M', ',', '4', ';', 'G', '=', '7'])
    = .ok (.sectionS [.c .pulse 4, .g 7]) ∧
  decode false .idle (.text .codingEntry ['Q']) = .ok .ccharQuad

/-- Decoding the raw form of a well-formed instruction gives the instruction back, with every operand, in every state
in which the row of an edge event is the one selected (R202, R203, R205). -/
def Obligations.DecodeEncodeAgree : Prop :=
  ∀ (i : Instr) (edgeEn : Bool) (ses : Session), i.wellFormed = true → i.selectedIn edgeEn ses = true →
    decode edgeEn ses (encode i) = .ok i

/-- What the decoder accepts is well-formed and is the row the state selects, and nothing but request text is ever
rejected. -/
def Obligations.DecoderAcceptsOnlyWellFormed : Prop :=
  (∀ (edgeEn : Bool) (ses : Session) (r : Raw) (i : Instr), decode edgeEn ses r = .ok i →
    i.wellFormed = true ∧ i.selectedIn edgeEn ses = true) ∧
  (∀ (edgeEn : Bool) (ses : Session) (r : Raw) (e : Reject), decode edgeEn ses r = .error e →
    ∃ pos cs, r = .text pos cs)

/-- Command decode (R112): a word written to CMD is one of four operations by its bits 3:0; while TX_BUSY = 1 each of
them only sets ERR to TX_BUSY, and a reserved opcode otherwise only sets ERR to ILLEGAL_CMD. -/
def Obligations.CommandDecode : Prop :=
  ∀ (edgeEn : Bool) (ses : Session) (w : Word) (s : State),
    decode edgeEn ses (.write 0x000 (lanesOf w)) = .ok
      (if w.toNat % 16 = 1 then .send else if w.toNat % 16 = 2 then .learn else if w.toNat % 16 = 3 then .read
        else .illegalCmd (BitVec.ofNat 4 (w.toNat % 16))) ∧
    (∀ (i : Instr), i.format = .cmd → s.txBusy = true → exec i s = .next { s with err := .txBusy }) ∧
    (∀ (op : BitVec 4), s.txBusy = false → exec (.illegalCmd op) s = .next { s with err := .illegalCmd })

/-- The Descriptor of the image of a Descriptor is that Descriptor, and a register file whose reserved DESC_CTRL bits
are 0 is the image of the Descriptor it denotes (R32, R138). -/
def Obligations.ImageDenotesDescriptor : Prop :=
  (∀ d : Descriptor, descriptorOf (imageOf d) = d) ∧
  (∀ g : DescRegs, g.ctrl &&& 0x00007F0F = g.ctrl → imageOf (descriptorOf g) = g)

/-- Parsing the string `ser(d)` gives `d` back (R139), for every Descriptor with at most 64 data bits whose repeat
fields are 0 where its mode is None; and `ser(d)` is the string of R139. -/
def Obligations.ParseSerRoundTrip : Prop :=
  ∀ d : Descriptor, d.dataBits.toNat ≤ 64 →
    (d.repeatMode ≠ .single ∨ (d.repeatCount = 0 ∧ d.foxtelGap = 0 ∧ d.foxtelMask = 0)) →
    ser d =
      ['s', '=', 'C', '='] ++ ccharText d.codingScheme ++ [','] ++ decText d.dataBits.toNat
      ++ [';', 'H', '='] ++ decText d.headerMark.toNat ++ [','] ++ decText d.headerSpace.toNat
      ++ [';', 'T', '='] ++ decText d.timings.t0.toNat ++ [','] ++ decText d.timings.t1.toNat ++ [',']
      ++ decText d.timings.t2.toNat ++ [','] ++ decText d.timings.t3.toNat ++ [','] ++ decText d.timings.t4.toNat
      ++ [';', 'P', '='] ++ decText d.pauseSpace.toNat
      ++ [';', 'S', '='] ++ decText d.stopMark.toNat ++ [','] ++ decText d.stopSpace.toNat
      ++ [';', 'E', '='] ++ decText d.endMark.toNat ++ [';', 'G', '='] ++ decText d.gap.toNat
      ++ (match d.repeatMode with
        | .single => []
        | .sameFrame => [';', 'R', '=', 'R', ','] ++ decText d.repeatCount.toNat ++ [','] ++ decText d.foxtelGap.toNat
            ++ [','] ++ decText d.foxtelMask.toNat
        | .stopPauseOnly => [';', 'R', '=', 'E', ','] ++ decText d.repeatCount.toNat ++ [',']
            ++ decText d.foxtelGap.toNat ++ [','] ++ decText d.foxtelMask.toNat
        | .foxtelWeird => [';', 'R', '=', 'F', ','] ++ decText d.repeatCount.toNat ++ [',']
            ++ decText d.foxtelGap.toNat ++ [','] ++ decText d.foxtelMask.toNat)
      ++ ['&', 'd', '='] ++ decText d.data.toNat ∧
    parse (ser d) = some d

/-! ### The register port -/

/-- WRREG (R114): at an aligned offset other than 0x000, in every state, DESC_CTRL takes `v & 0x00007F0F`, another
descriptor register takes `v`, and at every other offset nothing happens. -/
def Obligations.WrregEffect : Prop :=
  ∀ (s : State) (v : Word),
    exec (.wrreg 0x00C v) s = .next { s with regs := { s.regs with ctrl := v &&& 0x00007F0F } } ∧
    (∀ r : DescReg, r ≠ .ctrl → exec (.wrreg r.offset v) s = .next { s with regs := s.regs.set r v }) ∧
    (∀ a : Offset, a.toNat % 4 = 0 → a ≠ 0x000 → (∀ r : DescReg, a ≠ r.offset) → exec (.wrreg a v) s = .next s)

/-- After a WRREG to a descriptor register, each byte of the address space that lies in that register reads as its lane
of the stored word, and every other byte reads as before (R64, R68, R114). The byte view is the model's (log 18). -/
def Obligations.WrregChangesFourBytes : Prop :=
  ∀ (s t : State) (r : DescReg) (v : Word), exec (.wrreg r.offset v) s = .next t →
    ∀ b : Offset, t.readByte b =
      if r.offset.toNat ≤ b.toNat ∧ b.toNat < r.offset.toNat + 4 then
        byteLane (if r = .ctrl then v &&& 0x00007F0F else v) (b.toNat - r.offset.toNat)
      else s.readByte b

/-- RDREG (R113): an aligned read puts the register's value on the read-data lines (the model's record of what the port
answers, log 10) and changes no other state. -/
def Obligations.RdregEffect : Prop :=
  ∀ (s : State),
    exec (.rdreg 0x000) s = .next { s with rdata := 0 } ∧
    exec (.rdreg 0x004) s = .next { s with rdata := s.status } ∧
    exec (.rdreg 0x008) s = .next { s with rdata := s.result } ∧
    (∀ r : DescReg, exec (.rdreg r.offset) s = .next { s with rdata := s.regs.get r }) ∧
    (∀ a : Offset, a.toNat % 4 = 0 → 0x058 ≤ a.toNat → a.toNat < 0x1000 →
      exec (.rdreg a) s = .next { s with rdata := 0 }) ∧
    (∀ i : Nat, i < 1024 → exec (.rdreg (BitVec.ofNat 13 (0x1000 + 4 * i))) s = .next { s with rdata := s.window i })

/-- CAPBUF_RD (R210): `BUF[i]` for `i < RD_LEN`, else 0, on the read-data lines (log 10); no other state changes. -/
def Obligations.CapbufReadEffect : Prop :=
  ∀ (s : State) (idx : BitVec 10),
    (∀ h : idx.toNat < s.buf.length, idx.toNat < s.rdLen.toNat →
      exec (.capbufRd idx) s = .next { s with rdata := s.buf[idx.toNat] }) ∧
    (s.rdLen.toNat ≤ idx.toNat → exec (.capbufRd idx) s = .next { s with rdata := 0 })

/-- The layout of STATUS (R93): the value of the word is the sum of its fields in their places. -/
def Obligations.StatusLayout : Prop :=
  ∀ s : State,
    s.status.toNat =
      (match s.session with | .idle => 0 | .learn => 1 | .recv => 2 | .learnt => 3)
      + 4 * s.txBusy.toNat + 8 * s.edgeEn.toNat + 16 * s.tmoPending.toNat + 32 * s.full.toNat
      + 256 * (match s.err with
        | .ok => 0 | .malformed => 1 | .sessionBusy => 2 | .unsupported => 3 | .illegalCmd => 4 | .txBusy => 5)
      + 4096 * (if s.txBusy then 1 else if s.session = .learn ∨ s.session = .recv then 2 else 0)

/-- Bus errors (R62, R63, R80): every access that is not four bytes wide or not aligned decodes to BUS_ERROR, which is a
fault of the host's step, with which the model ends the run (log 15); so is a register access at an offset that is not
aligned. -/
def Obligations.BusErrorStops : Prop :=
  ∀ (s : State) (edgeEn : Bool) (ses : Session) (a : Offset),
    (∀ w : Nat, w ≠ 4 ∨ a.toNat % 4 ≠ 0 → decode edgeEn ses (.read a w) = .ok (.busError .read a w)) ∧
    (∀ lanes : List Byte, lanes.length ≠ 4 ∨ a.toNat % 4 ≠ 0 →
      decode edgeEn ses (.write a lanes) = .ok (.busError .write a lanes.length)) ∧
    (∀ (dir : Dir) (w : Nat), exec (.busError dir a w) s = .fault .busError) ∧
    (a.toNat % 4 ≠ 0 → exec (.rdreg a) s = .fault .busError ∧ ∀ v, exec (.wrreg a v) s = .fault .busError)

/-! ### Commands -/

/-- SEND with TX_BUSY = 0 (R140, R141, R143, R151 to R154): MALFORMED, then UNSUPPORTED, else the snapshot is taken and
the waveform queued; nothing else changes. -/
def Obligations.SendEffect : Prop :=
  ∀ s : State, s.txBusy = false →
    let d := descriptorOf s.regs
    let n := max d.repeatCount.toNat 1
    let base := frame s.cfg d d.data d.gap
    let accepted := fun w : List Segment =>
      { s with result := 0, err := .ok, descSnap := d, txq := w, txPhase := 0, txBusy := decide (w ≠ []) }
    exec .send s = .next (
      if 64 < d.dataBits.toNat ∨ (d.codingScheme = .quad ∧ d.dataBits.toNat % 2 = 1) then
        { s with result := 0, err := .malformed }
      else
        match d.repeatMode with
        | .single => accepted base
        | .sameFrame => accepted (List.replicate n base).flatten
        | .stopPauseOnly => { s with result := 0, err := .unsupported }
        | .foxtelWeird => accepted ((List.replicate n base).flatten ++ frame s.cfg d d.data d.foxtelGap
            ++ frame s.cfg d (d.data ^^^ d.foxtelMask) d.foxtelGap))

/-- LEARN with TX_BUSY = 0 (R200, R201): from Idle the session is armed, and the indicator shows Armed; else only RESULT
and ERR are written. -/
def Obligations.LearnEffect : Prop :=
  ∀ s : State, s.txBusy = false →
    (s.session = .idle → ∃ t, exec .learn s = .next t ∧ t.indicator = 2 ∧
      t = { s with
        result := 0, buf := [], rdLen := 0, full := false
        tmoDeadline := s.now + BitVec.ofNat 32 (s.cfg.timeoutMs * 1000), tmoPending := true
        edgeEn := true, session := .learn, err := .ok }) ∧
    (s.session ≠ .idle → exec .learn s = .next { s with
        result := (match s.session with | .idle => 0 | .learn => 1 | .recv => 2 | .learnt => 3)
        err := .sessionBusy })

/-- READ with TX_BUSY = 0 (R206, R207): in Learnt the window is opened and the session is Idle; else an empty result. -/
def Obligations.ReadEffect : Prop :=
  ∀ s : State, s.txBusy = false →
    (s.session = .learnt → exec .read s = .next { s with
        rdLen := BitVec.ofNat 11 s.buf.length, result := BitVec.ofNat 32 s.buf.length
        session := .idle, err := .ok }) ∧
    (s.session ≠ .learnt → exec .read s = .next { s with rdLen := 0, result := 0, err := .ok })

/-- Two READs in Learnt (R217): the captured sequence once, then nothing; Idle after the first. -/
def Obligations.ReadTwice : Prop :=
  ∀ s : State, s.Inv → s.txBusy = false → s.session = .learnt →
    ∃ t u, exec .read s = .next t ∧ exec .read t = .next u ∧
      t.session = .idle ∧ t.result.toNat = s.buf.length ∧
      (∀ i (h : i < s.buf.length), t.window i = s.buf[i]) ∧
      u.session = .idle ∧ u.result = 0 ∧ (∀ i, u.window i = 0)

/-! ### Encoder and transmit sequencer -/

/-- CODING_PULSE, run on its own (log 11), gives the payload of the descriptor registers in Pulse coding (R170, R171),
or the rejection of R141. -/
def Obligations.PulseCoding : Prop :=
  ∀ (s : State) (r : RepeatMode) (n : BitVec 7),
    (n.toNat ≤ 64 → exec (.codingPulse r n) s = .next { s with encOut := .built (
      (List.range n.toNat).flatMap fun i =>
        [.mark (if (s.regs.dataHi ++ s.regs.dataLo).getLsbD i then s.regs.t1 else s.regs.t0), .space s.regs.t2]) }) ∧
    (64 < n.toNat → exec (.codingPulse r n) s = .next { s with encOut := .rejected .malformed })

/-- CODING_SPACE, run on its own (log 11), gives the payload in Space coding (R170, R172), or the rejection of R141. -/
def Obligations.SpaceCoding : Prop :=
  ∀ (s : State) (r : RepeatMode) (n : BitVec 7),
    (n.toNat ≤ 64 → exec (.codingSpace r n) s = .next { s with encOut := .built (
      (List.range n.toNat).flatMap fun i =>
        [.mark s.regs.t0, .space (if (s.regs.dataHi ++ s.regs.dataLo).getLsbD i then s.regs.t2 else s.regs.t1)]) }) ∧
    (64 < n.toNat → exec (.codingSpace r n) s = .next { s with encOut := .rejected .malformed })

/-- CODING_PHASE, run on its own (log 11): burst-then-silence for every bit under LITERAL (R173); under BIPOLAR
silence-then-burst for the bit value P_PHASE_SPACE_FIRST_BIT, whichever it is (R174, log 9); or the rejection of R141. -/
def Obligations.PhaseCoding : Prop :=
  ∀ (s : State) (r : RepeatMode) (n : BitVec 7),
    (n.toNat ≤ 64 → s.cfg.phaseMode = .literal → exec (.codingPhase r n) s = .next { s with encOut := .built (
      (List.range n.toNat).flatMap fun _ => [.mark s.regs.t0, .space s.regs.t0]) }) ∧
    (n.toNat ≤ 64 → s.cfg.phaseMode = .bipolar → exec (.codingPhase r n) s = .next { s with encOut := .built (
      (List.range n.toNat).flatMap fun i =>
        if (s.regs.dataHi ++ s.regs.dataLo).getLsbD i = Config.phaseSpaceFirstBit
        then [.space s.regs.t0, .mark s.regs.t0] else [.mark s.regs.t0, .space s.regs.t0]) }) ∧
    (64 < n.toNat → exec (.codingPhase r n) s = .next { s with encOut := .rejected .malformed })

/-- CODING_QUAD, run on its own (log 11): one symbol per pair of bits, the lower bit of the pair its low bit, the symbol
selecting the silence T1 to T4 (R175); or the rejection of R141, for an odd bit count too. -/
def Obligations.QuadCoding : Prop :=
  ∀ (s : State) (r : RepeatMode) (n : BitVec 7),
    (n.toNat ≤ 64 → n.toNat % 2 = 0 → exec (.codingQuad r n) s = .next { s with encOut := .built (
      (List.range (n.toNat / 2)).flatMap fun k =>
        [.mark s.regs.t0,
          .space (match (s.regs.dataHi ++ s.regs.dataLo).getLsbD (2 * k + 1),
              (s.regs.dataHi ++ s.regs.dataLo).getLsbD (2 * k) with
            | false, false => s.regs.t1
            | false, true => s.regs.t2
            | true, false => s.regs.t3
            | true, true => s.regs.t4)]) }) ∧
    (64 < n.toNat ∨ n.toNat % 2 = 1 → exec (.codingQuad r n) s = .next { s with encOut := .rejected .malformed })

/-- The REPEAT_* rows, run on their own (log 11): the waveform of the descriptor registers, with the word's coding and
bit count, under each repeat mode (R151, R152, R153), and UNSUPPORTED for StopPauseOnly (R154); MALFORMED first (R141). -/
def Obligations.RepeatOperations : Prop :=
  ∀ (s : State) (c : CodingScheme) (n : BitVec 7),
    let d := { descriptorOf s.regs with codingScheme := c, dataBits := n }
    let base := frame s.cfg d d.data d.gap
    let bases := (List.replicate (max s.regs.repeatCount.toNat 1) base).flatten
    let gives := fun b : Build => Host.Outcome.next (φ := Fault) (ρ := Refusal) { s with encOut := b }
    (n.toNat ≤ 64 ∧ (c = .quad → n.toNat % 2 = 0) →
      exec (.repeatNone c n) s = gives (.built base) ∧
      exec (.repeatSameframe c n) s = gives (.built bases) ∧
      exec (.repeatStoppauseonly c n) s = gives (.rejected .unsupported) ∧
      exec (.repeatFoxtelweird c n) s = gives (.built (bases ++ frame s.cfg d d.data d.foxtelGap
        ++ frame s.cfg d (d.data ^^^ d.foxtelMask) d.foxtelGap))) ∧
    (64 < n.toNat ∨ (c = .quad ∧ n.toNat % 2 = 1) →
      exec (.repeatNone c n) s = gives (.rejected .malformed) ∧
      exec (.repeatSameframe c n) s = gives (.rejected .malformed) ∧
      exec (.repeatStoppauseonly c n) s = gives (.rejected .malformed) ∧
      exec (.repeatFoxtelweird c n) s = gives (.rejected .malformed))

/-- The six parts of a frame (R144, R145, R147, R148, R149, R150), and a frame with no data bits (R161). -/
def Obligations.FrameParts : Prop :=
  ∀ (p : Config.Params) (d : Descriptor) (v : Word64) (g : Word),
    (d.dataBits = 0 → frame p d v g = header d ++ pause d ++ stop d ++ endmark d ++ gapseg g) ∧
    frame p d v g =
      (if d.headerMark ≠ 0 then [.mark d.headerMark, .space d.headerSpace] else [])
      ++ (payload p d.codingScheme d.timings v d.dataBits.toNat
      ++ ((if d.pauseSpace ≠ 0 then [.space d.pauseSpace] else [])
      ++ ((if d.stopMark ≠ 0 then [.mark d.stopMark, .space d.stopSpace] else [])
      ++ ((if d.endMark ≠ 0 then [.mark d.endMark] else [])
      ++ (if g ≠ 0 then [.space g] else [])))))

/-- The length of a payload (R178): `2n` segments for Pulse, Space and Phase; `n` for Quad with `n` even, half of them
marks and half of them spaces. -/
def Obligations.PayloadLength : Prop :=
  ∀ (p : Config.Params) (t : Timings) (v : Word64) (n : Nat),
    (payload p .pulse t v n).length = 2 * n ∧ (payload p .space t v n).length = 2 * n ∧
    (payload p .phase t v n).length = 2 * n ∧
    (n % 2 = 0 → (payload p .quad t v n).length = n ∧
      ((payload p .quad t v n).filter fun x => match x with | .mark _ => true | .space _ => false).length = n / 2 ∧
      ((payload p .quad t v n).filter fun x => match x with | .mark _ => false | .space _ => true).length = n / 2)

/-- Pulse (R176): every silence of the payload is timings[2]; only the bursts vary with the bit. -/
def Obligations.PulseSilenceIsFixed : Prop :=
  ∀ (p : Config.Params) (t : Timings) (v : Word64) (n i : Nat), i < n →
    (payload p .pulse t v n)[2 * i + 1]? = some (.space t.t2) ∧
    (payload p .pulse t v n)[2 * i]? = some (.mark (if v.getLsbD i then t.t1 else t.t0))

/-- The number of frames of an accepted Send (R160), counted in segments of TXQ: 1 frame for None,
`max(repeatCount, 1)` for SameFrame, and two more, with the Foxtel gap and payload, for FoxtelWeird. -/
def Obligations.FrameCount : Prop :=
  ∀ (s t : State), s.txBusy = false → exec .send s = .next t → t.err = .ok →
    let d := descriptorOf s.regs
    let n := max d.repeatCount.toNat 1
    let base := (frame s.cfg d d.data d.gap).length
    t.txq.length = match d.repeatMode with
      | .single => base
      | .sameFrame => n * base
      | .stopPauseOnly => 0
      | .foxtelWeird => n * base + (frame s.cfg d d.data d.foxtelGap).length
          + (frame s.cfg d (d.data ^^^ d.foxtelMask) d.foxtelGap).length

/-- TXSTEP with TXQ non-empty (R155, R156): the head segment is recorded and removed, TX_BUSY falls with the last; and
while a segment is the one in emission, `carrier_out` follows its `expand` (R185, R186; the position in it is the
model's own field, log 6). With TXQ empty, `carrier_out` is 0 (R38). -/
def Obligations.TxstepEffect : Prop :=
  ∀ s : State,
    (∀ (seg : Segment) (rest : List Segment), s.txq = seg :: rest →
      exec .txstep s = .next { s with
        txTrace := s.txTrace ++ [seg], txq := rest, txPhase := 0
        txBusy := if rest = [] then false else s.txBusy } ∧
      s.carrierOut = levelAt (expand s.cfg seg) s.txPhase) ∧
    (s.txq = [] → s.carrierOut = false)

/-- A queue is emitted segment by segment in its order, and TX_BUSY is 0 after the last (R155, R156); nothing but the
queue, the trace, the position and TX_BUSY changes. -/
def Obligations.QueueIsEmittedInOrder : Prop :=
  ∀ s : State, (s.txBusy = true ↔ s.txq ≠ []) → s.txq ≠ [] →
    execAll (List.replicate s.txq.length .txstep) s = .next { s with
      txTrace := s.txTrace ++ s.txq, txq := [], txPhase := 0, txBusy := false }

/-- Quantization, with any parameters and with the reference ones (R179, R181, R182), and how long segments last on
`carrier_out` (R183, R186): `count(d)` cycles, or the duration of a space. -/
def Obligations.BurstQuantization : Prop :=
  (∀ (p : Config.Params) (d : Word),
    count p d = (d.toNat + p.quantAdd) / p.quantDiv ∧
    totalUs (expand p (.mark d)) = count p d * (p.carrierOnUs + p.carrierOffUs) ∧
    totalUs (expand p (.space d)) = d.toNat) ∧
  (∀ d : Word, totalUs (expand Config.Params.reference (.mark d)) = count Config.Params.reference d * 24) ∧
  totalUs (expand Config.Params.reference (.mark 560)) = 528 ∧
  totalUs (expand Config.Params.reference (.mark 9000)) = 8640 ∧
  ∀ us : Word,
    count Config.Params.reference us = (us.toNat + 12) / 25 ∧
    (count Config.Params.reference us = 0 ↔ us.toNat ≤ 12) ∧
    (us.toNat ≤ 12 → expand Config.Params.reference (.mark us) = []) ∧
    count Config.Params.reference 4294967295 = 171798692

/-- Trailing off-time (R189): after a mark of at least one cycle and a space `q`, the electrical view ends with a silence
of 16 + q microseconds (reference parameters). -/
def Obligations.TrailingOffTime : Prop :=
  ∀ d q : Word, 13 ≤ d.toNat →
    (electrical (expandAll Config.Params.reference [.mark d, .space q])).getLast? = some (false, 16 + q.toNat)

/-- A Send by itself (R155, R276): with nothing to come from outside and no timeout armed, as many steps as there are
segments emit the whole queue, and the time base has advanced by exactly the time the queue still needed. That time
passes between steps is the model's schedule (log 6). -/
def Obligations.SendTakesItsDuration : Prop :=
  ∀ s : State, s.Inv → s.inbox = [] → s.tmoPending = false →
    ∃ t, Host.Core.run Sys2Proof.core s.txq.length s = .next t ∧ t.txq = [] ∧ t.txBusy = false ∧
      t.txTrace = s.txTrace ++ s.txq ∧
      t.now = s.now + BitVec.ofNat 32 (segmentsUs s.cfg s.txq - s.txPhase)

/-- The block never writes its descriptor registers (R162, R31): no operation but WRREG changes one. -/
def Obligations.DescriptorRegistersAreTheHosts : Prop :=
  ∀ (i : Instr) (s t : State), (∀ a v, i ≠ .wrreg a v) → exec i s = .next t → t.regs = s.regs

/-! ### Capture -/

/-- EDGE in Learn is the baseline (R202), and an edge event that arrives while EDGE_EN = 0 has no effect on any state
(R205). -/
def Obligations.EdgeBaselineAndIgnored : Prop :=
  ∀ (s : State) (ts : Word) (lvl : Bool),
    (s.edgeEn = true → s.session = .learn →
      decode s.edgeEn s.session (.edge ts lvl) = .ok (.edgeBaseline ts lvl) ∧
      exec (.edgeBaseline ts lvl) s = .next { s with ref := ts, session := .recv }) ∧
    (s.edgeEn = false →
      decode s.edgeEn s.session (.edge ts lvl) = .ok (.edgeIgnored ts lvl) ∧
      exec (.edgeIgnored ts lvl) s = .next s)

/-- EDGE in Recv (R203, R204): one entry, the low 32 bits of the signed delta, and the full transition in the same step
when the buffer reaches `P_CAP_N - 1` entries. -/
def Obligations.EdgeRecordEffect : Prop :=
  ∀ (s : State) (ts : Word) (lvl : Bool), s.edgeEn = true → s.session = .recv →
    let delta : Int := ((ts.toNat : Int) - (s.ref.toNat : Int)) % 2 ^ 32
    let buf' := s.buf ++ [BitVec.ofInt 32 (if lvl then delta else -delta)]
    decode s.edgeEn s.session (.edge ts lvl) = .ok (.edgeRecord ts lvl) ∧
    exec (.edgeRecord ts lvl) s = .next
      (if buf'.length = s.cfg.capN - 1 then
        { s with ref := ts, buf := buf', session := .learnt, edgeEn := false, tmoPending := false, full := true }
      else { s with ref := ts, buf := buf' })

/-- TIMEOUT at its deadline (R208): the session goes to Learnt and edges are disabled; the buffer and FULL stay. -/
def Obligations.TimeoutEffect : Prop :=
  ∀ s : State, s.tmoPending = true → s.now = s.tmoDeadline →
    (s.session = .learn ∨ s.session = .recv →
      exec .timeout s = .next { s with tmoPending := false, session := .learnt, edgeEn := false }) ∧
    (s.session = .idle ∨ s.session = .learnt → exec .timeout s = .next { s with tmoPending := false })

/-- What a capture entry means (R100, R214, R215): below 2^31 it is the delta with the sign of the level; a delta of 0 is
0 whatever the level. -/
def Obligations.CaptureEntryMeaning : Prop :=
  ∀ delta : Word,
    (delta.toNat < 2 ^ 31 → (captureEntry delta true).toInt = delta.toNat ∧
      (captureEntry delta false).toInt = -(delta.toNat : Int)) ∧
    (∀ lvl, captureEntry delta lvl = 0 ↔ delta = 0) ∧
    (captureEntry delta true).toNat = delta.toNat

/-- A session in Learn or Recv leaves those states only by the full transition or the timeout (R212). -/
def Obligations.SessionExits : Prop :=
  ∀ (i : Instr) (s t : State), exec i s = .next t → (s.session = .learn ∨ s.session = .recv) →
    t.session ≠ .learn → t.session ≠ .recv →
    t.session = .learnt ∧ (i = .timeout ∨
      ((∃ ts lvl, i = .edgeRecord ts lvl) ∧ s.session = .recv ∧ t.full = true))

/-- BUF is emptied only by an accepted LEARN, appended to only by an edge in Recv, and unchanged by everything else
(R211). -/
def Obligations.BufferDiscipline : Prop :=
  ∀ (i : Instr) (s t : State), i.wellFormed = true → exec i s = .next t →
    t.buf = s.buf ∨ (i = .learn ∧ s.session = .idle ∧ t.buf = []) ∨
      (∃ ts lvl e, i = .edgeRecord ts lvl ∧ s.session = .recv ∧ t.buf = s.buf ++ [e])

/-- The capacity boundary (R216): after LEARN, exactly N edge events reach Learnt with N - 1 entries and no timeout;
N - 1 events leave the session in progress, and the timeout then reaches Learnt with N - 2 entries. -/
def Obligations.CapacityBoundary : Prop :=
  ∀ (s : State) (es : List (Word × Bool)), s.Inv → s.session = .learn →
    (es.length = s.cfg.capN → ∃ t, edges es s = .next t ∧ t.session = .learnt ∧ t.full = true ∧
      t.tmoPending = false ∧ t.buf.length = s.cfg.capN - 1) ∧
    (es.length = s.cfg.capN - 1 → ∃ t u, edges es s = .next t ∧ t.tmoPending = true ∧
      exec .timeout { t with now := t.tmoDeadline } = .next u ∧ u.session = .learnt ∧ u.full = s.full ∧
      u.buf.length = s.cfg.capN - 2)

/-- An armed timeout only runs down (R209): a step that leaves it armed lets exactly the time pass that the deadline
comes nearer, and never passes it. The schedule of time is the model's (log 6). -/
def Obligations.ArmedTimeoutOnlyRunsDown : Prop :=
  ∀ s t : State, s.Inv → step s = .next t → s.tmoPending = true → t.tmoPending = true →
    t.tmoDeadline = s.tmoDeadline ∧
      (t.tmoDeadline - t.now).toNat + (t.now - s.now).toNat = (s.tmoDeadline - s.now).toNat

/-- An armed session left to itself ends by the timeout, at its deadline (R209, R208): with nothing to come from outside,
at most one step more than there are segments queued. The schedule of time is the model's (log 6). -/
def Obligations.SessionEndsAtTheDeadline : Prop :=
  ∀ s : State, s.Inv → s.inbox = [] → s.tmoPending = true →
    ∃ k t, k ≤ s.txq.length + 1 ∧ Host.Core.run Sys2Proof.core k s = .next t ∧ t.session = .learnt ∧
      t.edgeEn = false ∧ t.tmoPending = false ∧ t.now = s.tmoDeadline ∧ t.buf = s.buf ∧ t.full = s.full

/-! ### Agents -/

/-- A transmit step and a capture step do not depend on each other's order (R241). -/
def Obligations.TransmitAndCaptureCommute : Prop :=
  ∀ (i : Instr) (s : State),
    ((∃ ts lvl, i = .edgeBaseline ts lvl) ∨ (∃ ts lvl, i = .edgeRecord ts lvl) ∨
      (∃ ts lvl, i = .edgeIgnored ts lvl) ∨ i = .timeout) →
    execAll [.txstep, i] s = execAll [i, .txstep] s ∧ ∃ t, execAll [.txstep, i] s = .next t

/-- An edge event and TIMEOUT at one instant in Recv (R241): edge first, it is recorded, and the session is Learnt after
both; TIMEOUT first, the edge is dropped. -/
def Obligations.EdgeAndTimeoutInEitherOrder : Prop :=
  ∀ (s : State) (ts : Word) (lvl : Bool), s.Inv → s.session = .recv → s.now = s.tmoDeadline →
    (∃ t, andThen (edges [(ts, lvl)] s) (exec .timeout) = .next t ∧ t.session = .learnt ∧
      t.buf = s.buf ++ [captureEntry (ts - s.ref) lvl] ∧
      (t.full = true ↔ s.buf.length + 1 = s.cfg.capN - 1)) ∧
    (∃ t, andThen (exec .timeout s) (edges [(ts, lvl)]) = .next t ∧ t.session = .learnt ∧ t.buf = s.buf ∧
      t.ref = s.ref ∧ t.full = false)

/-- ERR, RESULT and RD_LEN are written by commands only (R29, R30, R42). -/
def Obligations.ResultsAreWrittenByCommandsOnly : Prop :=
  ∀ (i : Instr) (s t : State), i.wellFormed = true → i.format ≠ .cmd → exec i s = .next t →
    t.err = s.err ∧ t.result = s.result ∧ t.rdLen = s.rdLen ∧ t.descSnap = s.descSnap

/-! ### The textual front-end -/

/-- The fields of an `s=` section (R125 to R132): a field read for the first time writes its entries into the Descriptor
being read (the model's accumulator, log 12) and nothing else. -/
def Obligations.FieldOperations : Prop :=
  ∀ s : State, s.front.malformed = false →
    let wrote := fun (l : FieldLetter) (d : Descriptor) =>
      Host.Outcome.next (φ := Fault) (ρ := Refusal)
        { s with front := { s.front with desc := d, seen := s.front.seen ++ [l] } }
    let d := s.front.desc
    (∀ c n, n.toNat ≤ 64 → .C ∉ s.front.seen →
      exec (.fieldC c n) s = wrote .C { d with codingScheme := c, dataBits := n }) ∧
    (∀ m q, .H ∉ s.front.seen → exec (.fieldH m q) s = wrote .H { d with headerMark := m, headerSpace := q }) ∧
    (∀ es : List Word, 1 ≤ es.length → es.length ≤ 5 → .T ∉ s.front.seen →
      exec (.fieldT es) s = wrote .T { d with timings :=
        ⟨es[0]?.getD 0, es[1]?.getD 0, es[2]?.getD 0, es[3]?.getD 0, es[4]?.getD 0⟩ }) ∧
    (∀ p, .P ∉ s.front.seen → exec (.fieldP p) s = wrote .P { d with pauseSpace := p }) ∧
    (∀ m q, .S ∉ s.front.seen → exec (.fieldS m q) s = wrote .S { d with stopMark := m, stopSpace := q }) ∧
    (∀ e, .E ∉ s.front.seen → exec (.fieldE e) s = wrote .E { d with endMark := e }) ∧
    (∀ g, .G ∉ s.front.seen → exec (.fieldG g) s = wrote .G { d with gap := g }) ∧
    (∀ c n g m, .R ∉ s.front.seen → exec (.fieldR c n g m) s = wrote .R { d with
      repeatMode := (match c with | .r => .sameFrame | .e => .stopPauseOnly | .f => .foxtelWeird)
      repeatCount := n, foxtelGap := g, foxtelMask := m })

/-- A field letter read a second time makes the request malformed, and writes nothing (R124); so does a field whose
entries are out of range (R134) or, for T=, none or more than five (R127). The mark stands in the model's accumulator
(log 12). And for every text of an entry (R105, R125 to R135): digits that spell a number within the range of their place
are read as exactly that number, decimal or, in the fourth entry of R= and in `d=`, hexadecimal after `0x`; digits that
spell a number outside it are rejected, never truncated. -/
def Obligations.FieldRejections : Prop :=
  (∀ (f : Field) (s : State), s.front.malformed = false →
    (f.letter ∈ s.front.seen ∨ f.wellFormed = false) →
    exec (fieldInstr f) s = .next { s with front := { s.front with malformed := true } }) ∧
  (∀ (edgeEn : Bool) (ses : Session) (a b : List Char), isDec a = true → isDec b = true →
    let item := fun cs => decode edgeEn ses (.text .item cs)
    let word := fun cs => BitVec.ofNat 32 (spelled 10 cs)
    let fits := fun cs => spelled 10 cs < 2 ^ 32
    (∀ c, item (['C', '='] ++ ccharText c ++ [','] ++ a) =
      if spelled 10 a ≤ 64 then .ok (.fieldC c (BitVec.ofNat 7 (spelled 10 a))) else .error .range) ∧
    (item (['H', '='] ++ a ++ [','] ++ b) =
      if fits a ∧ fits b then .ok (.fieldH (word a) (word b)) else .error .range) ∧
    (∀ es : List (List Char), 1 ≤ es.length → es.length ≤ 5 → (∀ e ∈ es, e = [] ∨ isDec e = true) →
      item (['T', '='] ++ joinWith ',' es) =
        if ∀ e ∈ es, fits e then .ok (.fieldT (es.map word)) else .error .range) ∧
    (item (['P', '='] ++ a) = if fits a then .ok (.fieldP (word a)) else .error .range) ∧
    (item (['S', '='] ++ a ++ [','] ++ b) =
      if fits a ∧ fits b then .ok (.fieldS (word a) (word b)) else .error .range) ∧
    (item (['E', '='] ++ a) = if fits a then .ok (.fieldE (word a)) else .error .range) ∧
    (item (['G', '='] ++ a) = if fits a then .ok (.fieldG (word a)) else .error .range) ∧
    (∀ (m : List Char) (n : Nat), spellsNum64 m n →
      (∀ c, item (['R', '='] ++ rcharText c ++ [','] ++ a ++ [','] ++ b ++ [','] ++ m) =
        if fits a ∧ fits b ∧ n < 2 ^ 64 then .ok (.fieldR c (word a) (word b) (BitVec.ofNat 64 n))
        else .error .range) ∧
      decode edgeEn ses (.text .whole (['d', '='] ++ m)) =
        if n < 2 ^ 64 then .ok (.sectionD (BitVec.ofNat 64 n)) else .error .range))

/-- The coding and repeat characters (R96, R97, R125, R132) set the scheme or the mode of the Descriptor being read
(log 12), and nothing else. -/
def Obligations.CharacterOperations : Prop :=
  ∀ s : State, s.front.malformed = false →
    let scheme := fun c => Host.Outcome.next (φ := Fault) (ρ := Refusal)
      { s with front := { s.front with desc := { s.front.desc with codingScheme := c } } }
    let mode := fun m => Host.Outcome.next (φ := Fault) (ρ := Refusal)
      { s with front := { s.front with desc := { s.front.desc with repeatMode := m } } }
    exec .ccharPulse s = scheme .pulse ∧ exec .ccharSpace s = scheme .space ∧
    exec .ccharPhase s = scheme .phase ∧ exec .ccharQuad s = scheme .quad ∧
    exec .rcharSameframe s = mode .sameFrame ∧ exec .rcharStoppauseonly s = mode .stopPauseOnly ∧
    exec .rcharFoxtelweird s = mode .foxtelWeird

/-- Sections (R121, R122, R133, R137): a well-formed `s=` section read first writes all its fields in order and is not
malformed; a `d=` section writes `data`; a second section of one kind makes the request malformed. The Descriptor being
read is the model's accumulator (log 12). And over whole requests: an `s=` section of the fields `fs`, in any spelling,
parses to what `fs` write into the Descriptor with every field 0; a `d=` section after it or before it only sets `data`
besides; and the Descriptor fields of every absent field, and `data` without a `d=` section, are 0. -/
def Obligations.SectionOperations : Prop :=
  (∀ s : State, s.front.malformed = false →
    (∀ fs, sectionWellFormed fs = true → s.front.sSeen = false → s.front.seen = [] →
      exec (.sectionS fs) s = .next { s with front := { s.front with
        sSeen := true, seen := fs.map Field.letter, desc := fs.foldl (fun d f => writeField f d) s.front.desc } }) ∧
    (∀ v, s.front.dSeen = false →
      exec (.sectionD v) s = .next { s with front := { s.front with
        dSeen := true, desc := { s.front.desc with data := v } } }) ∧
    (∀ fs, s.front.sSeen = true →
      exec (.sectionS fs) s = .next { s with front := { s.front with malformed := true } }) ∧
    (∀ v, s.front.dSeen = true →
      exec (.sectionD v) s = .next { s with front := { s.front with malformed := true } })) ∧
  (∀ fs, sectionWellFormed fs = true → ∀ (edgeEn : Bool) (ses : Session),
    decode edgeEn ses (.text .whole (sectionSText fs)) = .ok (.sectionS fs)) ∧
  (∀ (edgeEn : Bool) (ses : Session) (sec : List Char) (fs : List Field),
    decode edgeEn ses (.text .whole sec) = .ok (.sectionS fs) →
    let zero : Descriptor :=
      { codingScheme := .pulse, repeatMode := .single, dataBits := 0, data := 0, headerMark := 0, headerSpace := 0
        timings := ⟨0, 0, 0, 0, 0⟩, pauseSpace := 0, stopMark := 0, stopSpace := 0, endMark := 0, gap := 0
        repeatCount := 0, foxtelGap := 0, foxtelMask := 0 }
    let d := fs.foldl (fun d f => writeField f d) zero
    let absent := fun l => l ∉ fs.map Field.letter
    parse sec = some d ∧
    (∀ (dsec : List Char) (v : Word64), decode edgeEn ses (.text .whole dsec) = .ok (.sectionD v) →
      parse (sec ++ ['&'] ++ dsec) = some { d with data := v } ∧
      parse (dsec ++ ['&'] ++ sec) = some { d with data := v }) ∧
    d.data = 0 ∧
    (absent .H → d.headerMark = 0 ∧ d.headerSpace = 0) ∧
    (absent .T → d.timings = ⟨0, 0, 0, 0, 0⟩) ∧
    (absent .P → d.pauseSpace = 0) ∧
    (absent .S → d.stopMark = 0 ∧ d.stopSpace = 0) ∧
    (absent .E → d.endMark = 0) ∧
    (absent .G → d.gap = 0) ∧
    (absent .R → d.repeatMode = .single ∧ d.repeatCount = 0 ∧ d.foxtelGap = 0 ∧ d.foxtelMask = 0))

/-- Fields may appear in any order (R122): two orders of one well-formed section write the same Descriptor. -/
def Obligations.FieldOrderIsFree : Prop :=
  ∀ (fs gs : List Field) (d : Descriptor), fs.Perm gs → sectionWellFormed fs = true →
    sectionWellFormed gs = true ∧
      fs.foldl (fun d f => writeField f d) d = gs.foldl (fun d f => writeField f d) d

/-- A request with a space, a tab, a sign or a point anywhere in it is malformed (R136, R134). So is every request with a
section that is no operation, and an `s=` section with a non-empty item that is no operation is none itself (R120 to
R123): a rejected number makes the whole request malformed (R134, R135). And the operations and the requests are exactly
the texts of the grammar, said by `isField`, `isSectionS`, `isSectionD` and `isRequest` without the decoder (R121 to
R137): another letter, another number of entries, a character that is no digit of its place, a `0x` outside a `num64`, an
`0X`, a number out of range, a repeated or missing field or section are rejected, and nothing else is. -/
def Obligations.ForeignCharactersAreMalformed : Prop :=
  (∀ (req : List Char) (c : Char), c ∈ [' ', '\t', '+', '-', '.'] → c ∈ req → parse req = none) ∧
  (∀ (edgeEn : Bool) (ses : Session) (req cs : List Char) (e : Reject), cs ∈ splitOn '&' req →
    decode edgeEn ses (.text .whole cs) = .error e → parse req = none) ∧
  (∀ (edgeEn : Bool) (ses : Session) (v cs : List Char) (e : Reject), cs ∈ splitOn ';' v → cs ≠ [] →
    decode edgeEn ses (.text .item cs) = .error e →
    ∃ e', decode edgeEn ses (.text .whole (['s', '='] ++ v)) = .error e') ∧
  (∀ (edgeEn : Bool) (ses : Session) (cs : List Char),
    (∀ l, (∃ f, decode edgeEn ses (.text .item cs) = .ok (fieldInstr f) ∧ f.letter = l) ↔ isField l cs) ∧
    ((∃ i, decode edgeEn ses (.text .item cs) = .ok i) ↔ ∃ l, isField l cs) ∧
    ((∃ fs, decode edgeEn ses (.text .whole cs) = .ok (.sectionS fs)) ↔ isSectionS cs) ∧
    ((∃ v, decode edgeEn ses (.text .whole cs) = .ok (.sectionD v)) ↔ isSectionD cs) ∧
    ((∃ i, decode edgeEn ses (.text .whole cs) = .ok i) ↔ isSectionS cs ∨ isSectionD cs) ∧
    ((∃ i, decode edgeEn ses (.text .codingEntry cs) = .ok i) ↔ ∃ c ∈ ['M', 'S', 'P', 'Q'], cs = [c]) ∧
    ((∃ i, decode edgeEn ses (.text .repeatEntry cs) = .ok i) ↔ ∃ c ∈ ['R', 'E', 'F'], cs = [c])) ∧
  (∀ req : List Char, (∃ d, parse req = some d) ↔ isRequest req)

/-- A request whose `s=` section lacks C=, or that has no `s=` section, is malformed (R137, R121). -/
def Obligations.CodingFieldIsRequired : Prop :=
  ∀ (req : List Char) (d : Descriptor), parse req = some d →
    ∃ sec ∈ splitOn '&' req, ∃ v, sec = 's' :: '=' :: v ∧ ∃ item ∈ splitOn ';' v, ∃ e, item = 'C' :: '=' :: e

/-- SENDTXT of a malformed request makes no access and changes nothing but the front-end (R110, R120); of any other, the
19 image writes in offset order and the SEND come next. The inputs to come are the model's (log 1, log 16). -/
def Obligations.SendTxtExpansion : Prop :=
  ∀ (req : List Char) (s : State),
    (parse req = none → ∃ t, runInput (.sendTxt req) s = .next t ∧ t = { s with front := t.front } ∧
      t.front.malformed = true) ∧
    (∀ d, parse req = some d → ∃ t, runInput (.sendTxt req) s = .next t ∧
      t = { s with
        front := t.front
        inbox := descRegs.map (fun r => writeAt r.offset ((imageOf d).get r)) ++ [writeAt 0x000 1] ++ s.inbox })

/-- SENDTXT of a request that parses to `d`, run to its end (R110, R138): 21 steps later the registers are the image of
`d`, and the SEND that ends it has had its effect (rejected with TX_BUSY while another Send is emitted). SENDTXT as an
input whose accesses take no time is the model's (log 16). -/
def Obligations.SendTxtLoadsTheImageAndSends : Prop :=
  ∀ (req : List Char) (d : Descriptor) (s : State), parse req = some d →
    ∃ t u, Host.Core.run Sys2Proof.core 21 { s with inbox := [{ wait := 0, input := .sendTxt req }] } = .next u ∧
      t = { s with inbox := [], regs := imageOf d, front := t.front } ∧ exec .send t = .next u ∧
      descriptorOf t.regs = d

/-! ### Steps, reset, invariants -/

/-- A step runs the decoded instruction (R71, R72): an input that decodes to `i`, and before which the block does nothing
by itself, is taken off the inbox, its time passes, and the step is `exec i`. The inputs and their times are the model's
(log 1, log 6). -/
def Obligations.StepRunsTheDecodedInstruction : Prop :=
  ∀ (s : State) (p : Pending) (rest : List Pending) (r : Raw) (i : Instr),
    s.inbox = p :: rest → p.input = .raw r → decode s.edgeEn s.session r = .ok i →
    (∀ n j, s.nextInternal = some (n, j) → s.due p ≤ n) →
    step s = exec i { s with
      inbox := rest
      now := s.now + BitVec.ofNat 32 (s.due p)
      txPhase := if s.txq = [] then s.txPhase else s.txPhase + s.due p }

/-- The block's own steps come at their time (R155, R208, R209): before an input that is further away, and with no input
at all, the sequencer's or the timer's step is the next one. The timer's comes with NOW at the deadline, and in a state
of the invariant the sequencer's comes with the head segment emitted exactly to its end. The schedule and the position in
the segment are the model's (log 6). -/
def Obligations.StepRunsTheBlocksOwnInstruction : Prop :=
  ∀ (s : State) (n : Nat) (i : Instr), s.nextInternal = some (n, i) →
    (s.inbox = [] → step s = exec i (s.elapse n)) ∧
    (∀ p rest, s.inbox = p :: rest → n < s.due p →
      step s = exec i ({ s with inbox := { p with wait := p.wait - n } :: rest }.elapse n)) ∧
    (i = .txstep ∧ s.txq ≠ [] ∧
        (s.Inv → ∀ seg rest, s.txq = seg :: rest → (s.elapse n).txPhase = segmentUs s.cfg seg) ∨
      i = .timeout ∧ s.tmoPending = true ∧ (s.elapse n).now = s.tmoDeadline)

/-- A bare word of the opcode table is run as a command by the very next step (R112; logs 2 and 3). -/
def Obligations.TableWordIsRunNext : Prop :=
  ∀ (s : State) (nbits w : Nat),
    decodeTableWord nbits w = some (decodeCmd (BitVec.ofNat 32 w)) ∧
    step (s.withFetchWord nbits w) = exec (decodeCmd (BitVec.ofNat 32 w)) s

/-- The state after reset (R260, with the values of R23 to R38): what the spec gives. -/
def Obligations.ResetState : Prop :=
  State.reset.session = .idle ∧ State.reset.txBusy = false ∧ State.reset.edgeEn = false ∧
  State.reset.tmoPending = false ∧ State.reset.full = false ∧ State.reset.err = .ok ∧ State.reset.result = 0 ∧
  (∀ r : DescReg, State.reset.regs.get r = 0) ∧ State.reset.buf = [] ∧ State.reset.rdLen = 0 ∧
  State.reset.txq = [] ∧ State.reset.status = 0 ∧ State.reset.indicator = 0 ∧ State.reset.carrierOut = false ∧
  (∀ a : Offset, State.reset.readWord a = 0)

/-- Reset during a Send or a capture (R261, R262): the queue is empty, `carrier_out` is 0, the session is Idle, the
timeout cancelled, the buffer empty; a READ then gives nothing. What stays is the model's reading (log 17). -/
def Obligations.ResetEndsEverything : Prop :=
  ∀ s : State, ∃ t, runInput .rst s = .next t ∧ t.txq = [] ∧ t.txBusy = false ∧ t.carrierOut = false ∧
    t.session = .idle ∧ t.edgeEn = false ∧ t.tmoPending = false ∧ t.buf = [] ∧ t.inbox = s.inbox ∧ t.cfg = s.cfg ∧
    (∃ u, exec .read t = .next u ∧ u.result = 0 ∧ ∀ i, u.window i = 0)

/-- The invariant holds after reset. -/
def Obligations.InvAtReset : Prop :=
  State.reset.Inv

/-- Every step keeps the invariant (R26, R33, R35, R36, R40, R208, R209); the clauses about time are about the model's
schedule (log 6). -/
def Obligations.StepKeepsInv : Prop :=
  ∀ s t : State, s.Inv → step s = .next t → t.Inv

/-- A run with legal accesses only never stops (R80, R230, R235): no command, event or request ends it. -/
def Obligations.LegalInputsNeverStop : Prop :=
  ∀ (k : Nat) (s : State), s.inboxLegal = true →
    ∃ t, Host.Core.run Sys2Proof.core k s = .next t ∧ t.inboxLegal = true
end

