-- ==== Sys2Proof/Laws/Decode.lean ====
section
/-! SUPPORT. The small laws of decoding: byte lanes, bit fields of a DESC_CTRL word, splitting and joining text, and
decimal numbers. -/

namespace Sys2Proof

/-! ### Lanes and fields -/

@[simp] theorem wordOf_lanes (w : Word) :
    wordOf (byteLane w 0) (byteLane w 1) (byteLane w 2) (byteLane w 3) = w := by
  apply BitVec.eq_of_getLsbD_eq
  intro i hi
  simp only [wordOf, byteLane, BitVec.getLsbD_append, BitVec.getLsbD_extractLsb']
  by_cases h0 : i < 8
  · simp [h0]
  · by_cases h1 : i - 8 < 8
    · have : 8 + (i - 8) = i := by omega
      simp [h0, h1, this]
    · by_cases h2 : i - 8 - 8 < 8
      · have : 16 + (i - 8 - 8) = i := by omega
        simp [h0, h1, h2, this]
      · have h3 : i - 8 - 8 - 8 < 8 := by omega
        have : 24 + (i - 8 - 8 - 8) = i := by omega
        simp [h0, h1, h2, h3, this]

@[simp] theorem lanesOf_length (w : Word) : (lanesOf w).length = 4 := rfl

@[simp] theorem codingOf_code (c : CodingScheme) : codingOf (codingCode c) = c := by
  cases c <;> decide

@[simp] theorem repeatOf_code (r : RepeatMode) : repeatOf (repeatCode r) = r := by
  cases r <;> decide

theorem ctrlWord_fields (c : CodingScheme) (r : RepeatMode) (n : BitVec 7) :
    (ctrlWord c r n).extractLsb' 0 2 = codingCode c ∧ (ctrlWord c r n).extractLsb' 2 2 = repeatCode r ∧
      (ctrlWord c r n).extractLsb' 8 7 = n := by
  refine ⟨?_, ?_, ?_⟩ <;>
  · apply BitVec.eq_of_getLsbD_eq
    intro i hi
    simp only [ctrlWord, BitVec.getLsbD_append, BitVec.getLsbD_extractLsb']
    interval_cases i <;> simp

@[simp] theorem ctrlCoding_ctrlWord (c : CodingScheme) (r : RepeatMode) (n : BitVec 7) :
    ctrlCoding (ctrlWord c r n) = c := by
  simp [ctrlCoding, (ctrlWord_fields c r n).1]

@[simp] theorem ctrlRepeat_ctrlWord (c : CodingScheme) (r : RepeatMode) (n : BitVec 7) :
    ctrlRepeat (ctrlWord c r n) = r := by
  simp [ctrlRepeat, (ctrlWord_fields c r n).2.1]

@[simp] theorem ctrlDataBits_ctrlWord (c : CodingScheme) (r : RepeatMode) (n : BitVec 7) :
    ctrlDataBits (ctrlWord c r n) = n :=
  (ctrlWord_fields c r n).2.2

@[simp] theorem opOf_setWidth (op : BitVec 4) : opOf (op.setWidth 32) = op := by
  revert op; decide

/-! ### Splitting and joining -/

theorem splitOn_ne_nil (sep : Char) (cs : List Char) : splitOn sep cs ≠ [] := by
  cases cs with
  | nil => simp [splitOn]
  | cons c cs =>
    simp only [splitOn]
    split
    · simp
    · split <;> simp

/-- A piece without the separator is one piece. -/
theorem splitOn_of_not_mem (sep : Char) (cs : List Char) (h : sep ∉ cs) : splitOn sep cs = [cs] := by
  induction cs with
  | nil => rfl
  | cons c cs ih =>
    simp only [List.mem_cons, not_or] at h
    simp [splitOn, Ne.symm h.1, ih h.2]

/-- A piece without the separator, the separator, and the rest. -/
theorem splitOn_append (sep : Char) (p cs : List Char) (h : sep ∉ p) :
    splitOn sep (p ++ sep :: cs) = p :: splitOn sep cs := by
  induction p with
  | nil => simp [splitOn]
  | cons c p ih =>
    simp only [List.mem_cons, not_or] at h
    simp [splitOn, Ne.symm h.1, ih h.2]

/-- Splitting undoes joining. -/
theorem splitOn_joinWith (sep : Char) (ps : List (List Char)) (hne : ps ≠ []) (h : ∀ p ∈ ps, sep ∉ p) :
    splitOn sep (joinWith sep ps) = ps := by
  induction ps with
  | nil => exact absurd rfl hne
  | cons p ps ih =>
    cases ps with
    | nil => simpa [joinWith] using splitOn_of_not_mem sep p (h p (by simp))
    | cons q ps =>
      simp only [joinWith]
      rw [splitOn_append sep p _ (h p (by simp)), ih (by simp) fun x hx => h x (by simp [hx])]

theorem mem_joinWith {sep c : Char} {ps : List (List Char)} (h : c ∈ joinWith sep ps) :
    c = sep ∨ ∃ p ∈ ps, c ∈ p := by
  induction ps with
  | nil => simp [joinWith] at h
  | cons p ps ih =>
    cases ps with
    | nil => exact .inr ⟨p, by simp, by simpa [joinWith] using h⟩
    | cons q ps =>
      simp only [joinWith, List.mem_append, List.mem_cons] at h
      rcases h with h | h | h
      · exact .inr ⟨p, by simp, h⟩
      · exact .inl h
      · rcases ih h with h | ⟨x, hx, hc⟩
        · exact .inl h
        · exact .inr ⟨x, by simp [hx], hc⟩

/-! ### Decimal numbers -/

theorem digitChar_toNat {d : Nat} (h : d < 10) : (Char.ofNat (48 + d)).toNat = 48 + d := by
  interval_cases d <;> rfl

@[simp] theorem decValue_digit {d : Nat} (h : d < 10) : decValue (Char.ofNat (48 + d)) = some d := by
  interval_cases d <;> rfl

/-- The digits of `n` spell `n`. -/
theorem digitsValue_decDigits (fuel n a : Nat) (acc : List Char) (h : n < 10 ^ fuel) (hf : 0 < fuel) :
    ∃ k, 0 < k ∧ n < 10 ^ k ∧
      digitsValue 10 decValue a (decDigits fuel n acc) = digitsValue 10 decValue (a * 10 ^ k + n) acc := by
  induction fuel generalizing n acc with
  | zero => omega
  | succ fuel ih =>
    have hd : n % 10 < 10 := Nat.mod_lt _ (by decide)
    by_cases hz : n / 10 = 0
    · refine ⟨1, by decide, by omega, ?_⟩
      have hn : n % 10 = n := by omega
      have hv := decValue_digit (hn ▸ hd)
      simp [decDigits, hz, digitsValue, hn, hv, Nat.mul_comm]
    · have hlt : n / 10 < 10 ^ fuel := by
        rw [Nat.pow_succ] at h; omega
      have hfp : 0 < fuel := by
        rcases Nat.eq_zero_or_pos fuel with rfl | h'
        · simp at hlt; omega
        · exact h'
      obtain ⟨k, hk, hnk, hv⟩ := ih (n / 10) (Char.ofNat (48 + n % 10) :: acc) hlt hfp
      refine ⟨k + 1, by omega, by rw [Nat.pow_succ]; omega, ?_⟩
      simp only [decDigits, hz, if_false, hv, digitsValue, decValue_digit hd]
      congr 1
      rw [Nat.pow_succ]
      have := Nat.div_add_mod n 10
      ring_nf at this ⊢
      omega

theorem decText_value {n : Nat} (h : n < 2 ^ 64) : digitsValue 10 decValue 0 (decText n) = some n := by
  obtain ⟨k, -, -, hv⟩ := digitsValue_decDigits 20 n 0 [] (by omega) (by decide)
  simpa [decText, digitsValue] using hv

theorem decDigits_ne_nil {fuel : Nat} (n : Nat) (acc : List Char) (h : 0 < fuel) : decDigits fuel n acc ≠ [] := by
  induction fuel generalizing n acc with
  | zero => omega
  | succ fuel ih =>
    simp only [decDigits]
    split
    · simp
    · rcases Nat.eq_zero_or_pos fuel with rfl | h'
      · simp [decDigits]
      · exact ih _ _ h'

theorem mem_decDigits {fuel n : Nat} {acc : List Char} {c : Char} (h : c ∈ decDigits fuel n acc) :
    c ∈ acc ∨ ∃ d < 10, c = Char.ofNat (48 + d) := by
  induction fuel generalizing n acc with
  | zero => exact .inl h
  | succ fuel ih =>
    have hd : n % 10 < 10 := Nat.mod_lt _ (by decide)
    simp only [decDigits] at h
    split at h
    · rcases List.mem_cons.mp h with rfl | h
      · exact .inr ⟨_, hd, rfl⟩
      · exact .inl h
    · rcases ih h with h | h
      · rcases List.mem_cons.mp h with rfl | h
        · exact .inr ⟨_, hd, rfl⟩
        · exact .inl h
      · exact .inr h

theorem decText_digits {n : Nat} {c : Char} (h : c ∈ decText n) : ∃ d < 10, c = Char.ofNat (48 + d) := by
  rcases mem_decDigits h with h | h
  · cases h
  · exact h

/-- No separator of the grammar, and no `x`, stands in a decimal number. -/
theorem decText_no_sep (n : Nat) : ',' ∉ decText n ∧ ';' ∉ decText n ∧ '&' ∉ decText n ∧ 'x' ∉ decText n := by
  refine ⟨?_, ?_, ?_, ?_⟩ <;>
  · intro h
    obtain ⟨d, hd, hc⟩ := decText_digits h
    interval_cases d <;> revert hc <;> decide

@[simp] theorem decNat_decText {n : Nat} (h : n < 2 ^ 64) : decNat (decText n) = .ok n := by
  have hne := decDigits_ne_nil n [] (show 0 < 20 by decide)
  have hv := decText_value h
  unfold decNat
  split
  · next h' => exact absurd h' hne
  · rw [hv]

@[simp] theorem decWord_decText (w : Word) : decWord (decText w.toNat) = .ok w := by
  have h : w.toNat < 2 ^ 32 := w.isLt
  simp [decWord, decNat_decText (show w.toNat < 2 ^ 64 by omega), inRange, bind, Except.bind]
  exact h

@[simp] theorem optWord_decText (w : Word) : optWord (decText w.toNat) = .ok w := by
  have : (decText w.toNat).isEmpty = false := by
    simpa [decText] using decDigits_ne_nil w.toNat [] (show 0 < 20 by decide)
  simp [optWord, this]

@[simp] theorem num64_decText (v : Word64) : num64 (decText v.toNat) = .ok v := by
  unfold num64
  split
  · next hs h => exact absurd (by rw [h]; simp) (decText_no_sep v.toNat).2.2.2
  · have h : v.toNat < 2 ^ 64 := v.isLt
    simp [decNat_decText h, inRange, bind, Except.bind]
    exact h

theorem decDataBits_decText {n : BitVec 7} (h : n.toNat ≤ 64) : decDataBits (decText n.toNat) = .ok n := by
  have h' : n.toNat < 2 ^ 7 := n.isLt
  simp [decDataBits, decNat_decText (show n.toNat < 2 ^ 64 by omega), bind, Except.bind, h]

@[simp] theorem cchar_text (c : CodingScheme) : cchar (ccharText c) = .ok c := by
  cases c <;> decide

@[simp] theorem rchar_text (c : RepeatChar) : rchar (rcharText c) = .ok c := by
  cases c <;> decide

end Sys2Proof
end

