-- ==== Sys2Proof/Laws/State.lean ====
section
/-! SUPPORT. One lemma per field of State and named update: what the update leaves there. -/

namespace Sys2Proof.Machine

variable (s : State)

/-! ### State.raise -/

@[simp] theorem raise_cfg (e : ErrCode) : (s.raise e).cfg = s.cfg := rfl
@[simp] theorem raise_session (e : ErrCode) : (s.raise e).session = s.session := rfl
@[simp] theorem raise_txBusy (e : ErrCode) : (s.raise e).txBusy = s.txBusy := rfl
@[simp] theorem raise_edgeEn (e : ErrCode) : (s.raise e).edgeEn = s.edgeEn := rfl
@[simp] theorem raise_tmoPending (e : ErrCode) : (s.raise e).tmoPending = s.tmoPending := rfl
@[simp] theorem raise_tmoDeadline (e : ErrCode) : (s.raise e).tmoDeadline = s.tmoDeadline := rfl
@[simp] theorem raise_full (e : ErrCode) : (s.raise e).full = s.full := rfl
@[simp] theorem raise_err (e : ErrCode) : (s.raise e).err = e := rfl
@[simp] theorem raise_result (e : ErrCode) : (s.raise e).result = s.result := rfl
@[simp] theorem raise_regs (e : ErrCode) : (s.raise e).regs = s.regs := rfl
@[simp] theorem raise_buf (e : ErrCode) : (s.raise e).buf = s.buf := rfl
@[simp] theorem raise_rdLen (e : ErrCode) : (s.raise e).rdLen = s.rdLen := rfl
@[simp] theorem raise_ref (e : ErrCode) : (s.raise e).ref = s.ref := rfl
@[simp] theorem raise_descSnap (e : ErrCode) : (s.raise e).descSnap = s.descSnap := rfl
@[simp] theorem raise_txq (e : ErrCode) : (s.raise e).txq = s.txq := rfl
@[simp] theorem raise_now (e : ErrCode) : (s.raise e).now = s.now := rfl
@[simp] theorem raise_txTrace (e : ErrCode) : (s.raise e).txTrace = s.txTrace := rfl
@[simp] theorem raise_txPhase (e : ErrCode) : (s.raise e).txPhase = s.txPhase := rfl
@[simp] theorem raise_rdata (e : ErrCode) : (s.raise e).rdata = s.rdata := rfl
@[simp] theorem raise_encOut (e : ErrCode) : (s.raise e).encOut = s.encOut := rfl
@[simp] theorem raise_front (e : ErrCode) : (s.raise e).front = s.front := rfl
@[simp] theorem raise_inbox (e : ErrCode) : (s.raise e).inbox = s.inbox := rfl

/-! ### State.answer -/

@[simp] theorem answer_cfg (v : Word) : (s.answer v).cfg = s.cfg := rfl
@[simp] theorem answer_session (v : Word) : (s.answer v).session = s.session := rfl
@[simp] theorem answer_txBusy (v : Word) : (s.answer v).txBusy = s.txBusy := rfl
@[simp] theorem answer_edgeEn (v : Word) : (s.answer v).edgeEn = s.edgeEn := rfl
@[simp] theorem answer_tmoPending (v : Word) : (s.answer v).tmoPending = s.tmoPending := rfl
@[simp] theorem answer_tmoDeadline (v : Word) : (s.answer v).tmoDeadline = s.tmoDeadline := rfl
@[simp] theorem answer_full (v : Word) : (s.answer v).full = s.full := rfl
@[simp] theorem answer_err (v : Word) : (s.answer v).err = s.err := rfl
@[simp] theorem answer_result (v : Word) : (s.answer v).result = s.result := rfl
@[simp] theorem answer_regs (v : Word) : (s.answer v).regs = s.regs := rfl
@[simp] theorem answer_buf (v : Word) : (s.answer v).buf = s.buf := rfl
@[simp] theorem answer_rdLen (v : Word) : (s.answer v).rdLen = s.rdLen := rfl
@[simp] theorem answer_ref (v : Word) : (s.answer v).ref = s.ref := rfl
@[simp] theorem answer_descSnap (v : Word) : (s.answer v).descSnap = s.descSnap := rfl
@[simp] theorem answer_txq (v : Word) : (s.answer v).txq = s.txq := rfl
@[simp] theorem answer_now (v : Word) : (s.answer v).now = s.now := rfl
@[simp] theorem answer_txTrace (v : Word) : (s.answer v).txTrace = s.txTrace := rfl
@[simp] theorem answer_txPhase (v : Word) : (s.answer v).txPhase = s.txPhase := rfl
@[simp] theorem answer_rdata (v : Word) : (s.answer v).rdata = v := rfl
@[simp] theorem answer_encOut (v : Word) : (s.answer v).encOut = s.encOut := rfl
@[simp] theorem answer_front (v : Word) : (s.answer v).front = s.front := rfl
@[simp] theorem answer_inbox (v : Word) : (s.answer v).inbox = s.inbox := rfl

/-! ### State.elapse -/

@[simp] theorem elapse_cfg (n : Nat) : (s.elapse n).cfg = s.cfg := rfl
@[simp] theorem elapse_session (n : Nat) : (s.elapse n).session = s.session := rfl
@[simp] theorem elapse_txBusy (n : Nat) : (s.elapse n).txBusy = s.txBusy := rfl
@[simp] theorem elapse_edgeEn (n : Nat) : (s.elapse n).edgeEn = s.edgeEn := rfl
@[simp] theorem elapse_tmoPending (n : Nat) : (s.elapse n).tmoPending = s.tmoPending := rfl
@[simp] theorem elapse_tmoDeadline (n : Nat) : (s.elapse n).tmoDeadline = s.tmoDeadline := rfl
@[simp] theorem elapse_full (n : Nat) : (s.elapse n).full = s.full := rfl
@[simp] theorem elapse_err (n : Nat) : (s.elapse n).err = s.err := rfl
@[simp] theorem elapse_result (n : Nat) : (s.elapse n).result = s.result := rfl
@[simp] theorem elapse_regs (n : Nat) : (s.elapse n).regs = s.regs := rfl
@[simp] theorem elapse_buf (n : Nat) : (s.elapse n).buf = s.buf := rfl
@[simp] theorem elapse_rdLen (n : Nat) : (s.elapse n).rdLen = s.rdLen := rfl
@[simp] theorem elapse_ref (n : Nat) : (s.elapse n).ref = s.ref := rfl
@[simp] theorem elapse_descSnap (n : Nat) : (s.elapse n).descSnap = s.descSnap := rfl
@[simp] theorem elapse_txq (n : Nat) : (s.elapse n).txq = s.txq := rfl
@[simp] theorem elapse_now (n : Nat) : (s.elapse n).now = s.now + BitVec.ofNat 32 n := rfl
@[simp] theorem elapse_txTrace (n : Nat) : (s.elapse n).txTrace = s.txTrace := rfl
@[simp] theorem elapse_txPhase (n : Nat) : (s.elapse n).txPhase = if s.txq.isEmpty then s.txPhase else s.txPhase + n := rfl
@[simp] theorem elapse_rdata (n : Nat) : (s.elapse n).rdata = s.rdata := rfl
@[simp] theorem elapse_encOut (n : Nat) : (s.elapse n).encOut = s.encOut := rfl
@[simp] theorem elapse_front (n : Nat) : (s.elapse n).front = s.front := rfl
@[simp] theorem elapse_inbox (n : Nat) : (s.elapse n).inbox = s.inbox := rfl

/-! ### State.push -/

@[simp] theorem push_cfg (ps : List Pending) : (s.push ps).cfg = s.cfg := rfl
@[simp] theorem push_session (ps : List Pending) : (s.push ps).session = s.session := rfl
@[simp] theorem push_txBusy (ps : List Pending) : (s.push ps).txBusy = s.txBusy := rfl
@[simp] theorem push_edgeEn (ps : List Pending) : (s.push ps).edgeEn = s.edgeEn := rfl
@[simp] theorem push_tmoPending (ps : List Pending) : (s.push ps).tmoPending = s.tmoPending := rfl
@[simp] theorem push_tmoDeadline (ps : List Pending) : (s.push ps).tmoDeadline = s.tmoDeadline := rfl
@[simp] theorem push_full (ps : List Pending) : (s.push ps).full = s.full := rfl
@[simp] theorem push_err (ps : List Pending) : (s.push ps).err = s.err := rfl
@[simp] theorem push_result (ps : List Pending) : (s.push ps).result = s.result := rfl
@[simp] theorem push_regs (ps : List Pending) : (s.push ps).regs = s.regs := rfl
@[simp] theorem push_buf (ps : List Pending) : (s.push ps).buf = s.buf := rfl
@[simp] theorem push_rdLen (ps : List Pending) : (s.push ps).rdLen = s.rdLen := rfl
@[simp] theorem push_ref (ps : List Pending) : (s.push ps).ref = s.ref := rfl
@[simp] theorem push_descSnap (ps : List Pending) : (s.push ps).descSnap = s.descSnap := rfl
@[simp] theorem push_txq (ps : List Pending) : (s.push ps).txq = s.txq := rfl
@[simp] theorem push_now (ps : List Pending) : (s.push ps).now = s.now := rfl
@[simp] theorem push_txTrace (ps : List Pending) : (s.push ps).txTrace = s.txTrace := rfl
@[simp] theorem push_txPhase (ps : List Pending) : (s.push ps).txPhase = s.txPhase := rfl
@[simp] theorem push_rdata (ps : List Pending) : (s.push ps).rdata = s.rdata := rfl
@[simp] theorem push_encOut (ps : List Pending) : (s.push ps).encOut = s.encOut := rfl
@[simp] theorem push_front (ps : List Pending) : (s.push ps).front = s.front := rfl
@[simp] theorem push_inbox (ps : List Pending) : (s.push ps).inbox = ps ++ s.inbox := rfl

/-! ### State.encode -/

@[simp] theorem encode_cfg (b : Build) : (s.encode b).cfg = s.cfg := rfl
@[simp] theorem encode_session (b : Build) : (s.encode b).session = s.session := rfl
@[simp] theorem encode_txBusy (b : Build) : (s.encode b).txBusy = s.txBusy := rfl
@[simp] theorem encode_edgeEn (b : Build) : (s.encode b).edgeEn = s.edgeEn := rfl
@[simp] theorem encode_tmoPending (b : Build) : (s.encode b).tmoPending = s.tmoPending := rfl
@[simp] theorem encode_tmoDeadline (b : Build) : (s.encode b).tmoDeadline = s.tmoDeadline := rfl
@[simp] theorem encode_full (b : Build) : (s.encode b).full = s.full := rfl
@[simp] theorem encode_err (b : Build) : (s.encode b).err = s.err := rfl
@[simp] theorem encode_result (b : Build) : (s.encode b).result = s.result := rfl
@[simp] theorem encode_regs (b : Build) : (s.encode b).regs = s.regs := rfl
@[simp] theorem encode_buf (b : Build) : (s.encode b).buf = s.buf := rfl
@[simp] theorem encode_rdLen (b : Build) : (s.encode b).rdLen = s.rdLen := rfl
@[simp] theorem encode_ref (b : Build) : (s.encode b).ref = s.ref := rfl
@[simp] theorem encode_descSnap (b : Build) : (s.encode b).descSnap = s.descSnap := rfl
@[simp] theorem encode_txq (b : Build) : (s.encode b).txq = s.txq := rfl
@[simp] theorem encode_now (b : Build) : (s.encode b).now = s.now := rfl
@[simp] theorem encode_txTrace (b : Build) : (s.encode b).txTrace = s.txTrace := rfl
@[simp] theorem encode_txPhase (b : Build) : (s.encode b).txPhase = s.txPhase := rfl
@[simp] theorem encode_rdata (b : Build) : (s.encode b).rdata = s.rdata := rfl
@[simp] theorem encode_encOut (b : Build) : (s.encode b).encOut = b := rfl
@[simp] theorem encode_front (b : Build) : (s.encode b).front = s.front := rfl
@[simp] theorem encode_inbox (b : Build) : (s.encode b).inbox = s.inbox := rfl

/-! ### State.onFront -/

@[simp] theorem onFront_cfg (f : Front → Front) : (s.onFront f).cfg = s.cfg := rfl
@[simp] theorem onFront_session (f : Front → Front) : (s.onFront f).session = s.session := rfl
@[simp] theorem onFront_txBusy (f : Front → Front) : (s.onFront f).txBusy = s.txBusy := rfl
@[simp] theorem onFront_edgeEn (f : Front → Front) : (s.onFront f).edgeEn = s.edgeEn := rfl
@[simp] theorem onFront_tmoPending (f : Front → Front) : (s.onFront f).tmoPending = s.tmoPending := rfl
@[simp] theorem onFront_tmoDeadline (f : Front → Front) : (s.onFront f).tmoDeadline = s.tmoDeadline := rfl
@[simp] theorem onFront_full (f : Front → Front) : (s.onFront f).full = s.full := rfl
@[simp] theorem onFront_err (f : Front → Front) : (s.onFront f).err = s.err := rfl
@[simp] theorem onFront_result (f : Front → Front) : (s.onFront f).result = s.result := rfl
@[simp] theorem onFront_regs (f : Front → Front) : (s.onFront f).regs = s.regs := rfl
@[simp] theorem onFront_buf (f : Front → Front) : (s.onFront f).buf = s.buf := rfl
@[simp] theorem onFront_rdLen (f : Front → Front) : (s.onFront f).rdLen = s.rdLen := rfl
@[simp] theorem onFront_ref (f : Front → Front) : (s.onFront f).ref = s.ref := rfl
@[simp] theorem onFront_descSnap (f : Front → Front) : (s.onFront f).descSnap = s.descSnap := rfl
@[simp] theorem onFront_txq (f : Front → Front) : (s.onFront f).txq = s.txq := rfl
@[simp] theorem onFront_now (f : Front → Front) : (s.onFront f).now = s.now := rfl
@[simp] theorem onFront_txTrace (f : Front → Front) : (s.onFront f).txTrace = s.txTrace := rfl
@[simp] theorem onFront_txPhase (f : Front → Front) : (s.onFront f).txPhase = s.txPhase := rfl
@[simp] theorem onFront_rdata (f : Front → Front) : (s.onFront f).rdata = s.rdata := rfl
@[simp] theorem onFront_encOut (f : Front → Front) : (s.onFront f).encOut = s.encOut := rfl
@[simp] theorem onFront_front (f : Front → Front) : (s.onFront f).front = f s.front := rfl
@[simp] theorem onFront_inbox (f : Front → Front) : (s.onFront f).inbox = s.inbox := rfl

/-! ### State.fullTransition -/

@[simp] theorem fullTransition_cfg : s.fullTransition.cfg = s.cfg := rfl
@[simp] theorem fullTransition_session : s.fullTransition.session = .learnt := rfl
@[simp] theorem fullTransition_txBusy : s.fullTransition.txBusy = s.txBusy := rfl
@[simp] theorem fullTransition_edgeEn : s.fullTransition.edgeEn = false := rfl
@[simp] theorem fullTransition_tmoPending : s.fullTransition.tmoPending = false := rfl
@[simp] theorem fullTransition_tmoDeadline : s.fullTransition.tmoDeadline = s.tmoDeadline := rfl
@[simp] theorem fullTransition_full : s.fullTransition.full = true := rfl
@[simp] theorem fullTransition_err : s.fullTransition.err = s.err := rfl
@[simp] theorem fullTransition_result : s.fullTransition.result = s.result := rfl
@[simp] theorem fullTransition_regs : s.fullTransition.regs = s.regs := rfl
@[simp] theorem fullTransition_buf : s.fullTransition.buf = s.buf := rfl
@[simp] theorem fullTransition_rdLen : s.fullTransition.rdLen = s.rdLen := rfl
@[simp] theorem fullTransition_ref : s.fullTransition.ref = s.ref := rfl
@[simp] theorem fullTransition_descSnap : s.fullTransition.descSnap = s.descSnap := rfl
@[simp] theorem fullTransition_txq : s.fullTransition.txq = s.txq := rfl
@[simp] theorem fullTransition_now : s.fullTransition.now = s.now := rfl
@[simp] theorem fullTransition_txTrace : s.fullTransition.txTrace = s.txTrace := rfl
@[simp] theorem fullTransition_txPhase : s.fullTransition.txPhase = s.txPhase := rfl
@[simp] theorem fullTransition_rdata : s.fullTransition.rdata = s.rdata := rfl
@[simp] theorem fullTransition_encOut : s.fullTransition.encOut = s.encOut := rfl
@[simp] theorem fullTransition_front : s.fullTransition.front = s.front := rfl
@[simp] theorem fullTransition_inbox : s.fullTransition.inbox = s.inbox := rfl

end Sys2Proof.Machine
end

