-- ==== Sys2Proof/Laws/Effects.lean ====
section
/-! SUPPORT. What each effect of a command, of an edge and of the timeout leaves unchanged, once per effect. -/

namespace Sys2Proof.Machine

/-- An accepted SEND queues a waveform; a rejected one only clears RESULT and records its error (R140). -/
theorem sendEffect_cases (s : State) :
    (∃ w, buildWave s.cfg s.descriptor = .built w ∧ sendEffect s = { s with
      result := 0, descSnap := s.descriptor, txq := w, txPhase := 0, txBusy := !w.isEmpty, err := .ok }) ∨
    (∃ e, buildWave s.cfg s.descriptor = .rejected e ∧ sendEffect s = { s with result := 0, err := e }) := by
  unfold sendEffect
  cases h : buildWave s.cfg s.descriptor with
  | built w => exact .inl ⟨w, rfl, rfl⟩
  | rejected e => exact .inr ⟨e, rfl, rfl⟩
  | nothing =>
    exfalso
    revert h
    unfold buildWave
    split
    · simp
    · split <;> simp

/-- SEND touches the transmit side, RESULT and ERR only. -/
theorem sendEffect_frame (s : State) :
    (sendEffect s).cfg = s.cfg ∧ (sendEffect s).session = s.session ∧ (sendEffect s).edgeEn = s.edgeEn ∧
    (sendEffect s).tmoPending = s.tmoPending ∧ (sendEffect s).tmoDeadline = s.tmoDeadline ∧
    (sendEffect s).full = s.full ∧ (sendEffect s).regs = s.regs ∧ (sendEffect s).buf = s.buf ∧
    (sendEffect s).rdLen = s.rdLen ∧ (sendEffect s).ref = s.ref ∧ (sendEffect s).now = s.now ∧
    (sendEffect s).txTrace = s.txTrace ∧ (sendEffect s).rdata = s.rdata ∧ (sendEffect s).encOut = s.encOut ∧
    (sendEffect s).front = s.front ∧ (sendEffect s).inbox = s.inbox := by
  rcases sendEffect_cases s with ⟨w, -, h⟩ | ⟨e, -, h⟩ <;> rw [h] <;> simp

/-- LEARN touches the capture side, RESULT and ERR only. -/
theorem learnEffect_frame (s : State) :
    (learnEffect s).cfg = s.cfg ∧ (learnEffect s).txBusy = s.txBusy ∧ (learnEffect s).txq = s.txq ∧
    (learnEffect s).txPhase = s.txPhase ∧ (learnEffect s).txTrace = s.txTrace ∧
    (learnEffect s).descSnap = s.descSnap ∧ (learnEffect s).regs = s.regs ∧ (learnEffect s).ref = s.ref ∧
    (learnEffect s).now = s.now ∧ (learnEffect s).rdata = s.rdata ∧ (learnEffect s).encOut = s.encOut ∧
    (learnEffect s).front = s.front ∧ (learnEffect s).inbox = s.inbox := by
  unfold learnEffect
  split <;> simp

/-- READ touches SESSION, RD_LEN, RESULT and ERR only. -/
theorem readEffect_frame (s : State) :
    (readEffect s).cfg = s.cfg ∧ (readEffect s).txBusy = s.txBusy ∧ (readEffect s).txq = s.txq ∧
    (readEffect s).txPhase = s.txPhase ∧ (readEffect s).txTrace = s.txTrace ∧
    (readEffect s).descSnap = s.descSnap ∧ (readEffect s).regs = s.regs ∧ (readEffect s).ref = s.ref ∧
    (readEffect s).edgeEn = s.edgeEn ∧ (readEffect s).tmoPending = s.tmoPending ∧
    (readEffect s).tmoDeadline = s.tmoDeadline ∧ (readEffect s).full = s.full ∧ (readEffect s).buf = s.buf ∧
    (readEffect s).now = s.now ∧ (readEffect s).rdata = s.rdata ∧ (readEffect s).encOut = s.encOut ∧
    (readEffect s).front = s.front ∧ (readEffect s).inbox = s.inbox := by
  unfold readEffect
  split <;> simp

/-- A write to a register touches the descriptor registers only (R114). -/
theorem writeReg_eq (s : State) (a : Offset) (v : Word) :
    s.writeReg a v = { s with regs := (s.writeReg a v).regs } := by
  unfold State.writeReg
  split <;> rfl

/-- An edge in Recv: one entry more, and the session either goes on or is full (R203, R204). -/
theorem recordEffect_cases (s : State) (ts : Word) (l : Bool) :
    ∃ e, (s.buf.length + 1 ≠ s.cfg.capN - 1 ∧ recordEffect ts l s = { s with ref := ts, buf := s.buf ++ [e] }) ∨
      (s.buf.length + 1 = s.cfg.capN - 1 ∧ recordEffect ts l s = { s with
        ref := ts, buf := s.buf ++ [e], session := .learnt, edgeEn := false, tmoPending := false, full := true }) := by
  refine ⟨captureEntry (edgeDelta s.ref ts) l, ?_⟩
  unfold recordEffect
  by_cases h : s.buf.length + 1 = s.cfg.capN - 1
  · exact .inr ⟨h, by simp [h, State.fullTransition]⟩
  · exact .inl ⟨h, by simp [h]⟩

/-- The timeout ends an armed session and touches nothing else (R208). -/
theorem timeoutEffect_eq (s : State) :
    timeoutEffect s = { s with
      tmoPending := false
      session := if armed s.session then .learnt else s.session
      edgeEn := if armed s.session then false else s.edgeEn } := by
  unfold timeoutEffect
  split <;> simp_all

end Sys2Proof.Machine
end

