-- ==== Sys2Proof/Laws/Port.lean ====
section
/-! SUPPORT. The register port: what each offset names (20_memory R61), what a register write and read do (30_encoding
R113, R114), and the Descriptor of a register image (40_descriptor_parser R138). -/

namespace Sys2Proof.Machine

/-! ### The register map -/

@[simp] theorem target_offset (r : DescReg) : target r.offset = .desc r := by
  cases r <;> decide

@[simp] theorem aligned_offset (r : DescReg) : aligned r.offset = true := by
  cases r <;> decide

theorem offset_ne_zero (r : DescReg) : r.offset ≠ 0 := by
  cases r <;> decide

theorem target_reserved (a : Offset) (h1 : 0x058 ≤ a.toNat) (h2 : a.toNat < 0x1000) : target a = .reserved := by
  have : ¬ a.toNat < 4 ∧ ¬ a.toNat < 8 ∧ ¬ a.toNat < 12 ∧ ¬ a.toNat < 0x58 := by omega
  simp only [target, this, if_false, h2, if_true]

theorem target_window (i : Nat) (h : i < 1024) : target (BitVec.ofNat 13 (0x1000 + 4 * i)) = .window i := by
  have : (BitVec.ofNat 13 (0x1000 + 4 * i)).toNat = 0x1000 + 4 * i := by simp; omega
  simp only [target, this]
  rw [if_neg (by omega), if_neg (by omega), if_neg (by omega), if_neg (by omega), if_neg (by omega)]
  simp

/-- An offset that names a descriptor register lies in that register's word. -/
theorem offset_of_target_desc (a : Offset) (r : DescReg) (h : target a = .desc r) :
    r.offset.toNat = a.toNat / 4 * 4 := by
  unfold target at h
  split at h
  · cases h
  split at h
  · cases h
  split at h
  · cases h
  split at h
  · obtain ⟨k, hk, hlt⟩ : ∃ k, (a.toNat - 12) / 4 = k ∧ k < 19 := ⟨_, rfl, by omega⟩
    have hq : a.toNat / 4 = k + 3 := by omega
    simp only [hk, Target.desc.injEq] at h
    subst h
    rw [hq]
    interval_cases k <;> rfl
  · split at h <;> cases h

/-- The bytes of one word name the same thing. -/
theorem target_congr (a b : Offset) (h : a.toNat / 4 = b.toNat / 4) : target a = target b := by
  have e1 : (a.toNat - 0x00C) / 4 = (b.toNat - 0x00C) / 4 := by omega
  have e2 : (a.toNat - 0x1000) / 4 = (b.toNat - 0x1000) / 4 := by omega
  have e3 : ∀ k, k % 4 = 0 → (a.toNat < k ↔ b.toNat < k) := by intro k hk; omega
  simp only [target, e1, e2, e3 4 (by rfl), e3 8 (by rfl), e3 12 (by rfl), e3 0x58 (by rfl), e3 0x1000 (by rfl)]

theorem descRegs_get_set (g : DescRegs) (r q : DescReg) (v : Word) :
    (g.set r v).get q = if q = r then v else g.get q := by
  cases r <;> cases q <;> simp [DescRegs.set, DescRegs.get]

/-! ### Accesses -/

/-- A write to a descriptor register, and what it does (R114). -/
theorem exec_wrreg_desc (r : DescReg) (v : Word) (s : State) :
    exec (.wrreg r.offset v) s = .next { s with regs := s.regs.set r (storedBits r v) } := by
  simp only [exec, execWrreg, aligned_offset, if_true, offset_ne_zero, if_false, State.writeReg, target_offset]

/-- A write elsewhere does nothing (R66, R67). -/
theorem exec_wrreg_other (a : Offset) (v : Word) (s : State) (ha : aligned a = true) (h0 : a ≠ 0)
    (h : ∀ r : DescReg, target a ≠ .desc r) : exec (.wrreg a v) s = .next s := by
  have hw : s.writeReg a v = s := by
    unfold State.writeReg
    split
    · next r hr => exact absurd hr (h r)
    · rfl
  simp only [exec, execWrreg, ha, if_true, h0, if_false, hw]

/-- Everything an access of the register port with no command in it can do to the registers (R113, R114). -/
theorem exec_rdreg (a : Offset) (s : State) (ha : aligned a = true) :
    exec (.rdreg a) s = .next (s.answer (s.readWord a)) := by
  simp [exec, execRdreg, portRead, ha]

/-! ### Register images -/

@[simp] theorem pair64_halves (v : Word64) : pair64 (highHalf v) (lowHalf v) = v := by
  apply BitVec.eq_of_getLsbD_eq
  intro i hi
  simp only [pair64, highHalf, lowHalf, BitVec.getLsbD_append, BitVec.getLsbD_extractLsb']
  by_cases h : i < 32
  · simp [h]
  · have h1 : i - 32 < 32 := by omega
    have h2 : 32 + (i - 32) = i := by omega
    simp [h, h1, h2]

@[simp] theorem lowHalf_pair64 (hi lo : Word) : lowHalf (pair64 hi lo) = lo := by
  apply BitVec.eq_of_getLsbD_eq
  intro i h
  simp only [pair64, lowHalf, BitVec.getLsbD_extractLsb', BitVec.getLsbD_append]
  simp [h]

@[simp] theorem highHalf_pair64 (hi lo : Word) : highHalf (pair64 hi lo) = hi := by
  apply BitVec.eq_of_getLsbD_eq
  intro i h
  simp only [pair64, highHalf, BitVec.getLsbD_extractLsb', BitVec.getLsbD_append]
  simp [h]

@[simp] theorem descriptorOf_imageOf (d : Descriptor) : descriptorOf (imageOf d) = d := by
  simp [descriptorOf, imageOf]

theorem codingCode_codingOf (b : BitVec 2) : codingCode (codingOf b) = b := by
  revert b; decide

theorem repeatCode_repeatOf (b : BitVec 2) : repeatCode (repeatOf b) = b := by
  revert b; decide

/-- The fields of a DESC_CTRL word make the word up, but for its reserved bits (R33). -/
theorem ctrlWord_fields_of (w : Word) : ctrlWord (ctrlCoding w) (ctrlRepeat w) (ctrlDataBits w) = w &&& 0x00007F0F := by
  have h : ctrlWord (ctrlCoding w) (ctrlRepeat w) (ctrlDataBits w) =
      ((0 : BitVec 17) ++ w.extractLsb' 8 7 ++ (0 : BitVec 4) ++ w.extractLsb' 2 2
        ++ w.extractLsb' 0 2 : BitVec (17 + 7 + 4 + 2 + 2)) := by
    simp [ctrlWord, ctrlCoding, ctrlRepeat, ctrlDataBits, codingCode_codingOf, repeatCode_repeatOf]
  rw [h]
  apply BitVec.eq_of_getLsbD_eq
  intro i hi
  simp only [BitVec.getLsbD_append, BitVec.getLsbD_extractLsb', BitVec.getLsbD_and]
  interval_cases i <;> simp

end Sys2Proof.Machine
end

