-- ==== Sys2Proof/Laws/Exec.lean ====
section
/-! SUPPORT. What one instruction can do, said once: every way in which `exec` gives a next state. Proofs about all
instructions cite `exec_next` and never unfold `exec`. -/

namespace Sys2Proof.Machine

/-- The state after TXSTEP with `seg` at the head of TXQ (R155). -/
def State.emitted (s : State) (seg : Segment) (rest : List Segment) : State :=
  { s with
    txTrace := s.txTrace ++ [seg]
    txq := rest
    txPhase := 0
    txBusy := if rest.isEmpty then false else s.txBusy }

/-- The shapes of effect an instruction that gives a next state can have. -/
inductive Does : Instr → State → State → Prop
  | commandBusy (i s) (hc : i.format = .cmd ∨ ∃ v, i = .wrreg 0 v) (hb : s.txBusy = true) :
      Does i s (s.raise .txBusy)
  | sends (i s) (hc : i = .send ∨ ∃ v, i = .wrreg 0 v) (hb : s.txBusy = false) : Does i s (sendEffect s)
  | learns (i s) (hc : i = .learn ∨ ∃ v, i = .wrreg 0 v) (hb : s.txBusy = false) : Does i s (learnEffect s)
  | reads (i s) (hc : i = .read ∨ ∃ v, i = .wrreg 0 v) (hb : s.txBusy = false) : Does i s (readEffect s)
  | illegal (i s) (hc : i.format = .cmd ∨ ∃ v, i = .wrreg 0 v) (hb : s.txBusy = false) :
      Does i s (s.raise .illegalCmd)
  | writes (a v s) (ha : aligned a = true) (h0 : a ≠ 0) : Does (.wrreg a v) s (s.writeReg a v)
  | answers (i s v) (hi : i.format = .port) : Does i s (s.answer v)
  | encodes (i s b) (hi : i.format = .descCtrl) : Does i s (s.encode b)
  | text (i s f) (hi : i.format = .text) : Does i s (s.onFront f)
  | baseline (ts l s) (he : s.edgeEn = true) (hs : s.session = .learn) :
      Does (.edgeBaseline ts l) s (baselineEffect ts s)
  | record (ts l s) (he : s.edgeEn = true) (hs : s.session = .recv) :
      Does (.edgeRecord ts l) s (recordEffect ts l s)
  | fires (s) (hp : s.tmoPending = true) (hn : s.now = s.tmoDeadline) : Does .timeout s (timeoutEffect s)
  | emits (s seg rest) (hq : s.txq = seg :: rest) : Does .txstep s (s.emitted seg rest)
  | stutters (i s) (hi : i.format = .evt ∨ i.format = .internal) : Does i s s

theorem does_of_command {i : Instr} {body : State → State} {s t : State} (h : command body s = .next t)
    (hb : s.txBusy = true → Does i s (s.raise .txBusy)) (hn : s.txBusy = false → Does i s (body s)) :
    Does i s t := by
  simp only [command, Host.Outcome.next.injEq] at h
  subst h
  cases hs : s.txBusy
  · simpa [hs] using hn hs
  · simpa [hs] using hb hs

/-- Everything an instruction can do when it gives a next state. -/
theorem exec_next {i : Instr} {s t : State} (h : exec i s = .next t) : Does i s t := by
  cases i with
  | send => exact does_of_command h (.commandBusy _ _ (.inl rfl)) (.sends _ _ (.inl rfl))
  | learn => exact does_of_command h (.commandBusy _ _ (.inl rfl)) (.learns _ _ (.inl rfl))
  | read => exact does_of_command h (.commandBusy _ _ (.inl rfl)) (.reads _ _ (.inl rfl))
  | illegalCmd op => exact does_of_command h (.commandBusy _ _ (.inl rfl)) (.illegal _ _ (.inl rfl))
  | rdreg a =>
    simp only [exec, execRdreg, portRead] at h
    split at h
    · cases h; exact .answers _ _ _ rfl
    · cases h
  | wrreg a v =>
    simp only [exec, execWrreg] at h
    split at h
    · next ha =>
      split at h
      · next h0 =>
        subst h0
        have hc : ∃ w, Instr.wrreg 0 v = .wrreg 0 w := ⟨v, rfl⟩
        simp only [commandWrite] at h
        split at h
        · exact does_of_command h (.commandBusy _ _ (.inr hc)) (.sends _ _ (.inr hc))
        · exact does_of_command h (.commandBusy _ _ (.inr hc)) (.learns _ _ (.inr hc))
        · exact does_of_command h (.commandBusy _ _ (.inr hc)) (.reads _ _ (.inr hc))
        · exact does_of_command h (.commandBusy _ _ (.inr hc)) (.illegal _ _ (.inr hc))
      · next h0 => cases h; exact .writes _ _ _ ha h0
    · cases h
  | capbufRd idx => cases h; exact .answers _ _ _ rfl
  | busError dir a w => cases h
  | edgeBaseline ts l =>
    cases h
    split
    · next hg => exact .baseline _ _ _ hg.1 hg.2
    · exact .stutters _ _ (.inl rfl)
  | edgeRecord ts l =>
    cases h
    split
    · next hg => exact .record _ _ _ hg.1 hg.2
    · exact .stutters _ _ (.inl rfl)
  | edgeIgnored ts l => cases h; exact .stutters _ _ (.inl rfl)
  | timeout =>
    cases h
    split
    · next hg => exact .fires _ hg.1 hg.2
    · exact .stutters _ _ (.inr rfl)
  | txstep =>
    simp only [exec, execTxstep] at h
    split at h
    · cases h; exact .stutters _ _ (.inr rfl)
    · next seg rest hq => cases h; exact .emits _ _ _ hq
  | codingPulse r n => cases h; exact .encodes _ _ _ rfl
  | codingSpace r n => cases h; exact .encodes _ _ _ rfl
  | codingPhase r n => cases h; exact .encodes _ _ _ rfl
  | codingQuad r n => cases h; exact .encodes _ _ _ rfl
  | repeatNone c n => cases h; exact .encodes _ _ _ rfl
  | repeatSameframe c n => cases h; exact .encodes _ _ _ rfl
  | repeatStoppauseonly c n => cases h; exact .encodes _ _ _ rfl
  | repeatFoxtelweird c n => cases h; exact .encodes _ _ _ rfl
  | sectionS fs => cases h; exact .text _ _ _ rfl
  | sectionD v => cases h; exact .text _ _ _ rfl
  | fieldC c n => cases h; exact .text _ _ _ rfl
  | fieldH m sp => cases h; exact .text _ _ _ rfl
  | fieldT es => cases h; exact .text _ _ _ rfl
  | fieldP p => cases h; exact .text _ _ _ rfl
  | fieldS m sp => cases h; exact .text _ _ _ rfl
  | fieldE e => cases h; exact .text _ _ _ rfl
  | fieldG g => cases h; exact .text _ _ _ rfl
  | fieldR c n g m => cases h; exact .text _ _ _ rfl
  | ccharPulse => cases h; exact .text _ _ _ rfl
  | ccharSpace => cases h; exact .text _ _ _ rfl
  | ccharPhase => cases h; exact .text _ _ _ rfl
  | ccharQuad => cases h; exact .text _ _ _ rfl
  | rcharSameframe => cases h; exact .text _ _ _ rfl
  | rcharStoppauseonly => cases h; exact .text _ _ _ rfl
  | rcharFoxtelweird => cases h; exact .text _ _ _ rfl

/-- The only fault is the bus error, and no instruction is refused (R80, R235). -/
theorem exec_total (i : Instr) (s : State) : (∃ t, exec i s = .next t) ∨ exec i s = .fault .busError := by
  cases i with
  | rdreg a =>
    simp only [exec, execRdreg, portRead]
    split
    · exact .inl ⟨_, rfl⟩
    · exact .inr rfl
  | wrreg a v =>
    simp only [exec, execWrreg]
    split
    · split
      · simp only [commandWrite]
        split <;> exact .inl ⟨_, rfl⟩
      · exact .inl ⟨_, rfl⟩
    · exact .inr rfl
  | busError dir a w => exact .inr rfl
  | txstep =>
    simp only [exec, execTxstep]
    split <;> exact .inl ⟨_, rfl⟩
  | _ => exact .inl ⟨_, rfl⟩

end Sys2Proof.Machine
end

