-- ==== Sys2Proof/Laws/Text.lean ====
section
/-! SUPPORT. The text form and its decoder agree: fields and sections (40_descriptor_parser R121 to R133, R139). -/

namespace Sys2Proof

/-- A well-formed field's text decodes to the field (R125 to R132). -/
theorem decodeField_fieldText (f : Field) (h : f.wellFormed = true) : decodeField (fieldText f) = .ok f := by
  have c1 := fun n => (decText_no_sep n).1
  cases f with
  | c c n =>
    have h' : n.toNat ≤ 64 := by simpa [Field.wellFormed] using h
    have : ∀ p ∈ [ccharText c, decText n.toNat], ',' ∉ p := by
      cases c <;> simp [ccharText, c1]
    simp [fieldText, decodeField, entriesText, splitOn_joinWith ',' _ (by simp) this, fieldOfC,
      decDataBits_decText h', bind, Except.bind]
  | h m s =>
    have : ∀ p ∈ [decText m.toNat, decText s.toNat], ',' ∉ p := by simp [c1]
    simp [fieldText, decodeField, entriesText, splitOn_joinWith ',' _ (by simp) this, fieldOfH, bind, Except.bind]
  | t es =>
    simp [Field.wellFormed] at h
    have h1 : ∀ p ∈ es.map fun e => decText e.toNat, ',' ∉ p := by simp [c1]
    have h2 : (es.map fun e => decText e.toNat) ≠ [] := by
      intro h3; simp at h3; subst h3; simp at h
    have h3 : ∀ es : List Word, optWords (es.map fun e => decText e.toNat) = .ok es := by
      intro es
      induction es with
      | nil => rfl
      | cons e es ih => simp [optWords, ih, bind, Except.bind]
    simp [fieldText, decodeField, entriesText, splitOn_joinWith ',' _ h2 h1, fieldOfT, h.2, h3, bind, Except.bind]
  | p p =>
    have : ∀ x ∈ [decText p.toNat], ',' ∉ x := by simp [c1]
    simp [fieldText, decodeField, entriesText, splitOn_joinWith ',' _ (by simp) this, fieldOfP, bind, Except.bind]
  | s m s =>
    have : ∀ p ∈ [decText m.toNat, decText s.toNat], ',' ∉ p := by simp [c1]
    simp [fieldText, decodeField, entriesText, splitOn_joinWith ',' _ (by simp) this, fieldOfS, bind, Except.bind]
  | e p =>
    have : ∀ x ∈ [decText p.toNat], ',' ∉ x := by simp [c1]
    simp [fieldText, decodeField, entriesText, splitOn_joinWith ',' _ (by simp) this, fieldOfE, bind, Except.bind]
  | g p =>
    have : ∀ x ∈ [decText p.toNat], ',' ∉ x := by simp [c1]
    simp [fieldText, decodeField, entriesText, splitOn_joinWith ',' _ (by simp) this, fieldOfG, bind, Except.bind]
  | r c n g m =>
    have : ∀ p ∈ [rcharText c, decText n.toNat, decText g.toNat, decText m.toNat], ',' ∉ p := by
      cases c <;> simp [rcharText, c1]
    simp [fieldText, decodeField, entriesText, splitOn_joinWith ',' _ (by simp) this, fieldOfR, bind, Except.bind]

/-- The characters of a field's text. -/
theorem mem_fieldText (f : Field) (c : Char) (h : c ∈ fieldText f) :
    c ∈ ['C','H','T','P','S','E','G','R','=',',','M','Q','F'] ∨ ∃ n, c ∈ decText n := by
  have key : ∀ (es : List (List Char)),
      (∀ e ∈ es, ∀ c ∈ e, c ∈ ['M','S','P','Q','R','E','F'] ∨ ∃ n, c ∈ decText n) →
      ∀ c ∈ entriesText es, c ∈ ['C','H','T','P','S','E','G','R','=',',','M','Q','F'] ∨ ∃ n, c ∈ decText n := by
    intro es h c hc
    rcases mem_joinWith hc with rfl | ⟨p, hp, hc⟩
    · simp
    · rcases h p hp c hc with h | h
      · left; revert h; simp; rintro (h|h|h|h|h|h|h) <;> simp [h]
      · exact .inr h
  cases f <;> simp only [fieldText, List.mem_cons] at h <;> rcases h with rfl | rfl | h <;> try simp <;> done
  all_goals
    refine key _ ?_ c h
    intro e he c hc
    simp only [List.mem_cons, List.mem_map, List.not_mem_nil, or_false] at he
  case c sch n => 
    rcases he with rfl | rfl
    · left; revert hc; cases sch <;> simp [ccharText] <;> rintro rfl <;> simp
    · exact .inr ⟨_, hc⟩
  case h => rcases he with rfl | rfl <;> exact .inr ⟨_, hc⟩
  case t => obtain ⟨w, -, rfl⟩ := he; exact .inr ⟨_, hc⟩
  case p => subst he;  exact .inr ⟨_, hc⟩
  case s => rcases he with rfl | rfl <;> exact .inr ⟨_, hc⟩
  case e => subst he;  exact .inr ⟨_, hc⟩
  case g => subst he;  exact .inr ⟨_, hc⟩
  case r rc _ _ _ =>
    rcases he with rfl | rfl | rfl | rfl
    · left; revert hc; cases rc <;> simp [rcharText] <;> rintro rfl <;> simp
    all_goals exact .inr ⟨_, hc⟩

/-- No separator of sections or fields stands in a field's text. -/
theorem fieldText_no_sep (f : Field) : ';' ∉ fieldText f ∧ '&' ∉ fieldText f := by
  constructor
  · intro h
    rcases mem_fieldText f _ h with h | ⟨n, h⟩
    · revert h; decide
    · exact (decText_no_sep n).2.1 h
  · intro h
    rcases mem_fieldText f _ h with h | ⟨n, h⟩
    · revert h; decide
    · exact (decText_no_sep n).2.2.1 h

theorem decodeFields_map_fieldText (fs : List Field) (h : fs.all Field.wellFormed = true) :
    decodeFields (fs.map fieldText) = .ok fs := by
  induction fs with
  | nil => rfl
  | cons f fs ih =>
    simp only [List.all_cons, Bool.and_eq_true] at h
    have hne : ∃ c cs, fieldText f = c :: cs := by cases f <;> exact ⟨_, _, rfl⟩
    obtain ⟨c, cs, hc⟩ := hne
    rw [List.map_cons, hc, decodeFields, ← hc, decodeField_fieldText f h.1]
    · simp [bind, Except.bind, ih h.2]
    · simp

/-- A well-formed section's text decodes to the section (R122). -/
theorem decodeSection_sectionSText (fs : List Field) (h : sectionWellFormed fs = true) :
    decodeSection (sectionSText fs) = .ok (.sectionS fs) := by
  simp only [sectionWellFormed, Bool.and_eq_true] at h
  have hne : fs ≠ [] := by rintro rfl; simp at h
  have h1 : ∀ p ∈ fs.map fieldText, ';' ∉ p := by simp [fieldText_no_sep]
  simp [sectionSText, decodeSection, decodeFieldList, splitOn_joinWith ';' _ (by simpa using hne) h1,
    decodeFields_map_fieldText fs h.1.1, bind, Except.bind, h.1.2]
  have := h.2
  simp at this
  rw [if_neg (by simpa using this)]

theorem decodeSection_sectionDText (v : Word64) : decodeSection (sectionDText v) = .ok (.sectionD v) := by
  simp [sectionDText, decodeSection, bind, Except.bind]

end Sys2Proof
end

