-- ==== Sys2Proof/Laws/Front.lean ====
section
/-! SUPPORT. The textual front-end: what reading a field and a whole `s=` section gives (40_descriptor_parser R122 to
R132, R137). -/

namespace Sys2Proof.Machine

/-- A field run as an operation of its own. -/
theorem exec_field (f : Field) (s : State) :
    exec (fieldInstr f) s = .next (s.onFront fun x => applyField x f) := by
  cases f <;> rfl

theorem distinctLetters_iff (fs : List Field) : distinctLetters fs = true ↔ (fs.map Field.letter).Nodup := by
  induction fs with
  | nil => simp [distinctLetters]
  | cons f fs ih => simp [distinctLetters, ih]

/-- Fields of different letters write different parts of the Descriptor. -/
theorem writeField_comm (a b : Field) (d : Descriptor) (h : a.letter ≠ b.letter) :
    writeField a (writeField b d) = writeField b (writeField a d) := by
  cases a <;> cases b <;> first | rfl | exact absurd rfl h

/-- Well-formed fields with distinct, unseen letters are all read. -/
theorem foldl_applyField (fs : List Field) (f : Front) (hm : f.malformed = false)
    (hw : fs.all Field.wellFormed = true) (hd : distinctLetters fs = true) (hs : ∀ x ∈ fs, x.letter ∉ f.seen) :
    fs.foldl applyField f = { f with
      seen := f.seen ++ fs.map Field.letter, desc := fs.foldl (fun d f => writeField f d) f.desc } := by
  induction fs generalizing f with
  | nil => simp
  | cons x fs ih =>
    simp only [List.all_cons, Bool.and_eq_true] at hw
    simp only [distinctLetters, Bool.and_eq_true] at hd
    have hx := hs x (by simp)
    have e : applyField f x = { f with desc := writeField x f.desc, seen := f.seen ++ [x.letter] } := by
      simp [applyField, hw.1, Front.take, hm, hx]
    rw [List.foldl_cons, e, ih _ (by exact hm) hw.2 hd.2]
    · simp
    · intro y hy
      simp only [List.mem_append, List.mem_singleton, not_or]
      refine ⟨hs y (by simp [hy]), fun h => ?_⟩
      have := hd.1
      simp at this
      exact this y hy h

/-- A well-formed `s=` section read first. -/
theorem applySectionS_first (fs : List Field) (f : Front) (hm : f.malformed = false)
    (hw : sectionWellFormed fs = true) (h1 : f.sSeen = false) (h2 : f.seen = []) :
    applySectionS fs f = { f with
      sSeen := true, seen := fs.map Field.letter, desc := fs.foldl (fun d f => writeField f d) f.desc } := by
  simp only [sectionWellFormed, Bool.and_eq_true] at hw
  have h := foldl_applyField fs { f with sSeen := true } hm hw.1.1 hw.1.2 (by simp [h2])
  have hc := hw.2
  simp only [applySectionS]
  rw [if_neg (by simp [hm]), if_neg (by simp [h1]), h, h2]
  simp only [List.nil_append, hc, if_true]

/-- A malformed request stays malformed. -/
theorem readSection_malformed (f : Front) (cs : List Char) (h : f.malformed = true) :
    (readSection f cs).malformed = true := by
  unfold readSection
  split <;> simp [applySectionS, applySectionD, h, Front.reject]

end Sys2Proof.Machine
end

