-- ==== Sys2Proof/Laws/Number.lean ====
section
/-! SUPPORT. The decoder reads a number as the value its digits spell, and rejects it where it does not fit
(30_encoding R105, 40_descriptor_parser R134, R135). -/

namespace Sys2Proof.Machine

/-! ### Digits -/

theorem decValue_of_digit : ∀ c ∈ digits10, decValue c = some (digit c) := by
  simp only [digits10, List.forall_mem_cons]
  exact ⟨rfl, rfl, rfl, rfl, rfl, rfl, rfl, rfl, rfl, rfl, by simp⟩

theorem hexValue_of_digit (c : Char) (h : c ∈ digits16 ∨ c ∈ digits16Upper) : hexValue c = some (digit c) := by
  have h1 : ∀ c ∈ digits16, hexValue c = some (digit c) := by
    simp only [digits16, digits10, List.cons_append, List.nil_append, List.forall_mem_cons]
    exact ⟨rfl, rfl, rfl, rfl, rfl, rfl, rfl, rfl, rfl, rfl, rfl, rfl, rfl, rfl, rfl, rfl, by simp⟩
  have h2 : ∀ c ∈ digits16Upper, hexValue c = some (digit c) := by
    simp only [digits16Upper, digits10, List.cons_append, List.nil_append, List.forall_mem_cons]
    exact ⟨rfl, rfl, rfl, rfl, rfl, rfl, rfl, rfl, rfl, rfl, rfl, rfl, rfl, rfl, rfl, rfl, by simp⟩
  exact h.elim (h1 c) (h2 c)

/-- Digits have the value they spell, continuing from any number. -/
theorem digitsValue_eq (b : Nat) (val : Char → Option Nat) (cs : List Char) (n : Nat)
    (h : ∀ c ∈ cs, val c = some (digit c)) :
    digitsValue b val n cs = some (cs.foldl (fun n c => b * n + digit c) n) := by
  induction cs generalizing n with
  | nil => rfl
  | cons c cs ih =>
    simp only [digitsValue, h c (by simp), List.foldl_cons]
    exact ih _ fun x hx => h x (by simp [hx])

theorem isDec_iff (cs : List Char) : isDec cs = true ↔ cs ≠ [] ∧ ∀ c ∈ cs, c ∈ digits10 := by
  simp [isDec]

theorem isHex_iff (cs : List Char) :
    isHex cs = true ↔ cs ≠ [] ∧ ∀ c ∈ cs, c ∈ digits16 ∨ c ∈ digits16Upper := by
  simp [isHex]

/-- No comma and no `x` stands in a decimal number. -/
theorem isDec_no_sep {cs : List Char} (h : isDec cs = true) : ',' ∉ cs ∧ 'x' ∉ cs := by
  have h' := ((isDec_iff cs).1 h).2
  exact ⟨fun hc => absurd (h' _ hc) (by decide), fun hc => absurd (h' _ hc) (by decide)⟩

theorem isHex_no_comma {cs : List Char} (h : isHex cs = true) : ',' ∉ cs := by
  have h' := ((isHex_iff cs).1 h).2
  exact fun hc => absurd (h' _ hc) (by decide)

/-! ### Entries -/

@[simp] theorem decNat_isDec {cs : List Char} (h : isDec cs = true) : decNat cs = .ok (spelled 10 cs) := by
  have h' := (isDec_iff cs).1 h
  have hv := digitsValue_eq 10 decValue cs 0 fun c hc => decValue_of_digit c (h'.2 c hc)
  unfold decNat
  split
  · exact absurd rfl h'.1
  · rw [hv]; rfl

@[simp] theorem hexNat_isHex {cs : List Char} (h : isHex cs = true) : hexNat cs = .ok (spelled 16 cs) := by
  have h' := (isHex_iff cs).1 h
  have hv := digitsValue_eq 16 hexValue cs 0 fun c hc => hexValue_of_digit c (h'.2 c hc)
  unfold hexNat
  split
  · exact absurd rfl h'.1
  · rw [hv]; rfl

@[simp] theorem decWord_isDec {cs : List Char} (h : isDec cs = true) :
    decWord cs = if spelled 10 cs < 2 ^ 32 then .ok (BitVec.ofNat 32 (spelled 10 cs)) else .error .range := by
  simp only [decWord, decNat_isDec h]
  rfl

@[simp] theorem decDataBits_isDec {cs : List Char} (h : isDec cs = true) :
    decDataBits cs = if spelled 10 cs ≤ 64 then .ok (BitVec.ofNat 7 (spelled 10 cs)) else .error .range := by
  simp only [decDataBits, decNat_isDec h]
  rfl

/-- An entry of T= that is empty or a decimal number (R127). -/
theorem optWord_isDec {cs : List Char} (h : cs = [] ∨ isDec cs = true) :
    optWord cs = if spelled 10 cs < 2 ^ 32 then .ok (BitVec.ofNat 32 (spelled 10 cs)) else .error .range := by
  rcases h with rfl | h
  · rfl
  · have hne : cs.isEmpty = false := by simpa using ((isDec_iff cs).1 h).1
    simp only [optWord, hne, decWord_isDec h]
    rfl

/-- The entries of T= are read one by one, and one entry out of range rejects them all (R127, R134). -/
theorem optWords_spelled (es : List (List Char)) (h : ∀ e ∈ es, e = [] ∨ isDec e = true) :
    optWords es = if ∀ e ∈ es, spelled 10 e < 2 ^ 32 then .ok (es.map fun e => BitVec.ofNat 32 (spelled 10 e))
      else .error .range := by
  induction es with
  | nil => rfl
  | cons e es ih =>
    have h2 := ih fun x hx => h x (by simp [hx])
    simp only [optWords, optWord_isDec (h e (by simp)), h2]
    by_cases h3 : spelled 10 e < 2 ^ 32
    · by_cases h4 : ∀ x ∈ es, spelled 10 x < 2 ^ 32
      · have h5 : ∀ x ∈ e :: es, spelled 10 x < 2 ^ 32 := by simpa using ⟨h3, h4⟩
        rw [if_pos h3, if_pos h4, if_pos h5]; rfl
      · have h5 : ¬∀ x ∈ e :: es, spelled 10 x < 2 ^ 32 := fun h => h4 fun x hx => h x (by simp [hx])
        rw [if_pos h3, if_neg h4, if_neg h5]; rfl
    · have h5 : ¬∀ x ∈ e :: es, spelled 10 x < 2 ^ 32 := fun h => h3 (h e (by simp))
      rw [if_neg h3, if_neg h5]; rfl

/-- A `num64`, decimal or hexadecimal (R135). -/
theorem num64_spells {cs : List Char} {n : Nat} (h : spellsNum64 cs n) :
    num64 cs = if n < 2 ^ 64 then .ok (BitVec.ofNat 64 n) else .error .range := by
  rcases h with ⟨h, rfl⟩ | ⟨hs, rfl, h, rfl⟩
  · unfold num64
    split
    · exact absurd (by simp) (isDec_no_sep h).2
    · rw [decNat_isDec h]; rfl
  · simp only [num64, hexNat_isHex h]
    rfl

theorem spellsNum64_no_comma {cs : List Char} {n : Nat} (h : spellsNum64 cs n) : ',' ∉ cs := by
  rcases h with ⟨h, -⟩ | ⟨hs, rfl, h, -⟩
  · exact (isDec_no_sep h).1
  · have := isHex_no_comma h
    simp [this]

end Sys2Proof.Machine
end

