-- ==== Sys2Proof/Laws/Grammar.lean ====
section
/-! SUPPORT. The decoder and the parser accept exactly the grammar of 40_descriptor_parser R121 to R137 (`isField`,
`isSectionS`, `isSectionD`, `isRequest` of Safety.lean). -/

namespace Sys2Proof.Machine

/-! ### Bind, splitting -/

/-- What a chain of checks that ends in a value went through. -/
theorem bind_eq_ok {ε α β : Type} (x : Except ε α) (k : α → Except ε β) (b : β) :
    (x >>= k) = .ok b ↔ ∃ a, x = .ok a ∧ k a = .ok b := by
  cases x <;> simp [bind, Except.bind]

/-- Joining undoes splitting. -/
theorem joinWith_splitOn (sep : Char) (cs : List Char) : joinWith sep (splitOn sep cs) = cs := by
  induction cs with
  | nil => rfl
  | cons c cs ih =>
    simp only [splitOn]
    split
    · next h =>
      subst h
      cases hs : splitOn c cs with
      | nil => exact absurd hs (splitOn_ne_nil _ _)
      | cons p ps => rw [hs] at ih; simp [joinWith, ih]
    · cases hs : splitOn sep cs with
      | nil => exact absurd hs (splitOn_ne_nil _ _)
      | cons p ps => rw [hs] at ih; cases ps <;> simp_all [joinWith]

/-- A piece has no separator in it. -/
theorem not_mem_of_mem_splitOn {sep : Char} {cs p : List Char} (h : p ∈ splitOn sep cs) : sep ∉ p := by
  induction cs generalizing p with
  | nil => simp [splitOn] at h; simp [h]
  | cons c cs ih =>
    simp only [splitOn] at h
    split at h
    · rcases List.mem_cons.1 h with rfl | h
      · simp
      · exact ih h
    · next hc =>
      cases hs : splitOn sep cs with
      | nil => exact absurd hs (splitOn_ne_nil _ _)
      | cons q ps =>
        rw [hs] at h ih
        rcases List.mem_cons.1 h with rfl | h
        · simp [Ne.symm hc, ih (List.mem_cons_self ..)]
        · exact ih (by simp [h])

/-- The pieces of a text are those that join to it and have no separator. -/
theorem splitOn_eq_iff (sep : Char) (cs : List Char) (ps : List (List Char)) (hne : ps ≠ []) :
    splitOn sep cs = ps ↔ cs = joinWith sep ps ∧ ∀ p ∈ ps, sep ∉ p := by
  constructor
  · rintro rfl
    exact ⟨(joinWith_splitOn _ _).symm, fun p hp => not_mem_of_mem_splitOn hp⟩
  · rintro ⟨rfl, h⟩
    exact splitOn_joinWith sep ps hne h

/-! ### Entries -/

theorem mem_digits10_of_decValue {c : Char} {d : Nat} (h : decValue c = some d) : c ∈ digits10 := by
  unfold decValue at h
  split at h
  · next hc =>
    have e := c.ofNat_toNat
    generalize c.toNat = n at hc e
    obtain ⟨h1, h2⟩ := hc
    subst e
    interval_cases n <;> decide
  · cases h

theorem mem_digits16_of_hexValue {c : Char} {d : Nat} (h : hexValue c = some d) :
    c ∈ digits16 ∨ c ∈ digits16Upper := by
  unfold hexValue at h
  have e := c.ofNat_toNat
  generalize c.toNat = n at h e
  subst e
  split at h
  · next hc =>
    obtain ⟨h1, h2⟩ := hc
    interval_cases n <;> decide
  · split at h
    · next hc =>
      obtain ⟨h1, h2⟩ := hc
      interval_cases n <;> decide
    · split at h
      · next hc =>
        obtain ⟨h1, h2⟩ := hc
        interval_cases n <;> decide
      · cases h

/-- A number is read only from digits. -/
theorem digitsValue_some {b : Nat} {val : Char → Option Nat} {cs : List Char} {n m : Nat}
    (h : digitsValue b val n cs = some m) : ∀ c ∈ cs, ∃ d, val c = some d := by
  induction cs generalizing n with
  | nil => simp
  | cons c cs ih =>
    simp only [digitsValue] at h
    split at h
    · next d hd =>
      intro x hx
      rcases List.mem_cons.1 hx with rfl | hx
      · exact ⟨d, hd⟩
      · exact ih h x hx
    · cases h

theorem isDec_of_decNat {cs : List Char} {n : Nat} (h : decNat cs = .ok n) : isDec cs = true := by
  unfold decNat at h
  split at h
  · cases h
  · next hne =>
    split at h
    · next hv =>
      exact (isDec_iff cs).2 ⟨hne, fun c hc =>
        let ⟨_, hd⟩ := digitsValue_some hv c hc
        mem_digits10_of_decValue hd⟩
    · cases h

theorem isHex_of_hexNat {cs : List Char} {n : Nat} (h : hexNat cs = .ok n) : isHex cs = true := by
  unfold hexNat at h
  split at h
  · cases h
  · next hne =>
    split at h
    · next hv =>
      exact (isHex_iff cs).2 ⟨hne, fun c hc =>
        let ⟨_, hd⟩ := digitsValue_some hv c hc
        mem_digits16_of_hexValue hd⟩
    · cases h

/-- A duration or a repeat count is read from exactly the texts of `isWord` (R134). -/
theorem decWord_ok_iff (cs : List Char) : (∃ w, decWord cs = .ok w) ↔ isWord cs := by
  constructor
  · rintro ⟨w, h⟩
    have hd : isDec cs = true := by
      obtain ⟨n, hn, -⟩ := (bind_eq_ok _ _ _).1 h
      exact isDec_of_decNat hn
    refine ⟨hd, ?_⟩
    rw [decWord_isDec hd] at h
    split at h
    · assumption
    · cases h
  · rintro ⟨hd, hr⟩
    exact ⟨_, by rw [decWord_isDec hd, if_pos hr]⟩

theorem decDataBits_ok_iff (cs : List Char) :
    (∃ w, decDataBits cs = .ok w) ↔ isDec cs = true ∧ spelled 10 cs ≤ 64 := by
  constructor
  · rintro ⟨w, h⟩
    have hd : isDec cs = true := by
      obtain ⟨n, hn, -⟩ := (bind_eq_ok _ _ _).1 h
      exact isDec_of_decNat hn
    refine ⟨hd, ?_⟩
    rw [decDataBits_isDec hd] at h
    split at h
    · assumption
    · cases h
  · rintro ⟨hd, hr⟩
    exact ⟨_, by rw [decDataBits_isDec hd, if_pos hr]⟩

theorem spellsNum64_of_num64 {cs : List Char} {v : Word64} (h : num64 cs = .ok v) : ∃ n, spellsNum64 cs n := by
  unfold num64 at h
  split at h
  · next hs =>
    obtain ⟨n, hn, -⟩ := (bind_eq_ok _ _ _).1 h
    exact ⟨_, .inr ⟨hs, rfl, isHex_of_hexNat hn, rfl⟩⟩
  · obtain ⟨n, hn, -⟩ := (bind_eq_ok _ _ _).1 h
    exact ⟨_, .inl ⟨isDec_of_decNat hn, rfl⟩⟩

/-- A `num64` is read from exactly the texts of `isNum64` (R135). -/
theorem num64_ok_iff (cs : List Char) : (∃ v, num64 cs = .ok v) ↔ isNum64 cs := by
  constructor
  · rintro ⟨v, h⟩
    obtain ⟨n, hn⟩ := spellsNum64_of_num64 h
    refine ⟨n, hn, ?_⟩
    rw [num64_spells hn] at h
    split at h
    · assumption
    · cases h
  · rintro ⟨n, hn, hr⟩
    exact ⟨_, by rw [num64_spells hn, if_pos hr]⟩

theorem optWord_ok_iff (cs : List Char) : (∃ w, optWord cs = .ok w) ↔ cs = [] ∨ isWord cs := by
  cases cs with
  | nil => simp [optWord]
  | cons c cs => simp [optWord, ← decWord_ok_iff]

theorem optWords_ok_iff (es : List (List Char)) :
    (∃ ws, optWords es = .ok ws) ↔ ∀ e ∈ es, e = [] ∨ isWord e := by
  induction es with
  | nil => simp [optWords]
  | cons e es ih =>
    rw [List.forall_mem_cons, ← ih, ← optWord_ok_iff]
    constructor
    · rintro ⟨ws, h⟩
      obtain ⟨w, hw, h⟩ := (bind_eq_ok _ _ _).1 h
      obtain ⟨vs, hv, -⟩ := (bind_eq_ok _ _ _).1 h
      exact ⟨⟨w, hw⟩, vs, hv⟩
    · rintro ⟨⟨w, hw⟩, vs, hv⟩
      exact ⟨w :: vs, by simp [optWords, hw, hv, bind, Except.bind]⟩

theorem cchar_ok_iff (cs : List Char) : (∃ c, cchar cs = .ok c) ↔ ∃ c ∈ ['M', 'S', 'P', 'Q'], cs = [c] := by
  unfold cchar
  constructor
  · rintro ⟨c, h⟩
    repeat' split at h
    all_goals first | (cases h; done) | (subst_vars; simp)
  · rintro ⟨c, hc, rfl⟩
    simp only [List.mem_cons, List.not_mem_nil, or_false] at hc
    rcases hc with rfl | rfl | rfl | rfl <;> exact ⟨_, rfl⟩

theorem rchar_ok_iff (cs : List Char) : (∃ c, rchar cs = .ok c) ↔ ∃ c ∈ ['R', 'E', 'F'], cs = [c] := by
  unfold rchar
  constructor
  · rintro ⟨c, h⟩
    repeat' split at h
    all_goals first | (cases h; done) | (subst_vars; simp)
  · rintro ⟨c, hc, rfl⟩
    simp only [List.mem_cons, List.not_mem_nil, or_false] at hc
    rcases hc with rfl | rfl | rfl <;> exact ⟨_, rfl⟩

/-! ### Fields -/

theorem splitOn_two {v a b : List Char} : splitOn ',' v = [a, b] ↔ v = a ++ ',' :: b ∧ ',' ∉ a ∧ ',' ∉ b := by
  rw [splitOn_eq_iff _ _ _ (by simp)]; simp [joinWith]

theorem splitOn_one {v a : List Char} : splitOn ',' v = [a] ↔ v = a ∧ ',' ∉ a := by
  rw [splitOn_eq_iff _ _ _ (by simp)]; simp [joinWith]

theorem splitOn_four {v a b c d : List Char} : splitOn ',' v = [a, b, c, d] ↔
    v = a ++ ',' :: (b ++ ',' :: (c ++ ',' :: d)) ∧ ',' ∉ a ∧ ',' ∉ b ∧ ',' ∉ c ∧ ',' ∉ d := by
  rw [splitOn_eq_iff _ _ _ (by simp)]; simp [joinWith]

theorem isWord_no_comma {cs : List Char} (h : isWord cs) : ',' ∉ cs :=
  (isDec_no_sep h.1).1

theorem isNum64_no_comma {cs : List Char} (h : isNum64 cs) : ',' ∉ cs :=
  let ⟨_, hn, _⟩ := h
  spellsNum64_no_comma hn

/-- What an accepted list of entries is, letter by letter. -/
theorem fieldOfC_ok (es : List (List Char)) (f : Field) :
    fieldOfC es = .ok f ↔ ∃ c n x y, es = [c, n] ∧ cchar c = .ok x ∧ decDataBits n = .ok y ∧ f = .c x y := by
  unfold fieldOfC
  split
  · simp only [bind_eq_ok]; aesop
  · next h => simp; rintro c n rfl; exact absurd rfl (h c n)

theorem fieldOfH_ok (es : List (List Char)) (f : Field) :
    fieldOfH es = .ok f ↔ ∃ a b x y, es = [a, b] ∧ decWord a = .ok x ∧ decWord b = .ok y ∧ f = .h x y := by
  unfold fieldOfH
  split
  · simp only [bind_eq_ok]; aesop
  · next h => simp; rintro c n rfl; exact absurd rfl (h c n)

theorem fieldOfT_ok (es : List (List Char)) (f : Field) :
    fieldOfT es = .ok f ↔ ∃ ws, es.length ≤ 5 ∧ optWords es = .ok ws ∧ f = .t ws := by
  unfold fieldOfT
  split
  · simp only [bind_eq_ok]; aesop
  · next h => simp; intro ws h'; omega

theorem fieldOfP_ok (es : List (List Char)) (f : Field) :
    fieldOfP es = .ok f ↔ ∃ a x, es = [a] ∧ decWord a = .ok x ∧ f = .p x := by
  unfold fieldOfP
  split
  · simp only [bind_eq_ok]; aesop
  · next h => simp; rintro a rfl; exact absurd rfl (h a)

theorem fieldOfS_ok (es : List (List Char)) (f : Field) :
    fieldOfS es = .ok f ↔ ∃ a b x y, es = [a, b] ∧ decWord a = .ok x ∧ decWord b = .ok y ∧ f = .s x y := by
  unfold fieldOfS
  split
  · simp only [bind_eq_ok]; aesop
  · next h => simp; rintro c n rfl; exact absurd rfl (h c n)

theorem fieldOfE_ok (es : List (List Char)) (f : Field) :
    fieldOfE es = .ok f ↔ ∃ a x, es = [a] ∧ decWord a = .ok x ∧ f = .e x := by
  unfold fieldOfE
  split
  · simp only [bind_eq_ok]; aesop
  · next h => simp; rintro a rfl; exact absurd rfl (h a)

theorem fieldOfG_ok (es : List (List Char)) (f : Field) :
    fieldOfG es = .ok f ↔ ∃ a x, es = [a] ∧ decWord a = .ok x ∧ f = .g x := by
  unfold fieldOfG
  split
  · simp only [bind_eq_ok]; aesop
  · next h => simp; rintro a rfl; exact absurd rfl (h a)

theorem fieldOfR_ok (es : List (List Char)) (f : Field) :
    fieldOfR es = .ok f ↔ ∃ c a b m x y z w, es = [c, a, b, m] ∧ rchar c = .ok x ∧ decWord a = .ok y ∧
      decWord b = .ok z ∧ num64 m = .ok w ∧ f = .r x y z w := by
  unfold fieldOfR
  split
  · simp only [bind_eq_ok]; aesop
  · next h => simp; rintro c a b m rfl; exact absurd rfl (h c a b m)

/-- The field of a letter is read from exactly the texts of `isField`: from no other letter, number of entries or
entry (R123, R125 to R132). -/
theorem isField_of_decodeField {cs : List Char} {f : Field} (h : decodeField cs = .ok f) : isField f.letter cs := by
  unfold decodeField at h
  split at h
  · obtain ⟨c, n, x, y, he, hc, hn, rfl⟩ := (fieldOfC_ok _ _).1 h
    obtain ⟨rfl, -⟩ := splitOn_two.1 he
    obtain ⟨c, hc', rfl⟩ := (cchar_ok_iff _).1 ⟨_, hc⟩
    exact ⟨c, hc', n, rfl, (decDataBits_ok_iff n).1 ⟨_, hn⟩⟩
  · obtain ⟨a, b, x, y, he, ha, hb, rfl⟩ := (fieldOfH_ok _ _).1 h
    obtain ⟨rfl, -⟩ := splitOn_two.1 he
    exact ⟨a, b, by simp, (decWord_ok_iff a).1 ⟨_, ha⟩, (decWord_ok_iff b).1 ⟨_, hb⟩⟩
  · next v =>
    obtain ⟨ws, hl, hw, rfl⟩ := (fieldOfT_ok _ _).1 h
    exact ⟨splitOn ',' v, by simp [joinWith_splitOn], List.length_pos_iff.2 (splitOn_ne_nil _ _), hl,
      (optWords_ok_iff _).1 ⟨_, hw⟩⟩
  · obtain ⟨a, x, he, ha, rfl⟩ := (fieldOfP_ok _ _).1 h
    obtain ⟨rfl, -⟩ := splitOn_one.1 he
    exact ⟨_, rfl, (decWord_ok_iff _).1 ⟨_, ha⟩⟩
  · obtain ⟨a, b, x, y, he, ha, hb, rfl⟩ := (fieldOfS_ok _ _).1 h
    obtain ⟨rfl, -⟩ := splitOn_two.1 he
    exact ⟨a, b, by simp, (decWord_ok_iff a).1 ⟨_, ha⟩, (decWord_ok_iff b).1 ⟨_, hb⟩⟩
  · obtain ⟨a, x, he, ha, rfl⟩ := (fieldOfE_ok _ _).1 h
    obtain ⟨rfl, -⟩ := splitOn_one.1 he
    exact ⟨_, rfl, (decWord_ok_iff _).1 ⟨_, ha⟩⟩
  · obtain ⟨a, x, he, ha, rfl⟩ := (fieldOfG_ok _ _).1 h
    obtain ⟨rfl, -⟩ := splitOn_one.1 he
    exact ⟨_, rfl, (decWord_ok_iff _).1 ⟨_, ha⟩⟩
  · obtain ⟨c, a, b, m, x, y, z, w, he, hc, ha, hb, hm, rfl⟩ := (fieldOfR_ok _ _).1 h
    obtain ⟨rfl, -⟩ := splitOn_four.1 he
    obtain ⟨c, hc', rfl⟩ := (rchar_ok_iff _).1 ⟨_, hc⟩
    exact ⟨c, hc', a, b, m, by simp, (decWord_ok_iff a).1 ⟨_, ha⟩, (decWord_ok_iff b).1 ⟨_, hb⟩,
      (num64_ok_iff m).1 ⟨_, hm⟩⟩
  · cases h

theorem decodeField_of_isField {l : FieldLetter} {cs : List Char} (h : isField l cs) :
    ∃ f, decodeField cs = .ok f ∧ f.letter = l := by
  cases l with
  | C =>
    obtain ⟨c, hc, n, rfl, hn⟩ := h
    obtain ⟨y, hy⟩ := (decDataBits_ok_iff n).2 hn
    obtain ⟨x, hx⟩ := (cchar_ok_iff [c]).2 ⟨c, hc, rfl⟩
    have h1 : ',' ∉ [c] := by
      simp only [List.mem_cons, List.not_mem_nil, or_false] at hc
      rcases hc with rfl | rfl | rfl | rfl <;> decide
    exact ⟨_, (fieldOfC_ok _ _).2 ⟨[c], n, x, y, splitOn_two.2 ⟨rfl, h1, (isDec_no_sep hn.1).1⟩, hx, hy, rfl⟩, rfl⟩
  | H =>
    obtain ⟨a, b, rfl, ha, hb⟩ := h
    obtain ⟨x, hx⟩ := (decWord_ok_iff a).2 ha
    obtain ⟨y, hy⟩ := (decWord_ok_iff b).2 hb
    exact ⟨_, (fieldOfH_ok _ _).2 ⟨a, b, x, y, splitOn_two.2 ⟨by simp, isWord_no_comma ha, isWord_no_comma hb⟩,
      hx, hy, rfl⟩, rfl⟩
  | T =>
    obtain ⟨es, rfl, h1, h2, h3⟩ := h
    obtain ⟨ws, hw⟩ := (optWords_ok_iff es).2 h3
    have hs : splitOn ',' (joinWith ',' es) = es := splitOn_joinWith ',' es (by rintro rfl; simp at h1) fun e he => by
      rcases h3 e he with rfl | h
      · simp
      · exact isWord_no_comma h
    exact ⟨_, (fieldOfT_ok _ _).2 ⟨ws, hs.symm ▸ h2, hs.symm ▸ hw, rfl⟩, rfl⟩
  | P =>
    obtain ⟨a, rfl, ha⟩ := h
    obtain ⟨x, hx⟩ := (decWord_ok_iff a).2 ha
    exact ⟨_, (fieldOfP_ok _ _).2 ⟨a, x, splitOn_one.2 ⟨rfl, isWord_no_comma ha⟩, hx, rfl⟩, rfl⟩
  | S =>
    obtain ⟨a, b, rfl, ha, hb⟩ := h
    obtain ⟨x, hx⟩ := (decWord_ok_iff a).2 ha
    obtain ⟨y, hy⟩ := (decWord_ok_iff b).2 hb
    exact ⟨_, (fieldOfS_ok _ _).2 ⟨a, b, x, y, splitOn_two.2 ⟨by simp, isWord_no_comma ha, isWord_no_comma hb⟩,
      hx, hy, rfl⟩, rfl⟩
  | E =>
    obtain ⟨a, rfl, ha⟩ := h
    obtain ⟨x, hx⟩ := (decWord_ok_iff a).2 ha
    exact ⟨_, (fieldOfE_ok _ _).2 ⟨a, x, splitOn_one.2 ⟨rfl, isWord_no_comma ha⟩, hx, rfl⟩, rfl⟩
  | G =>
    obtain ⟨a, rfl, ha⟩ := h
    obtain ⟨x, hx⟩ := (decWord_ok_iff a).2 ha
    exact ⟨_, (fieldOfG_ok _ _).2 ⟨a, x, splitOn_one.2 ⟨rfl, isWord_no_comma ha⟩, hx, rfl⟩, rfl⟩
  | R =>
    obtain ⟨c, hc, a, b, m, rfl, ha, hb, hm⟩ := h
    obtain ⟨x, hx⟩ := (rchar_ok_iff [c]).2 ⟨c, hc, rfl⟩
    obtain ⟨y, hy⟩ := (decWord_ok_iff a).2 ha
    obtain ⟨z, hz⟩ := (decWord_ok_iff b).2 hb
    obtain ⟨w, hw⟩ := (num64_ok_iff m).2 hm
    have h1 : ',' ∉ [c] := by
      simp only [List.mem_cons, List.not_mem_nil, or_false] at hc
      rcases hc with rfl | rfl | rfl <;> decide
    exact ⟨_, (fieldOfR_ok _ _).2 ⟨[c], a, b, m, x, y, z, w, splitOn_four.2
      ⟨by simp, h1, isWord_no_comma ha, isWord_no_comma hb, isNum64_no_comma hm⟩, hx, hy, hz, hw, rfl⟩, rfl⟩

/-- An item is the field of a letter exactly where the grammar says so. -/
theorem decodeField_ok_iff (l : FieldLetter) (cs : List Char) :
    (∃ f, decodeField cs = .ok f ∧ f.letter = l) ↔ isField l cs :=
  ⟨fun ⟨_, h, hl⟩ => hl ▸ isField_of_decodeField h, decodeField_of_isField⟩

/-! ### Sections -/

theorem isDec_chars {cs : List Char} (h : isDec cs = true) : ';' ∉ cs ∧ '&' ∉ cs := by
  have h' := ((isDec_iff cs).1 h).2
  exact ⟨fun hc => absurd (h' _ hc) (by decide), fun hc => absurd (h' _ hc) (by decide)⟩

theorem isNum64_chars {cs : List Char} (h : isNum64 cs) : ';' ∉ cs ∧ '&' ∉ cs := by
  obtain ⟨n, ⟨hd, -⟩ | ⟨hs, rfl, hh, -⟩, -⟩ := h
  · exact isDec_chars hd
  · have h' := ((isHex_iff hs).1 hh).2
    have h1 : ';' ∉ hs := fun hc => absurd (h' _ hc) (by decide)
    have h2 : '&' ∉ hs := fun hc => absurd (h' _ hc) (by decide)
    simp [h1, h2]

/-- No separator of items or of sections stands in a field. -/
theorem isField_chars {l : FieldLetter} {cs : List Char} (h : isField l cs) : ';' ∉ cs ∧ '&' ∉ cs := by
  cases l with
  | C =>
    obtain ⟨c, hc, n, rfl, hn, -⟩ := h
    have := isDec_chars hn
    simp only [List.mem_cons, List.not_mem_nil, or_false] at hc
    rcases hc with rfl | rfl | rfl | rfl <;> simp [this]
  | H | S =>
    obtain ⟨a, b, rfl, ha, hb⟩ := h
    simp [isDec_chars ha.1, isDec_chars hb.1]
  | T =>
    obtain ⟨es, rfl, -, -, h⟩ := h
    have key : ∀ e ∈ es, ';' ∉ e ∧ '&' ∉ e := fun e he => by
      rcases h e he with rfl | h
      · simp
      · exact isDec_chars h.1
    constructor <;> intro hc <;> simp only [List.cons_append, List.nil_append, List.mem_cons] at hc <;>
      rcases hc with hc | hc | hc <;> try (revert hc; decide)
    · rcases mem_joinWith hc with hc | ⟨e, he, hc⟩
      · revert hc; decide
      · exact (key e he).1 hc
    · rcases mem_joinWith hc with hc | ⟨e, he, hc⟩
      · revert hc; decide
      · exact (key e he).2 hc
  | P | E | G =>
    obtain ⟨a, rfl, ha⟩ := h
    simp [isDec_chars ha.1]
  | R =>
    obtain ⟨c, hc, a, b, m, rfl, ha, hb, hm⟩ := h
    simp only [List.mem_cons, List.not_mem_nil, or_false] at hc
    rcases hc with rfl | rfl | rfl <;> simp [isDec_chars ha.1, isDec_chars hb.1, isNum64_chars hm]

/-- The items of a section are read in order, the empty ones skipped (R122). -/
theorem decodeFields_ok (items : List (List Char)) (fs : List Field) :
    decodeFields items = .ok fs ↔
      List.Forall₂ (fun f x => decodeField x = .ok f) fs (items.filter fun x => !x.isEmpty) := by
  induction items generalizing fs with
  | nil => simp [decodeFields, eq_comm]
  | cons x items ih =>
    cases x with
    | nil => simpa [decodeFields] using ih fs
    | cons c x =>
      simp only [decodeFields, bind_eq_ok, ih]
      simp only [List.isEmpty_cons, Bool.not_false, List.filter_cons_of_pos]
      constructor
      · rintro ⟨f, hf, gs, hg, h⟩
        cases h
        exact .cons hf hg
      · intro h
        cases h with
        | cons hf hg => exact ⟨_, hf, _, hg, rfl⟩

theorem decodeFieldList_ok (v : List Char) (fs : List Field) : decodeFieldList v = .ok fs ↔
    decodeFields (splitOn ';' v) = .ok fs ∧ distinctLetters fs = true ∧ (fs.map Field.letter).contains .C = true := by
  unfold decodeFieldList
  rw [bind_eq_ok]
  constructor
  · rintro ⟨gs, hg, h⟩
    split at h
    · cases h
    · split at h
      · cases h
      · cases h; simp_all
  · rintro ⟨h, h1, h2⟩
    exact ⟨fs, h, by simp only [h1, h2, Bool.not_true, Bool.false_eq_true, if_false]⟩

theorem decodeSection_s (v : List Char) (i : Instr) : decodeSection (['s', '='] ++ v) = .ok i ↔
    ∃ fs, decodeFieldList v = .ok fs ∧ i = .sectionS fs := by
  simp only [List.cons_append, List.nil_append, decodeSection, bind_eq_ok, Except.ok.injEq]
  simp only [eq_comm]

theorem decodeSection_d (v : List Char) (i : Instr) : decodeSection (['d', '='] ++ v) = .ok i ↔
    ∃ w, num64 v = .ok w ∧ i = .sectionD w := by
  simp only [List.cons_append, List.nil_append, decodeSection, bind_eq_ok, Except.ok.injEq]
  simp only [eq_comm]

/-- A section is one of the two kinds (R121). -/
theorem decodeSection_head {cs : List Char} {i : Instr} (h : decodeSection cs = .ok i) :
    (∃ v, cs = ['s', '='] ++ v) ∨ ∃ v, cs = ['d', '='] ++ v := by
  unfold decodeSection at h
  split at h
  · exact .inl ⟨_, rfl⟩
  · exact .inr ⟨_, rfl⟩
  · cases h

/-- An `s=` section is read from exactly the texts of `isSectionS` (R122, R124, R137). -/
theorem decodeSectionS_ok_iff (cs : List Char) : (∃ fs, decodeSection cs = .ok (.sectionS fs)) ↔ isSectionS cs := by
  constructor
  · rintro ⟨fs, h⟩
    rcases decodeSection_head h with ⟨v, rfl⟩ | ⟨v, rfl⟩
    · obtain ⟨gs, h, he⟩ := (decodeSection_s _ _).1 h
      cases he
      obtain ⟨h1, h2, h3⟩ := (decodeFieldList_ok _ _).1 h
      refine ⟨splitOn ';' v, fs.map Field.letter, by rw [joinWith_splitOn], (distinctLetters_iff fs).1 h2,
        by simpa using h3, ?_⟩
      rw [List.forall₂_map_left_iff]
      exact ((decodeFields_ok _ _).1 h1).imp fun f x hx => isField_of_decodeField hx
    · obtain ⟨w, -, he⟩ := (decodeSection_d _ _).1 h
      cases he
  · rintro ⟨items, ls, rfl, hn, hc, hf⟩
    have hne : items ≠ [] := by
      rintro rfl
      cases hf
      cases hc
    have hs : splitOn ';' (joinWith ';' items) = items := by
      refine splitOn_joinWith ';' items hne fun x hx => ?_
      cases x with
      | nil => simp
      | cons c x =>
        have hx' : c :: x ∈ items.filter fun x => !x.isEmpty := List.mem_filter.2 ⟨hx, rfl⟩
        have key : ∀ (ls : List FieldLetter) (xs : List (List Char)), List.Forall₂ isField ls xs →
            ∀ x ∈ xs, ∃ l, isField l x := by
          intro ls xs h
          induction h with
          | nil => simp
          | cons h _ ih => exact List.forall_mem_cons.2 ⟨⟨_, h⟩, ih⟩
        obtain ⟨l, hl⟩ := key _ _ hf _ hx'
        exact (isField_chars hl).1
    have key : ∀ (ls : List FieldLetter) (xs : List (List Char)), List.Forall₂ isField ls xs →
        ∃ fs, fs.map Field.letter = ls ∧ List.Forall₂ (fun f x => decodeField x = .ok f) fs xs := by
      intro ls xs h
      induction h with
      | nil => exact ⟨[], rfl, .nil⟩
      | cons h _ ih =>
        obtain ⟨fs, rfl, hfs⟩ := ih
        obtain ⟨f, hf, rfl⟩ := decodeField_of_isField h
        exact ⟨f :: fs, rfl, .cons hf hfs⟩
    obtain ⟨fs, rfl, hfs⟩ := key _ _ hf
    refine ⟨fs, (decodeSection_s _ _).2 ⟨fs, (decodeFieldList_ok _ _).2 ⟨?_, (distinctLetters_iff fs).2 hn,
      by simpa using hc⟩, rfl⟩⟩
    rw [hs]
    exact (decodeFields_ok _ _).2 hfs

/-- A `d=` section is read from exactly the texts of `isSectionD` (R133). -/
theorem decodeSectionD_ok_iff (cs : List Char) : (∃ v, decodeSection cs = .ok (.sectionD v)) ↔ isSectionD cs := by
  constructor
  · rintro ⟨w, h⟩
    rcases decodeSection_head h with ⟨v, rfl⟩ | ⟨v, rfl⟩
    · obtain ⟨gs, -, he⟩ := (decodeSection_s _ _).1 h
      cases he
    · obtain ⟨x, hx, he⟩ := (decodeSection_d _ _).1 h
      exact ⟨v, rfl, (num64_ok_iff v).1 ⟨x, hx⟩⟩
  · rintro ⟨m, rfl, hm⟩
    obtain ⟨w, hw⟩ := (num64_ok_iff m).2 hm
    exact ⟨w, (decodeSection_d _ _).2 ⟨w, hw, rfl⟩⟩

/-- No `&` stands in a section. -/
theorem isSectionS_chars {cs : List Char} (h : isSectionS cs) : '&' ∉ cs := by
  obtain ⟨items, ls, rfl, -, -, hf⟩ := h
  have key : ∀ (ls : List FieldLetter) (xs : List (List Char)), List.Forall₂ isField ls xs →
      ∀ x ∈ xs, '&' ∉ x := by
    intro ls xs h
    induction h with
    | nil => simp
    | cons h _ ih => exact List.forall_mem_cons.2 ⟨(isField_chars h).2, ih⟩
  intro hc
  simp only [List.cons_append, List.nil_append, List.mem_cons] at hc
  rcases hc with hc | hc | hc
  · revert hc; decide
  · revert hc; decide
  · rcases mem_joinWith hc with hc | ⟨x, hx, hc⟩
    · revert hc; decide
    · cases x with
      | nil => cases hc
      | cons c x => exact key _ _ hf _ (List.mem_filter.2 ⟨hx, rfl⟩) hc

theorem isSectionD_chars {cs : List Char} (h : isSectionD cs) : '&' ∉ cs := by
  obtain ⟨m, rfl, hm⟩ := h
  simp [isNum64_chars hm]

/-! ### Requests -/

theorem wellFormed_of_decodeField {cs : List Char} {f : Field} (h : decodeField cs = .ok f) : f.wellFormed = true := by
  unfold decodeField at h
  split at h
  · obtain ⟨c, n, x, y, -, -, hn, rfl⟩ := (fieldOfC_ok _ _).1 h
    obtain ⟨hd, hr⟩ := (decDataBits_ok_iff n).1 ⟨y, hn⟩
    rw [decDataBits_isDec hd, if_pos hr] at hn
    cases hn
    simp only [Field.wellFormed, BitVec.toNat_ofNat, decide_eq_true_eq]
    omega
  · obtain ⟨a, b, x, y, -, -, -, rfl⟩ := (fieldOfH_ok _ _).1 h
    rfl
  · next v =>
    obtain ⟨ws, hl, hw, rfl⟩ := (fieldOfT_ok _ _).1 h
    have key : ∀ (es : List (List Char)) (ws : List Word), optWords es = .ok ws → ws.length = es.length := by
      intro es
      induction es with
      | nil => intro ws h; cases h; rfl
      | cons e es ih =>
        intro ws h
        obtain ⟨w, -, h⟩ := (bind_eq_ok _ _ _).1 h
        obtain ⟨vs, hv, h⟩ := (bind_eq_ok _ _ _).1 h
        cases h
        simp [ih vs hv]
    have h1 := key _ _ hw
    have h2 : 0 < (splitOn ',' v).length := List.length_pos_iff.2 (splitOn_ne_nil _ _)
    simp only [Field.wellFormed, Bool.and_eq_true, decide_eq_true_eq]
    omega
  · obtain ⟨a, x, -, -, rfl⟩ := (fieldOfP_ok _ _).1 h
    rfl
  · obtain ⟨a, b, x, y, -, -, -, rfl⟩ := (fieldOfS_ok _ _).1 h
    rfl
  · obtain ⟨a, x, -, -, rfl⟩ := (fieldOfE_ok _ _).1 h
    rfl
  · obtain ⟨a, x, -, -, rfl⟩ := (fieldOfG_ok _ _).1 h
    rfl
  · obtain ⟨c, a, b, m, x, y, z, w, -, -, -, -, -, rfl⟩ := (fieldOfR_ok _ _).1 h
    rfl
  · cases h

/-- What a decoded section's fields satisfy. -/
theorem sectionWellFormed_of_decode {cs : List Char} {fs : List Field}
    (h : decodeSection cs = .ok (.sectionS fs)) : sectionWellFormed fs = true := by
  rcases decodeSection_head h with ⟨v, rfl⟩ | ⟨v, rfl⟩
  · obtain ⟨gs, h, he⟩ := (decodeSection_s _ _).1 h
    cases he
    obtain ⟨h1, h2, h3⟩ := (decodeFieldList_ok _ _).1 h
    have key : ∀ (fs : List Field) (xs : List (List Char)),
        List.Forall₂ (fun f x => decodeField x = .ok f) fs xs → fs.all Field.wellFormed = true := by
      intro fs xs h
      induction h with
      | nil => rfl
      | cons h _ ih => simp [wellFormed_of_decodeField h, ih]
    simp only [sectionWellFormed, Bool.and_eq_true]
    exact ⟨⟨key _ _ ((decodeFields_ok _ _).1 h1), h2⟩, h3⟩
  · obtain ⟨w, -, he⟩ := (decodeSection_d _ _).1 h
    cases he

/-- An `s=` section read first. -/
theorem readSection_s {f : Front} {cs : List Char} {fs : List Field} (h : decodeSection cs = .ok (.sectionS fs))
    (hm : f.malformed = false) (h1 : f.sSeen = false) (h2 : f.seen = []) : readSection f cs = { f with
      sSeen := true, seen := fs.map Field.letter, desc := fs.foldl (fun d f => writeField f d) f.desc } := by
  simp only [readSection, h]
  exact applySectionS_first fs f hm (sectionWellFormed_of_decode h) h1 h2

/-- A `d=` section read first. -/
theorem readSection_d {f : Front} {cs : List Char} {v : Word64} (h : decodeSection cs = .ok (.sectionD v))
    (hm : f.malformed = false) (h1 : f.dSeen = false) : readSection f cs = { f with
      dSeen := true, desc := { f.desc with data := v } } := by
  simp [readSection, h, applySectionD, hm, h1]

/-- No field of an `s=` section writes `data`. -/
theorem foldl_writeField_data (fs : List Field) (d : Descriptor) (v : Word64) :
    fs.foldl (fun d f => writeField f d) { d with data := v } =
      { fs.foldl (fun d f => writeField f d) d with data := v } := by
  induction fs generalizing d with
  | nil => rfl
  | cons f fs ih =>
    simp only [List.foldl_cons]
    rw [← ih]
    cases f <;> rfl

/-- The answer of a request whose sections were read. -/
theorem parse_of_sections {req : List Char} {ss : List (List Char)} {f : Front} (h1 : splitOn '&' req = ss)
    (h2 : ss.foldl readSection Front.start = f) (hs : f.sSeen = true) (hm : f.malformed = false) : parse req = some f.desc := by
  simp [parse, readRequest, h1, h2, hs, hm]

/-- A request of an `s=` section, of it and a `d=` section after it, and of a `d=` section before it (R121, R137). -/
theorem parse_s {s : List Char} {fs : List Field} (h : decodeSection s = .ok (.sectionS fs)) :
    parse s = some (fs.foldl (fun d f => writeField f d) {}) := by
  have hs := isSectionS_chars ((decodeSectionS_ok_iff s).1 ⟨fs, h⟩)
  have e := readSection_s (f := Front.start) h rfl rfl rfl
  exact parse_of_sections (splitOn_of_not_mem '&' s hs) e rfl rfl

theorem parse_s_d {s d : List Char} {fs : List Field} {v : Word64} (h : decodeSection s = .ok (.sectionS fs))
    (hd : decodeSection d = .ok (.sectionD v)) :
    parse (s ++ ['&'] ++ d) = some { fs.foldl (fun d f => writeField f d) {} with data := v } := by
  have hs := isSectionS_chars ((decodeSectionS_ok_iff s).1 ⟨fs, h⟩)
  have hd' := isSectionD_chars ((decodeSectionD_ok_iff d).1 ⟨v, hd⟩)
  have e := readSection_s (f := Front.start) h rfl rfl rfl
  have e2 := readSection_d (f := readSection Front.start s) hd (by rw [e]; rfl) (by rw [e]; rfl)
  rw [e] at e2
  have hp : splitOn '&' (s ++ ['&'] ++ d) = [s, d] := by
    rw [List.append_assoc, List.singleton_append, splitOn_append '&' s d hs, splitOn_of_not_mem '&' d hd']
  exact parse_of_sections hp ((congrArg (readSection · d) e).trans e2) rfl rfl

theorem parse_d_s {s d : List Char} {fs : List Field} {v : Word64} (h : decodeSection s = .ok (.sectionS fs))
    (hd : decodeSection d = .ok (.sectionD v)) :
    parse (d ++ ['&'] ++ s) = some { fs.foldl (fun d f => writeField f d) {} with data := v } := by
  have hs := isSectionS_chars ((decodeSectionS_ok_iff s).1 ⟨fs, h⟩)
  have hd' := isSectionD_chars ((decodeSectionD_ok_iff d).1 ⟨v, hd⟩)
  have e := readSection_d (f := Front.start) hd rfl rfl
  have e2 := readSection_s (f := readSection Front.start d) h (by rw [e]; rfl) (by rw [e]; rfl) (by rw [e]; rfl)
  rw [e] at e2
  have hp : splitOn '&' (d ++ ['&'] ++ s) = [d, s] := by
    rw [List.append_assoc, List.singleton_append, splitOn_append '&' d s hd', splitOn_of_not_mem '&' s hs]
  exact (parse_of_sections hp ((congrArg (readSection · s) e).trans e2) rfl rfl).trans <| congrArg some (foldl_writeField_data fs {} v)

theorem applyField_flags (f : Front) (fld : Field) :
    (applyField f fld).sSeen = f.sSeen ∧ (applyField f fld).dSeen = f.dSeen := by
  unfold applyField Front.take
  split
  · split
    · simp
    · split <;> simp [Front.reject]
  · simp [Front.reject]

theorem foldl_applyField_flags (fs : List Field) (f : Front) :
    (fs.foldl applyField f).sSeen = f.sSeen ∧ (fs.foldl applyField f).dSeen = f.dSeen := by
  induction fs generalizing f with
  | nil => simp
  | cons x fs ih => simpa [applyField_flags] using ih (applyField f x)

/-- A section that leaves the request not malformed was the first of its kind (R121). -/
theorem readSection_ok {f : Front} {cs : List Char} (h : (readSection f cs).malformed = false) :
    f.malformed = false ∧
      ((isSectionS cs ∧ f.sSeen = false ∧ (readSection f cs).sSeen = true ∧ (readSection f cs).dSeen = f.dSeen) ∨
       (isSectionD cs ∧ f.dSeen = false ∧ (readSection f cs).dSeen = true ∧ (readSection f cs).sSeen = f.sSeen)) := by
  have hm : f.malformed = false := by
    cases hf : f.malformed
    · rfl
    · rw [readSection_malformed f cs hf] at h; cases h
  refine ⟨hm, ?_⟩
  unfold readSection at h ⊢
  split at h
  · next fs hd =>
    left
    unfold applySectionS at h ⊢
    simp only [hm, Bool.false_eq_true, if_false] at h ⊢
    split at h
    · cases h
    · next h1 =>
      simp only [Bool.not_eq_true] at h1
      refine ⟨(decodeSectionS_ok_iff cs).1 ⟨fs, hd⟩, h1, ?_⟩
      simp only [h1, Bool.false_eq_true, if_false]
      have h2 := foldl_applyField_flags fs { f with sSeen := true }
      simp only [hm] at h2
      split
      · exact h2
      · exact h2
  · next v hd =>
    right
    unfold applySectionD at h ⊢
    simp only [hm, Bool.false_eq_true, if_false] at h ⊢
    split at h
    · cases h
    · next h1 =>
      simp only [Bool.not_eq_true] at h1
      simp only [h1, Bool.false_eq_true, if_false, and_self, and_true]
      exact (decodeSectionD_ok_iff cs).1 ⟨v, hd⟩
  · cases h

theorem foldl_readSection_ok {ss : List (List Char)} {f : Front} (h : (ss.foldl readSection f).malformed = false) :
    f.malformed = false := by
  induction ss generalizing f with
  | nil => exact h
  | cons s ss ih => exact (readSection_ok (ih h)).1

/-- A request parses exactly where the grammar says so (R121 to R137). -/
theorem parse_ok_iff (req : List Char) : (∃ d, parse req = some d) ↔ isRequest req := by
  constructor
  · rintro ⟨d, h⟩
    have hm : (readRequest req).malformed = false := by
      unfold parse at h
      split at h
      · cases h
      · next h1 => simpa using h1
    have hj := joinWith_splitOn '&' req
    unfold readRequest at hm
    generalize splitOn '&' req = ss at hm hj
    have hseen : (ss.foldl readSection Front.start).sSeen = true := by
      simp only at hm
      split at hm
      · assumption
      · cases hm
    rw [if_pos hseen] at hm
    match ss with
    | [] => cases hseen
    | [a] =>
      rcases (readSection_ok hm).2 with ⟨hs, -⟩ | ⟨-, -, -, h4⟩
      · exact ⟨a, hs, .inl hj.symm⟩
      · rw [List.foldl_cons, List.foldl_nil, h4] at hseen; cases hseen
    | [a, b] =>
      obtain ⟨hm1, h2⟩ := readSection_ok hm
      obtain ⟨-, h1⟩ := readSection_ok hm1
      have hj' : req = a ++ ['&'] ++ b := by simpa [joinWith] using hj.symm
      rcases h1 with ⟨ha, -, h3, -⟩ | ⟨ha, -, h3, h4⟩
      · rcases h2 with ⟨-, h5, -⟩ | ⟨hb, -⟩
        · rw [h3] at h5; cases h5
        · exact ⟨a, ha, .inr ⟨b, hb, .inl hj'⟩⟩
      · rcases h2 with ⟨hb, -⟩ | ⟨-, h5, -⟩
        · exact ⟨b, hb, .inr ⟨a, ha, .inr hj'⟩⟩
        · rw [h3] at h5; cases h5
    | a :: b :: c :: rest =>
      exfalso
      have hm3 := foldl_readSection_ok (ss := rest) hm
      obtain ⟨hm2, h3⟩ := readSection_ok hm3
      obtain ⟨hm1, h2⟩ := readSection_ok hm2
      obtain ⟨-, h1⟩ := readSection_ok hm1
      rcases h1 with h1 | h1 <;> rcases h2 with h2 | h2 <;> rcases h3 with h3 | h3 <;> simp_all
  · rintro ⟨s, hs, rfl | ⟨d, hd, rfl | rfl⟩⟩
    · obtain ⟨fs, h⟩ := (decodeSectionS_ok_iff _).2 hs
      exact ⟨_, parse_s h⟩
    · obtain ⟨fs, h⟩ := (decodeSectionS_ok_iff _).2 hs
      obtain ⟨v, hv⟩ := (decodeSectionD_ok_iff _).2 hd
      exact ⟨_, parse_s_d h hv⟩
    · obtain ⟨fs, h⟩ := (decodeSectionS_ok_iff _).2 hs
      obtain ⟨v, hv⟩ := (decodeSectionD_ok_iff _).2 hd
      exact ⟨_, parse_d_s h hv⟩

end Sys2Proof.Machine
end

