-- ==== Sys2Proof/Laws/Step.lean ====
section
/-! SUPPORT. What one step can do, said once, and how long a step can take. -/

namespace Sys2Proof.Machine

/-! ### Runs -/

theorem core_run_next (M : Host.Core) (k : Nat) (s t : M.State) (h : M.step s = .next t) :
    M.run (k + 1) s = M.run k t := by
  simp only [Host.Core.run, h]

/-- A run goes on after a step that gives a next state. -/
theorem run_next (k : Nat) (s t : State) (h : step s = .next t) :
    Host.Core.run Sys2Proof.core (k + 1) s = Host.Core.run Sys2Proof.core k t :=
  core_run_next Sys2Proof.core k s t h

/-! ### Time -/

@[simp] theorem elapse_zero (s : State) : s.elapse 0 = s := by
  simp [State.elapse]

/-- The block's own next step is the earlier of the sequencer's and the timer's. -/
theorem nextInternal_le {s : State} {n : Nat} {i : Instr} (h : s.nextInternal = some (n, i)) :
    (∀ a, s.txRemaining = some a → n ≤ a) ∧ (∀ b, s.tmoRemaining = some b → n ≤ b) := by
  unfold State.nextInternal at h
  split at h
  · cases h
  · next a h1 h2 => cases h; exact ⟨fun _ h => by simp_all, fun _ h => by simp_all⟩
  · next b h1 h2 => cases h; exact ⟨fun _ h => by simp_all, fun _ h => by simp_all⟩
  · next a b h1 h2 =>
    split at h
    · cases h
      refine ⟨fun c hc => ?_, fun c hc => ?_⟩ <;> simp_all
      omega
    · cases h
      refine ⟨fun c hc => ?_, fun c hc => ?_⟩ <;> simp_all

/-- It is the sequencer's, with TXQ non-empty, or the timer's, with the timeout pending. -/
theorem nextInternal_cases {s : State} {n : Nat} {i : Instr} (h : s.nextInternal = some (n, i)) :
    (i = .txstep ∧ s.txRemaining = some n) ∨ (i = .timeout ∧ s.tmoRemaining = some n) := by
  unfold State.nextInternal at h
  split at h
  · cases h
  · cases h; simp_all
  · cases h; simp_all
  · split at h <;> cases h <;> simp_all

theorem nextInternal_none {s : State} (h : s.nextInternal = none) :
    s.txRemaining = none ∧ s.tmoRemaining = none := by
  unfold State.nextInternal at h
  split at h
  · simp_all
  · cases h
  · cases h
  · split at h <;> cases h

/-- What one step can do: time passes, never past the end of the segment in emission or an armed deadline, and then
one instruction of the block's own, one input, or nothing. -/
theorem step_next {s t : State} (h : step s = .next t) :
    ∃ n r, (∀ a, s.txRemaining = some a → n ≤ a) ∧ (∀ b, s.tmoRemaining = some b → n ≤ b) ∧
      ((∃ i, s.nextInternal = some (n, i) ∧ exec i ({ s with inbox := r }.elapse n) = .next t) ∨
       (s.nextInternal = none ∧ t = s.elapse n) ∨
       (∃ p, s.inbox = p :: r ∧ runInput p.input ({ s with inbox := r }.elapse n) = .next t)) := by
  unfold step nextStep at h
  split at h
  · next hb =>
    unfold stepAlone at h
    split at h
    · next n i hi =>
      refine ⟨n, [], (nextInternal_le hi).1, (nextInternal_le hi).2, .inl ⟨i, hi, ?_⟩⟩
      rw [← hb]; exact h
    · next hi =>
      cases h
      have := nextInternal_none hi
      exact ⟨1, [], by simp [this.1], by simp [this.2], .inr (.inl ⟨hi, rfl⟩)⟩
  · next p rest hb =>
    split at h
    · next n i hi =>
      split at h
      · exact ⟨n, _, (nextInternal_le hi).1, (nextInternal_le hi).2, .inl ⟨i, hi, h⟩⟩
      · next hd =>
        have hle := nextInternal_le hi
        exact ⟨s.due p, rest, fun a ha => by have := hle.1 a ha; omega, fun b hb => by have := hle.2 b hb; omega,
          .inr (.inr ⟨p, hb, h⟩)⟩
    · next hi =>
      have := nextInternal_none hi
      exact ⟨s.due p, rest, by simp [this.1], by simp [this.2], .inr (.inr ⟨p, hb, h⟩)⟩

/-- An input that is due at once is the next step, at the state as it stands. -/
theorem step_now (s : State) (inp : Input) (rest : List Pending) (hb : s.inbox = { wait := 0, input := inp } :: rest)
    (hd : s.due { wait := 0, input := inp } = 0) : step s = runInput inp { s with inbox := rest } := by
  have : step s = stepInput { wait := 0, input := inp } rest s := by
    simp only [step, nextStep, hb]
    split
    · rw [if_neg]; omega
    · rfl
  rw [this, stepInput, hd, elapse_zero]

/-! ### Inputs -/

/-- A word written to CMD decodes by its opcode (R112). -/
theorem decode_cmd (edgeEn : Bool) (ses : Session) (w : Word) :
    decode edgeEn ses (.write 0x000 (lanesOf w)) = .ok (decodeCmd w) := by
  simp [decode, decodeWrite, lanesOf, aligned]

/-- What an input that gives a next state does: a decoded instruction, or one of the updates of the host's side. -/
theorem runInput_next {inp : Input} {s t : State} (h : runInput inp s = .next t) :
    (∃ r i, inp = .raw r ∧ decode s.edgeEn s.session r = .ok i ∧ exec i s = .next t) ∨
    (inp = .rst ∧ t = s.resetPin) ∨
    t = { s with front := t.front, inbox := t.inbox } := by
  cases inp with
  | raw r =>
    simp only [runInput] at h
    split at h
    · next i hi => exact .inl ⟨r, i, rfl, hi, h⟩
    · cases h; exact .inr (.inr rfl)
  | rst => cases h; exact .inr (.inl ⟨rfl, rfl⟩)
  | sendTxt req =>
    cases h
    right; right
    unfold sendTxt
    split <;> rfl
  | waitTx => cases h; exact .inr (.inr rfl)
  | waitTxTest =>
    cases h
    right; right
    unfold waitTxTest
    split <;> rfl
  | drain => cases h; exact .inr (.inr rfl)
  | drainWindow => cases h; exact .inr (.inr rfl)

/-- No instruction touches the inputs still to come or the parameters. -/
theorem exec_inbox_cfg {i : Instr} {s t : State} (h : exec i s = .next t) : t.inbox = s.inbox ∧ t.cfg = s.cfg := by
  cases exec_next h with
  | sends => exact ⟨(sendEffect_frame s).2.2.2.2.2.2.2.2.2.2.2.2.2.2.2, (sendEffect_frame s).1⟩
  | learns => exact ⟨(learnEffect_frame s).2.2.2.2.2.2.2.2.2.2.2.2, (learnEffect_frame s).1⟩
  | reads => exact ⟨(readEffect_frame s).2.2.2.2.2.2.2.2.2.2.2.2.2.2.2.2.2, (readEffect_frame s).1⟩
  | writes => rw [writeReg_eq]; exact ⟨rfl, rfl⟩
  | record ts l =>
    obtain ⟨e, ⟨-, h⟩ | ⟨-, h⟩⟩ := recordEffect_cases s ts l <;> rw [h] <;> exact ⟨rfl, rfl⟩
  | fires => rw [timeoutEffect_eq]; exact ⟨rfl, rfl⟩
  | _ => exact ⟨rfl, rfl⟩

/-- Request text decodes to the operations of the text form only. -/
theorem decodeText_format {pos : TextPos} {cs : List Char} {i : Instr} (h : decodeText pos cs = .ok i) :
    i.format = .text := by
  cases pos with
  | whole =>
    simp only [decodeText, decodeSection] at h
    split at h
    · next v =>
      cases hv : decodeFieldList v <;> simp [hv, bind, Except.bind] at h
      subst h; rfl
    · next v =>
      cases hv : num64 v <;> simp [hv, bind, Except.bind] at h
      subst h; rfl
    · cases h
  | item =>
    simp only [decodeText] at h
    cases hv : decodeField cs <;> simp [hv, bind, Except.bind] at h
    subst h
    rename_i f
    cases f <;> rfl
  | codingEntry =>
    simp only [decodeText] at h
    cases hv : cchar cs <;> simp [hv, bind, Except.bind] at h
    subst h
    rename_i c
    cases c <;> rfl
  | repeatEntry =>
    simp only [decodeText] at h
    cases hv : rchar cs <;> simp [hv, bind, Except.bind] at h
    subst h
    rename_i c
    cases c <;> rfl

/-- A legal access decodes to no bus error, and no instruction it decodes to gives one (R62, R63). -/
theorem exec_legal {r : Raw} {e : Bool} {ses : Session} {i : Instr} (hr : legalRaw r = true)
    (hi : decode e ses r = .ok i) (s : State) : ∃ t, exec i s = .next t := by
  have wr : ∀ a v, aligned a = true → ∃ t, exec (.wrreg a v) s = .next t := by
    intro a v ha
    simp only [exec, execWrreg, ha, if_true]
    split
    · simp only [commandWrite]; split <;> exact ⟨_, rfl⟩
    · exact ⟨_, rfl⟩
  cases r with
  | read a w =>
    simp [legalRaw] at hr
    simp only [decode, decodeRead, hr, and_self, if_true, Except.ok.injEq] at hi
    split at hi
    · subst hi; exact ⟨_, exec_rdreg a s hr.2⟩
    · subst hi; exact ⟨_, rfl⟩
  | write a lanes =>
    simp [legalRaw] at hr
    simp only [decode, decodeWrite, Except.ok.injEq] at hi
    split at hi
    · simp only [hr.2, if_true] at hi
      split at hi
      · subst hi
        unfold decodeCmd
        split
        · exact ⟨_, rfl⟩
        · split
          · exact ⟨_, rfl⟩
          · split <;> exact ⟨_, rfl⟩
      · subst hi; exact wr a _ hr.2
    · next hl =>
      match lanes, hr.1 with
      | [_, _, _, _], _ => exact absurd rfl (hl _ _ _ _)
  | edge ts l =>
    simp only [decode, decodeEdge, Except.ok.injEq] at hi
    split at hi
    · split at hi <;> subst hi <;> exact ⟨_, rfl⟩
    · subst hi; exact ⟨_, rfl⟩
  | internal u =>
    cases u <;> simp only [decode, Except.ok.injEq] at hi <;> subst hi
    · exact ⟨_, rfl⟩
    · simp only [exec, execTxstep]; split <;> exact ⟨_, rfl⟩
  | descWord u w =>
    cases u <;> simp only [decode, decodeDescWord, Except.ok.injEq] at hi <;> split at hi <;> subst hi <;>
      exact ⟨_, rfl⟩
  | text pos cs =>
    have hf := decodeText_format hi
    cases i <;> first | exact ⟨_, rfl⟩ | simp [Instr.format] at hf

end Sys2Proof.Machine
end

