-- ==== Sys2Proof/Laws/Inv.lean ====
section
/-! SUPPORT. What keeps the invariant of Safety.lean: the passing of time, and every instruction. -/

namespace Sys2Proof.Machine

/-- Time that does not pass the deadline brings it that much nearer. -/
theorem remaining_elapse (s : State) (n : Nat) (h : n ≤ (s.tmoDeadline - s.now).toNat) :
    (s.tmoDeadline - (s.elapse n).now).toNat = (s.tmoDeadline - s.now).toNat - n := by
  have hd := s.tmoDeadline.isLt
  have hn := s.now.isLt
  simp only [State.elapse, BitVec.toNat_sub, BitVec.toNat_add, BitVec.toNat_ofNat] at h ⊢
  omega

/-- Time that passes no end of a segment and no deadline keeps the invariant. -/
theorem inv_elapse (s : State) (n : Nat) (hI : s.Inv) (h1 : ∀ a, s.txRemaining = some a → n ≤ a)
    (h2 : ∀ b, s.tmoRemaining = some b → n ≤ b) (r : List Pending) : ({ s with inbox := r }.elapse n).Inv where
  cfg_legal := hI.cfg_legal
  busy_iff_queue := hI.busy_iff_queue
  edge_iff_armed := hI.edge_iff_armed
  timeout_iff_armed := hI.timeout_iff_armed
  buf_bound := hI.buf_bound
  recv_room := hI.recv_room
  learn_empty := hI.learn_empty
  window_bound := hI.window_bound
  window_closed := hI.window_closed
  full_not_armed := hI.full_not_armed
  ctrl_masked := hI.ctrl_masked
  phase_in_range := by
    have := hI.phase_in_range
    simp only [State.phaseInRange, State.elapse] at this ⊢
    cases hq : s.txq with
    | nil => simpa [hq] using this
    | cons a q =>
      simp only [hq] at this
      have h := h1 (segmentUs s.cfg a - s.txPhase) (by simp [State.txRemaining, hq])
      simp at this ⊢
      omega
  deadline_near := by
    intro hp
    have hp' : s.tmoPending = true := hp
    have h := h2 _ (by simp only [State.tmoRemaining]; rw [if_pos hp'])
    have hd := hI.deadline_near hp
    have := remaining_elapse s n h
    simp only [State.elapse] at this ⊢
    simp only [timeoutUs] at *
    omega

theorem inv_params {s : State} (hI : s.Inv) :
    2 ≤ s.cfg.capN ∧ s.cfg.capN ≤ 1024 ∧ s.cfg.timeoutMs * 1000 < 2 ^ 32 := by
  have := hI.cfg_legal
  simp [Config.Params.legal] at this
  omega

/-- Every instruction keeps the invariant, at every moment. -/
theorem inv_exec {i : Instr} {s t : State} (hI : s.Inv) (h : exec i s = .next t) : t.Inv := by
  have hc := inv_params hI
  cases exec_next h with
  | sends _ _ _ hb =>
    have hq : s.txq = [] := by
      by_contra hne; have := hI.busy_iff_queue.2 hne; simp [this] at hb
    rcases sendEffect_cases s with ⟨w, -, h⟩ | ⟨e, -, h⟩ <;> rw [h]
    · exact { hI with
        busy_iff_queue := by cases w <;> simp
        phase_in_range := by cases w <;> simp [State.phaseInRange] }
    · exact { hI with }
  | learns _ _ _ hb =>
    unfold learnEffect
    split
    · next hidle =>
      exact { hI with
        edge_iff_armed := by simp [armed]
        timeout_iff_armed := by simp [armed]
        buf_bound := by simp
        recv_room := by simp
        learn_empty := by simp
        window_bound := by simp
        window_closed := by simp
        full_not_armed := by simp
        deadline_near := by
          intro _
          simp only [timeoutUs, BitVec.toNat_sub, BitVec.toNat_add, BitVec.toNat_ofNat]
          have := s.now.isLt
          omega }
    · exact { hI with }
  | reads _ _ _ hb =>
    unfold readEffect
    split
    · next hl =>
      have := hI.buf_bound
      have he := hI.edge_iff_armed
      have ht := hI.timeout_iff_armed
      exact { hI with
        edge_iff_armed := by rw [he, hl]; rfl
        timeout_iff_armed := by rw [ht, hl]; rfl
        recv_room := by simp
        learn_empty := by simp
        window_bound := by simp; exact Nat.mod_le _ _
        window_closed := by simp
        full_not_armed := by simp [armed] }
    · exact { hI with
        window_bound := by simp
        window_closed := by simp }
  | writes a v =>
    have hctrl : (s.writeReg a v).regs.ctrl &&& 0x00007F0F = (s.writeReg a v).regs.ctrl := by
      unfold State.writeReg
      split
      · next r _ =>
        cases r <;> simp [DescRegs.set, storedBits] <;> first | exact hI.ctrl_masked | (rw [BitVec.and_assoc]; rfl)
      · exact hI.ctrl_masked
    rw [writeReg_eq]
    exact { hI with ctrl_masked := hctrl }
  | baseline ts l _ he hs =>
    have hb := hI.learn_empty hs
    have hf : s.full = false := by
      rw [Bool.eq_false_iff]; intro h; have := hI.full_not_armed h; simp [armed, hs] at this
    have he := hI.edge_iff_armed
    have ht := hI.timeout_iff_armed
    exact { hI with
      edge_iff_armed := by simp [baselineEffect, he, armed, hs]
      timeout_iff_armed := by simp [baselineEffect, ht, armed, hs]
      recv_room := by simp [baselineEffect, hb]; omega
      learn_empty := by simp [baselineEffect]
      window_closed := by simp [baselineEffect]; exact hI.window_closed (by simp [hs])
      full_not_armed := by simp [baselineEffect, hf] }
  | record ts l _ he hs =>
    have hroom := hI.recv_room hs
    have hw := hI.window_closed (by simp [hs])
    have hf : s.full = false := by
      rw [Bool.eq_false_iff]; intro h; have := hI.full_not_armed h; simp [armed, hs] at this
    obtain ⟨e, ⟨hne, h⟩ | ⟨heq, h⟩⟩ := recordEffect_cases s ts l <;> rw [h]
    · exact { hI with
        buf_bound := by simp; omega
        recv_room := by simp; omega
        learn_empty := by simp [hs]
        window_bound := by simp [hw] }
    · exact { hI with
        edge_iff_armed := by simp [armed]
        timeout_iff_armed := by simp [armed]
        buf_bound := by simp; omega
        recv_room := by simp
        learn_empty := by simp
        window_bound := by simp [hw]
        window_closed := by simp [hw]
        full_not_armed := by simp [armed]
        deadline_near := by simp }
  | fires _ hp =>
    have ha : armed s.session = true := by rw [← hI.timeout_iff_armed]; exact hp
    have hne : s.session ≠ .idle := by intro h; simp [h, armed] at ha
    have hw := hI.window_closed hne
    rw [timeoutEffect_eq]
    simp only [ha, if_true]
    exact { hI with
        edge_iff_armed := by simp [armed]
        timeout_iff_armed := by simp [armed]
        recv_room := by simp
        learn_empty := by simp
        window_closed := by simp [hw]
        full_not_armed := by simp [armed]
        deadline_near := by simp }
  | emits _ seg rest hq =>
    have hb : s.txBusy = true := hI.busy_iff_queue.2 (by simp [hq])
    exact { hI with
      busy_iff_queue := by cases rest <;> simp [State.emitted, hb]
      phase_in_range := by cases rest <;> simp [State.phaseInRange, State.emitted] }
  | _ => exact { hI with }

end Sys2Proof.Machine
end

