-- ==== Sys2Proof/Laws/PerInstr.lean ====
section
/-! SUPPORT. The family EncodeFormat: a well-formed instruction's raw form goes to the port that the "format" column of
its opcode-table row names. -/

namespace Sys2Proof.Laws.EncodeFormat

/-- The raw form of a well-formed instruction has the format of its row. -/
def Statement (i : Instr) : Prop :=
  i.wellFormed = true → (encode i).format = i.format

theorem send : Statement .send :=
  fun _ => rfl

theorem learn : Statement .learn :=
  fun _ => rfl

theorem read : Statement .read :=
  fun _ => rfl

theorem illegalCmd (op : BitVec 4) : Statement (.illegalCmd op) :=
  fun _ => rfl

theorem codingPulse (rep : RepeatMode) (bits : BitVec 7) : Statement (.codingPulse rep bits) :=
  fun _ => rfl

theorem codingSpace (rep : RepeatMode) (bits : BitVec 7) : Statement (.codingSpace rep bits) :=
  fun _ => rfl

theorem codingPhase (rep : RepeatMode) (bits : BitVec 7) : Statement (.codingPhase rep bits) :=
  fun _ => rfl

theorem codingQuad (rep : RepeatMode) (bits : BitVec 7) : Statement (.codingQuad rep bits) :=
  fun _ => rfl

theorem repeatNone (coding : CodingScheme) (bits : BitVec 7) : Statement (.repeatNone coding bits) :=
  fun _ => rfl

theorem repeatSameframe (coding : CodingScheme) (bits : BitVec 7) : Statement (.repeatSameframe coding bits) :=
  fun _ => rfl

theorem repeatStoppauseonly (coding : CodingScheme) (bits : BitVec 7) : Statement (.repeatStoppauseonly coding bits) :=
  fun _ => rfl

theorem repeatFoxtelweird (coding : CodingScheme) (bits : BitVec 7) : Statement (.repeatFoxtelweird coding bits) :=
  fun _ => rfl

theorem rdreg (addr : Offset) : Statement (.rdreg addr) :=
  fun _ => rfl

theorem wrreg (addr : Offset) (v : Word) : Statement (.wrreg addr v) := by
  intro h
  have h0 : addr ≠ 0 := by
    rintro rfl
    revert h; simp [Instr.wellFormed]
  simp only [encode, Raw.format, Instr.format, if_neg (fun h : _ ∧ _ => h0 h.1)]

theorem capbufRd (idx : BitVec 10) : Statement (.capbufRd idx) :=
  fun _ => rfl

theorem busError (dir : Dir) (addr : Offset) (width : Nat) : Statement (.busError dir addr width) := by
  intro h
  cases dir with
  | read => rfl
  | write =>
    have h0 : ¬(addr = 0 ∧ width = 4) := by
      rintro ⟨rfl, rfl⟩
      revert h; decide
    simp only [encode, Raw.format, Instr.format, List.length_replicate, if_neg h0]

theorem edgeBaseline (ts : Word) (lvl : Bool) : Statement (.edgeBaseline ts lvl) :=
  fun _ => rfl

theorem edgeRecord (ts : Word) (lvl : Bool) : Statement (.edgeRecord ts lvl) :=
  fun _ => rfl

theorem edgeIgnored (ts : Word) (lvl : Bool) : Statement (.edgeIgnored ts lvl) :=
  fun _ => rfl

theorem timeout : Statement .timeout :=
  fun _ => rfl

theorem txstep : Statement .txstep :=
  fun _ => rfl

theorem sectionS (fields : List Field) : Statement (.sectionS fields) :=
  fun _ => rfl

theorem sectionD (data : Word64) : Statement (.sectionD data) :=
  fun _ => rfl

theorem fieldC (coding : CodingScheme) (dataBits : BitVec 7) : Statement (.fieldC coding dataBits) :=
  fun _ => rfl

theorem fieldH (headerMark : Word) (headerSpace : Word) : Statement (.fieldH headerMark headerSpace) :=
  fun _ => rfl

theorem fieldT (entries : List Word) : Statement (.fieldT entries) :=
  fun _ => rfl

theorem fieldP (pauseSpace : Word) : Statement (.fieldP pauseSpace) :=
  fun _ => rfl

theorem fieldS (stopMark : Word) (stopSpace : Word) : Statement (.fieldS stopMark stopSpace) :=
  fun _ => rfl

theorem fieldE (endMark : Word) : Statement (.fieldE endMark) :=
  fun _ => rfl

theorem fieldG (gap : Word) : Statement (.fieldG gap) :=
  fun _ => rfl

theorem fieldR (mode : RepeatChar) (repeatCount : Word) (foxtelGap : Word) (foxtelMask : Word64) :
    Statement (.fieldR mode repeatCount foxtelGap foxtelMask) :=
  fun _ => rfl

theorem ccharPulse : Statement .ccharPulse :=
  fun _ => rfl

theorem ccharSpace : Statement .ccharSpace :=
  fun _ => rfl

theorem ccharPhase : Statement .ccharPhase :=
  fun _ => rfl

theorem ccharQuad : Statement .ccharQuad :=
  fun _ => rfl

theorem rcharSameframe : Statement .rcharSameframe :=
  fun _ => rfl

theorem rcharStoppauseonly : Statement .rcharStoppauseonly :=
  fun _ => rfl

theorem rcharFoxtelweird : Statement .rcharFoxtelweird :=
  fun _ => rfl

end Sys2Proof.Laws.EncodeFormat
end

