-- ==== Sys2Proof/Laws/Transmit.lean ====
section
/-! SUPPORT. The encoder and the carrier: when a Descriptor is valid (41_transmit_framing R141), what the encoder makes
of it, and how long segments last on `carrier_out` (42_bit_coding R183, R186). -/

namespace Sys2Proof.Machine

open Sys2Proof.Config (Params)

theorem valid_iff (d : Descriptor) :
    valid d = true ↔ d.dataBits.toNat ≤ 64 ∧ (d.codingScheme = .quad → d.dataBits.toNat % 2 = 0) := by
  by_cases h : d.codingScheme = .quad <;> simp [valid, h]

theorem buildPayload_valid (p : Params) (d : Descriptor) (h : valid d = true) :
    buildPayload p d = .built (payload p d.codingScheme d.timings d.data d.dataBits.toNat) := by
  simp [buildPayload, h]

theorem buildPayload_invalid (p : Params) (d : Descriptor) (h : valid d = false) :
    buildPayload p d = .rejected .malformed := by
  simp [buildPayload, h]

theorem buildWave_invalid (p : Params) (d : Descriptor) (h : valid d = false) :
    buildWave p d = .rejected .malformed := by
  simp [buildWave, h]

/-- What the encoder makes of a valid Descriptor, by repeat mode (R151 to R154). -/
theorem buildWave_valid (p : Params) (d : Descriptor) (h : valid d = true) :
    buildWave p d = match d.repeatMode with
      | .single => .built (waveSingle p d)
      | .sameFrame => .built (waveSameFrame p d)
      | .stopPauseOnly => .rejected .unsupported
      | .foxtelWeird => .built (waveFoxtel p d) := by
  simp only [buildWave, h, Bool.not_true]
  cases d.repeatMode <;> rfl

/-- A burst or part is present exactly where its duration is not 0 (R145, R147 to R150). -/
theorem pos_iff_ne_zero (w : Word) : 0 < w.toNat ↔ w ≠ 0 := by
  rw [Nat.pos_iff_ne_zero, ne_eq, ne_eq, ← BitVec.toNat_inj]
  rfl

/-- `k` segments per bit make `n * k` segments. -/
theorem length_flatMap_range {α : Type} (n k : Nat) (f : Nat → List α) (h : ∀ i, (f i).length = k) :
    ((List.range n).flatMap f).length = n * k := by
  simp [List.length_flatMap, h]

/-- The levels of a segment last as long as the segment (R183, R186). -/
theorem totalUs_expand (p : Params) (seg : Segment) : totalUs (expand p seg) = segmentUs p seg := by
  cases seg with
  | mark d => simp [expand, totalUs, segmentUs, List.map_flatten, cycle, List.sum_flatten, cycleUs]
  | space d => simp [expand, totalUs, segmentUs]

/-- The level of a train of carrier cycles (R180, R185). -/
theorem levelAt_cycles (on off k n : Nat) :
    levelAt (List.replicate k [(true, on), (false, off)]).flatten n =
      (decide (n < k * (on + off)) && decide (n % (on + off) < on)) := by
  induction k generalizing n with
  | zero => simp [levelAt]
  | succ k ih =>
    simp only [List.replicate_succ, List.flatten_cons, List.cons_append, List.nil_append, levelAt]
    rw [ih]
    by_cases h1 : n < on
    · have : n % (on + off) = n := Nat.mod_eq_of_lt (by omega)
      have h2 : n < (k + 1) * (on + off) := by nlinarith
      simp [h1, this, h2]
    · by_cases h2 : n - on < off
      · have : n % (on + off) = n := Nat.mod_eq_of_lt (by omega)
        simp [h1, h2, this]
      · have h3 : (n - on - off) % (on + off) = n % (on + off) := by
          have : n = (n - on - off) + (on + off) := by omega
          conv => rhs; rw [this, Nat.add_mod_right]
        have h4 : n - on - off < k * (on + off) ↔ n < (k + 1) * (on + off) := by rw [Nat.succ_mul]; omega
        simp [h1, h2, h3, h4]

end Sys2Proof.Machine
end

