-- ==== Sys2Proof/Tests/Slice0.lean ====
section
/-! SUPPORT. The model's own tests. Every expected value is from spec/ (the vector or rule named) or worked out by hand
from its encoding tables. -/

namespace Sys2Proof.Machine.Test

/-! ### Small states -/

/-- A check of the next state; a stop fails it. -/
def nextIs (r : Result) (p : State → Bool) : Bool :=
  match r with
  | .next s => p s
  | _ => false

/-- The result is the bus error. -/
def isBusError (r : Result) : Bool :=
  match r with
  | .fault .busError => true
  | _ => false

/-- Pulse, one data bit 1, T = 300, 600, 400: the base of the framing vectors V70 to V86. -/
def pulseRegs : DescRegs := { ctrl := 0x100, dataLo := 1, t0 := 300, t1 := 600, t2 := 400 }

/-- Idle, with descriptor registers. -/
def withRegs (g : DescRegs) : State := { regs := g }

/-- A Send is running. -/
def busy : State := { txBusy := true, txq := [.mark 560, .space 560], txPhase := 100 }

/-- Armed, nothing received. -/
def inLearn : State := { session := .learn, edgeEn := true, tmoPending := true, tmoDeadline := 10000000 }

/-- Armed, the baseline received. -/
def inRecv : State := { session := .recv, edgeEn := true, tmoPending := true, tmoDeadline := 10000000, ref := 1000 }

/-- Three entries captured, not read yet (W4). -/
def inLearnt : State := { session := .learnt, buf := [0xFFFFFDD0, 560, 0xFFFFF966] }

/-- The same after its READ. -/
def drained : State := { inLearnt with session := .idle, rdLen := 3, result := 3 }

/-- Armed with the smallest capacity. -/
def smallLearn : State := { inLearn with cfg := { capN := 2 } }

/-- A Send is running while a session is armed. -/
def busyRecv : State := { inRecv with txBusy := true, txq := [.mark 560, .space 560] }

/-- At the deadline. -/
def atDeadline : State := { inRecv with now := 10000000 }

/-! ### WellFormed refuses ill-formed terms -/

theorem test_wf_illegalCmd : Instr.wellFormed (.illegalCmd 1) = false := by decide

theorem test_wf_rdreg_alignment : Instr.wellFormed (.rdreg 0x006) = false := by decide

theorem test_wf_rdreg_window : Instr.wellFormed (.rdreg 0x1000) = false := by decide

theorem test_wf_wrreg_alignment : Instr.wellFormed (.wrreg 0x00D 1) = false := by decide

theorem test_wf_wrreg_cmd : Instr.wellFormed (.wrreg 0x000 1) = false := by decide

theorem test_wf_busError : Instr.wellFormed (.busError .read 0x004 4) = false := by decide

theorem test_wf_fieldC : Instr.wellFormed (.fieldC .pulse 65) = false := by decide

theorem test_wf_fieldT_none : Instr.wellFormed (.fieldT []) = false := by decide

theorem test_wf_fieldT_six : Instr.wellFormed (.fieldT [1, 2, 3, 4, 5, 6]) = false := by decide

theorem test_wf_section_field : Instr.wellFormed (.sectionS [.c .pulse 65]) = false := by decide

theorem test_wf_section_twice : Instr.wellFormed (.sectionS [.c .pulse 8, .c .space 8]) = false := by decide

theorem test_wf_section_without_c : Instr.wellFormed (.sectionS [.g 5]) = false := by decide

theorem test_selected_edge : Instr.selectedIn true .learn (.edgeRecord 5 true) = false := by decide

/-! ### Decoding: words and texts written out from the encoding tables -/

/-- V9: CMD.OP is bits 3:0, bits 31:4 are ignored. -/
theorem test_decode_send : decode false .idle (.write 0x000 [0x11, 0x00, 0x00, 0x00]) = .ok .send := by decide

/-- R91, R92. -/
theorem test_decode_learn : decode false .idle (.write 0x000 [0x02, 0x00, 0x00, 0xFF]) = .ok .learn := by decide

/-- R91, R92. -/
theorem test_decode_read : decode false .idle (.write 0x000 [0xF3, 0xFF, 0xFF, 0xFF]) = .ok .read := by decide

/-- R92: 0x4 is the first reserved opcode. -/
theorem test_decode_illegalCmd :
    decode false .idle (.write 0x000 [0x04, 0x00, 0x00, 0x00]) = .ok (.illegalCmd 4) := by decide

/-- V10. -/
theorem test_decode_illegalCmd_zero :
    decode false .idle (.write 0x000 [0x30, 0x00, 0x00, 0x00]) = .ok (.illegalCmd 0) := by decide

/-- R95: CODING bits 1:0, REPEAT bits 3:2, DATABITS bits 14:8. -/
theorem test_decode_codingPulse :
    decode false .idle (.descWord .coder 0x00004100) = .ok (.codingPulse .single 65) := by decide

/-- R95: CODING bits 1:0, REPEAT bits 3:2, DATABITS bits 14:8. -/
theorem test_decode_codingSpace :
    decode false .idle (.descWord .coder 0x00000305) = .ok (.codingSpace .sameFrame 3) := by decide

/-- R95: CODING bits 1:0, REPEAT bits 3:2, DATABITS bits 14:8. -/
theorem test_decode_codingPhase :
    decode false .idle (.descWord .coder 0x0000020A) = .ok (.codingPhase .stopPauseOnly 2) := by decide

/-- R95: CODING bits 1:0, REPEAT bits 3:2, DATABITS bits 14:8. -/
theorem test_decode_codingQuad :
    decode false .idle (.descWord .coder 0x0000040F) = .ok (.codingQuad .foxtelWeird 4) := by decide

/-- R95, R97. -/
theorem test_decode_repeatNone :
    decode false .idle (.descWord .repeater 0x00000103) = .ok (.repeatNone .quad 1) := by decide

/-- R95, R97. -/
theorem test_decode_repeatSameframe :
    decode false .idle (.descWord .repeater 0x00000305) = .ok (.repeatSameframe .space 3) := by decide

/-- R95, R97. -/
theorem test_decode_repeatStoppauseonly :
    decode false .idle (.descWord .repeater 0x00000808) = .ok (.repeatStoppauseonly .pulse 8) := by decide

/-- R95, R97. -/
theorem test_decode_repeatFoxtelweird :
    decode false .idle (.descWord .repeater 0x0000040E) = .ok (.repeatFoxtelweird .phase 4) := by decide

/-- R113. -/
theorem test_decode_rdreg : decode false .idle (.read 0xFFC 4) = .ok (.rdreg 0xFFC) := by decide

/-- V16. -/
theorem test_decode_wrreg :
    decode false .idle (.write 0x00C [0x00, 0x04, 0x00, 0x00]) = .ok (.wrreg 0x00C 0x400) := by decide

/-- R61, R210. -/
theorem test_decode_capbufRd : decode false .idle (.read 0x1FFC 4) = .ok (.capbufRd 1023) := by decide

/-- V7. -/
theorem test_decode_busError_misaligned : decode false .idle (.read 0x006 4) = .ok (.busError .read 0x006 4) := by decide

/-- V8. -/
theorem test_decode_busError_width :
    decode false .idle (.write 0x00C [0x00, 0x00]) = .ok (.busError .write 0x00C 2) := by decide

/-- V121. -/
theorem test_decode_edgeBaseline : decode true .learn (.edge 1000 true) = .ok (.edgeBaseline 1000 true) := by decide

/-- V122. -/
theorem test_decode_edgeRecord : decode true .recv (.edge 1560 false) = .ok (.edgeRecord 1560 false) := by decide

/-- V128. -/
theorem test_decode_edgeIgnored : decode false .idle (.edge 7 true) = .ok (.edgeIgnored 7 true) := by decide

/-- R208. -/
theorem test_decode_timeout : decode false .idle (.internal .timer) = .ok .timeout := by decide

/-- R155. -/
theorem test_decode_txstep : decode false .idle (.internal .sequencer) = .ok .txstep := by decide

/-- V23: empty items are skipped. -/
theorem test_decode_sectionS :
    decode false .idle (.text .whole ['s', '=', ';', 'C', '=', 'M', ',', '8', ';', ';', 'G', '=', '1', '0', '0', ';']) = .ok (.sectionS [.c .pulse 8, .g 100]) := by decide

/-- V31. -/
theorem test_decode_sectionD :
    decode false .idle (.text .whole ['d', '=', '0', 'x', 'a', 'B', 'c', 'D']) = .ok (.sectionD 0xABCD) := by decide

/-- R125, V26. -/
theorem test_decode_fieldC :
    decode false .idle (.text .item ['C', '=', 'S', ',', '0', '0', '8']) = .ok (.fieldC .space 8) := by decide

/-- R126. -/
theorem test_decode_fieldH :
    decode false .idle (.text .item ['H', '=', '9', '0', '0', '0', ',', '0']) = .ok (.fieldH 9000 0) := by decide

/-- V25. -/
theorem test_decode_fieldT :
    decode false .idle (.text .item ['T', '=', '5', '6', '0', ',', ',', '1', '6', '9', '0']) = .ok (.fieldT [560, 0, 1690]) := by decide

/-- V24. -/
theorem test_decode_fieldT_empty : decode false .idle (.text .item ['T', '=']) = .ok (.fieldT [0]) := by decide

/-- R128. -/
theorem test_decode_fieldP :
    decode false .idle (.text .item ['P', '=', '2', '0', '0', '0', '0']) = .ok (.fieldP 20000) := by decide

/-- V33. -/
theorem test_decode_fieldS :
    decode false .idle (.text .item ['S', '=', '5', '6', '0', ',', '0']) = .ok (.fieldS 560 0) := by decide

/-- R130. -/
theorem test_decode_fieldE : decode false .idle (.text .item ['E', '=', '5', '6', '0']) = .ok (.fieldE 560) := by decide

/-- V34. -/
theorem test_decode_fieldG :
    decode false .idle (.text .item ['G', '=', '4', '2', '9', '4', '9', '6', '7', '2', '9', '5']) = .ok (.fieldG 0xFFFFFFFF) := by decide

/-- V22. -/
theorem test_decode_fieldR :
    decode false .idle (.text .item ['R', '=', 'F', ',', '3', ',', '5', '0', '0', '0', ',', '0', 'x', '2']) = .ok (.fieldR .f 3 5000 2) := by decide

/-- R96. -/
theorem test_decode_ccharPulse : decode false .idle (.text .codingEntry ['M']) = .ok .ccharPulse := by decide

/-- R96. -/
theorem test_decode_ccharSpace : decode false .idle (.text .codingEntry ['S']) = .ok .ccharSpace := by decide

/-- R96. -/
theorem test_decode_ccharPhase : decode false .idle (.text .codingEntry ['P']) = .ok .ccharPhase := by decide

/-- R96. -/
theorem test_decode_ccharQuad : decode false .idle (.text .codingEntry ['Q']) = .ok .ccharQuad := by decide

/-- R97. -/
theorem test_decode_rcharSameframe : decode false .idle (.text .repeatEntry ['R']) = .ok .rcharSameframe := by decide

/-- R97. -/
theorem test_decode_rcharStoppauseonly :
    decode false .idle (.text .repeatEntry ['E']) = .ok .rcharStoppauseonly := by decide

/-- R97. -/
theorem test_decode_rcharFoxtelweird : decode false .idle (.text .repeatEntry ['F']) = .ok .rcharFoxtelweird := by decide

/-! ### Malformed requests (40_descriptor_parser, 95_test_vectors 2.2) -/

/-- V40. -/
theorem test_malformed_V40 : parse ['s', '=', 'H', '=', '9', '0', '0', '0', ',', '4', '5', '0', '0'] = none := by decide

/-- V41. -/
theorem test_malformed_V41 :
    parse ['s', '=', 'C', '=', 'M', ',', '8', '&', 'd', '=', '0', 'x', '1', 'G'] = none := by decide

/-- V44. -/
theorem test_malformed_V44 : parse ['s', '=', 'C', '=', 'M', ',', ' ', '8'] = none := by decide

/-- V45. -/
theorem test_malformed_V45 : parse ['s', '=', 'C', '=', 'M', ',', '6', '5'] = none := by decide

/-- V48. -/
theorem test_malformed_V48 : parse ['s', '=', 'C', '=', 'M', ',', '8', ';', 'C', '=', 'S', ',', '8'] = none := by decide

/-- V50. -/
theorem test_malformed_V50 : parse ['d', '=', '5'] = none := by decide

/-- V51. -/
theorem test_malformed_V51 : parse ['s', '=', 'C', '=', 'M', ',', '8', '&', '&', 'd', '=', '5'] = none := by decide

/-- V53. -/
theorem test_malformed_V53 :
    parse ['s', '=', 'C', '=', 'M', ',', '8', ';', 'T', '=', '1', ',', '2', ',', '3', ',', '4', ',', '5', ',', '6'] = none := by decide

/-- V57. -/
theorem test_malformed_V57 :
    parse ['s', '=', 'C', '=', 'M', ',', '8', ';', 'G', '=', '4', '2', '9', '4', '9', '6', '7', '2', '9', '6'] = none := by decide

/-- R126, R128, R123, R135, R133: entries, letters, `0x` and `0X` out of place. -/
theorem test_reject_items :
    [['H', '=', '9', '0', '0', '0'], ['P', '=', '1', ',', '2'], ['c', '=', 'M', ',', '8'], ['E', '=', '0', 'x', '1'], ['R', '=', 'F', ',', '1', ',', '2', ',', '0', 'X', '3']].map (fun cs =>
      decode false .idle (.text .item cs)) = [.error .entryCount, .error .entryCount, .error .fieldHead, .error .number,
        .error .number] := by decide

/-- R133. -/
theorem test_reject_0X : parse ['s', '=', 'C', '=', 'M', ',', '8', '&', 'd', '=', '0', 'X', '1', 'F'] = none := by decide

/-- V22. -/
theorem test_parse_V22 :
    parse ['d', '=', '1', '2', '&', 's', '=', 'C', '=', 'M', ',', '4', ';', 'R', '=', 'F', ',', '3', ',', '5', '0', '0', '0', ',', '0', 'x', '2'] = some
      { dataBits := 4, data := 12, repeatMode := .foxtelWeird, repeatCount := 3, foxtelGap := 5000, foxtelMask := 2 } := by decide

/-! ### Effects -/

/-- V71, and STATUS as in P1. -/
theorem test_send_V71 :
    nextIs (exec .send (withRegs { pulseRegs with hdrMark := 9000, hdrSpace := 4500 })) (fun t => t.txq == [.mark 9000, .space 4500, .mark 600, .space 400] && t.status == 0x1004) = true := by decide

/-- V82. -/
theorem test_send_V82 :
    nextIs (exec .send (withRegs { pulseRegs with ctrl := 0x10C, gap := 1000, foxtelGap := 50, foxtelMaskLo := 1 })) (fun t => t.txq ==
      [.mark 600, .space 400, .space 1000, .mark 600, .space 400, .space 50, .mark 300, .space 400, .space 50]) = true := by decide

/-- V120. -/
theorem test_learn_V120 :
    nextIs (exec .learn State.reset) (fun t => t.status == 0x2019 && t.result == 0) = true := by decide

/-- V130. -/
theorem test_learn_V130 :
    nextIs (exec .learn inRecv) (fun t => t.err == .sessionBusy && t.result == 2 && t.session == .recv) = true := by decide

/-- W4, V137. -/
theorem test_read_W4 :
    nextIs (exec .read inLearnt) (fun t => t.result == 3 && t.window 0 == 0xFFFFFDD0 && t.window 3 == 0 && t.session == .idle) = true := by decide

/-- V132. -/
theorem test_read_V132 : nextIs (exec .read inRecv) (fun t => t.result == 0 && t.session == .recv) = true := by decide

/-- V10. -/
theorem test_illegal_V10 :
    nextIs (exec (.illegalCmd 0) ({ result := 7 } : State)) (fun t => t.err == .illegalCmd && t.result == 7) = true := by decide

/-- V13. -/
theorem test_illegal_V13 : nextIs (exec (.illegalCmd 7) busy) (fun t => t.err == .txBusy) = true := by decide

/-- V90. -/
theorem test_codingPulse_V90 :
    nextIs (exec (.codingPulse .single 2) (withRegs { dataLo := 2, t0 := 560, t1 := 1690, t2 := 560 })) (fun t => t.encOut == .built [.mark 560, .space 560, .mark 1690, .space 560]) = true := by decide

/-- V91. -/
theorem test_codingSpace_V91 :
    nextIs (exec (.codingSpace .single 2) (withRegs { dataLo := 2, t0 := 560, t1 := 560, t2 := 1690 })) (fun t => t.encOut == .built [.mark 560, .space 560, .mark 560, .space 1690]) = true := by decide

/-- V93. -/
theorem test_codingPhase_V93 :
    nextIs (exec (.codingPhase .single 2) (withRegs { dataLo := 2, t0 := 900 })) (fun t => t.encOut == .built [.mark 900, .space 900, .mark 900, .space 900]) = true := by decide

/-- V96. -/
theorem test_codingQuad_V96 :
    nextIs (exec (.codingQuad .single 4) (withRegs { dataLo := 9, t0 := 100, t1 := 200, t2 := 300, t3 := 400, t4 := 500 })) (fun t => t.encOut == .built [.mark 100, .space 300, .mark 100, .space 400]) = true := by decide

/-- V78. -/
theorem test_repeatNone_V78 :
    nextIs (exec (.repeatNone .pulse 1) (withRegs { pulseRegs with gap := 1000, repeatCount := 7 })) (fun t => t.encOut == .built [.mark 600, .space 400, .space 1000]) = true := by decide

/-- V81. -/
theorem test_repeatSameframe_V81 :
    nextIs (exec (.repeatSameframe .pulse 1) (withRegs { pulseRegs with repeatCount := 2 })) (fun t => t.encOut == .built [.mark 600, .space 400, .mark 600, .space 400]) = true := by decide

/-- V85. -/
theorem test_repeatStoppauseonly_V85 :
    nextIs (exec (.repeatStoppauseonly .pulse 1) (withRegs pulseRegs)) (fun t => t.encOut == .rejected .unsupported) = true := by decide

/-- V83. -/
theorem test_repeatFoxtelweird_V83 :
    nextIs (exec (.repeatFoxtelweird .pulse 1) (withRegs { pulseRegs with gap := 1000, repeatCount := 1 })) (fun t => t.encOut == .built
      [.mark 600, .space 400, .space 1000, .mark 600, .space 400, .mark 600, .space 400]) = true := by decide

/-- V143, with SESSION Recv. -/
theorem test_rdreg_status : nextIs (exec (.rdreg 0x004) busyRecv) (fun t => t.rdata == 0x101E) = true := by decide

/-- V3. -/
theorem test_wrreg_V3 :
    nextIs (exec (.wrreg 0x00C 0xFFFFFFFF) State.reset) (fun t => t.regs.ctrl == 0x00007F0F) = true := by decide

/-- V6. -/
theorem test_wrreg_V6 : nextIs (exec (.wrreg 0x800 7) State.reset) (fun t => t == State.reset) = true := by decide

/-- V137. -/
theorem test_capbuf_V137 : nextIs (exec (.capbufRd 3) drained) (fun t => t.rdata == 0) = true := by decide

/-- W4: the third entry is -1690. -/
theorem test_capbuf_entry : nextIs (exec (.capbufRd 2) drained) (fun t => t.rdata == 0xFFFFF966) = true := by decide

/-- V7. -/
theorem test_busError_V7 : isBusError (exec (.busError .read 0x006 4) busy) = true := by decide

/-- V121. -/
theorem test_edgeBaseline_V121 :
    nextIs (exec (.edgeBaseline 1000 true) inLearn) (fun t => t.status == 0x201A && t.ref == 1000 && t.buf == []) = true := by decide

/-- V122. -/
theorem test_edgeRecord_V122 :
    nextIs (exec (.edgeRecord 1560 false) inRecv) (fun t => t.buf == [0xFFFFFDD0] && t.ref == 1560) = true := by decide

/-- V124. -/
theorem test_edgeRecord_V124 :
    nextIs (exec (.edgeRecord 0x100 true) { inRecv with ref := 0xFFFFFF00 }) (fun t => t.buf == [512]) = true := by decide

/-- V128. -/
theorem test_edgeIgnored_V128 :
    nextIs (exec (.edgeIgnored 7 true) State.reset) (fun t => t == State.reset) = true := by decide

/-- V134. -/
theorem test_timeout_V134 :
    nextIs (exec .timeout { inLearn with now := 10000000 }) (fun t => t.status == 3 && t.buf == []) = true := by decide

/-- R155, R156. -/
theorem test_txstep_last :
    nextIs (exec .txstep ({ txBusy := true, txq := [.space 400], txTrace := [.mark 600] } : State)) (fun t => t.txq == [] && t.txBusy == false && t.txTrace == [.mark 600, .space 400]) = true := by decide

/-- V48. -/
theorem test_sectionS_V48 :
    nextIs (exec (.sectionS [.c .pulse 8, .c .space 8]) State.reset) (fun t => t.front.malformed) = true := by decide

/-- R133. -/
theorem test_sectionD :
    nextIs (exec (.sectionD 12) State.reset) (fun t => t.front.desc.data == 12 && t.front.dSeen) = true := by decide

/-- V45. -/
theorem test_fieldC_V45 : nextIs (exec (.fieldC .pulse 65) State.reset) (fun t => t.front.malformed) = true := by decide

/-- R126. -/
theorem test_fieldH :
    nextIs (exec (.fieldH 9000 4500) State.reset) (fun t => t.front.desc.headerMark == 9000 && t.front.desc.headerSpace == 4500) = true := by decide

/-- V25. -/
theorem test_fieldT_V25 :
    nextIs (exec (.fieldT [560, 0, 1690]) State.reset) (fun t => t.front.desc.timings == ⟨560, 0, 1690, 0, 0⟩) = true := by decide

/-- R128. -/
theorem test_fieldP :
    nextIs (exec (.fieldP 20000) State.reset) (fun t => t.front.desc.pauseSpace == 20000) = true := by decide

/-- R129. -/
theorem test_fieldS :
    nextIs (exec (.fieldS 560 2000) State.reset) (fun t => t.front.desc.stopMark == 560 && t.front.desc.stopSpace == 2000) = true := by decide

/-- R130. -/
theorem test_fieldE : nextIs (exec (.fieldE 560) State.reset) (fun t => t.front.desc.endMark == 560) = true := by decide

/-- R131. -/
theorem test_fieldG : nextIs (exec (.fieldG 40000) State.reset) (fun t => t.front.desc.gap == 40000) = true := by decide

/-- V28. -/
theorem test_fieldR_V28 :
    nextIs (exec (.fieldR .e 1 0 0) State.reset) (fun t => t.front.desc.repeatMode == .stopPauseOnly && t.front.desc.repeatCount == 1) = true := by decide

/-- R96. -/
theorem test_ccharQuad :
    nextIs (exec .ccharQuad State.reset) (fun t => t.front.desc.codingScheme == .quad) = true := by decide

/-- R97. -/
theorem test_rcharSameframe :
    nextIs (exec .rcharSameframe State.reset) (fun t => t.front.desc.repeatMode == .sameFrame) = true := by decide

/-- 95_test_vectors 2.4, quantization. -/
theorem test_count :
    [0, 12, 13, 37, 38, 62, 63, 560, 9000].map (count Config.Params.reference) = [0, 0, 1, 1, 2, 2, 3, 22, 360] := by decide

/-- V113. -/
theorem test_electrical_V113 :
    electrical (expandAll Config.Params.reference [.mark 38, .space 100]) =
      [(true, 8), (false, 16), (true, 8), (false, 116)] := by decide

/-- R275: a mark of 560 lasts 528 µs, 100 of them gone. -/
theorem test_step_time : nextIs (step busy) (fun t => t.now == 428 && t.txq == [.space 560]) = true := by decide

/-- V120, as the first operation after reset (log 2). -/
theorem test_fetch_from_reset :
    nextIs (step (State.reset.withFetchWord 32 0x2)) (fun t => t.status == 0x2019) = true := by decide

/-- V141. -/
theorem test_reset_V141 :
    nextIs (runInput .rst { inRecv with buf := [1, 2], rdLen := 0 }) (fun t => t.status == 0 && t.buf == []) = true := by decide

/-- V16. -/
theorem test_memory_bytes :
    ([0x00C, 0x00D, 0x00E, 0x00F].map (withRegs { ctrl := 0x400 }).readByte) = [0x00, 0x04, 0x00, 0x00] := by decide

/-! ### Witnesses: states and operands that meet the hypotheses of the obligations -/

theorem witness_inv_busy : busy.Inv := by
  constructor <;> decide

theorem witness_inv_inLearn : inLearn.Inv := by
  constructor <;> decide

theorem witness_inv_inRecv : inRecv.Inv := by
  constructor <;> decide

theorem witness_inv_inLearnt : inLearnt.Inv := by
  constructor <;> decide

theorem witness_inv_drained : drained.Inv := by
  constructor <;> decide

theorem witness_inv_smallLearn : smallLearn.Inv := by
  constructor <;> decide

theorem witness_inv_busyRecv : busyRecv.Inv := by
  constructor <;> decide

theorem witness_inv_atDeadline : atDeadline.Inv := by
  constructor <;> decide

theorem witness_inv_withRegs : (withRegs pulseRegs).Inv := by
  constructor <;> decide

theorem witness_DecodeEncodeAgree :
    Instr.wellFormed (.edgeRecord 5 true) = true ∧ Instr.selectedIn true .recv (.edgeRecord 5 true) = true := by decide

theorem witness_DecodeEncodeAgree_text :
    Instr.wellFormed (.sectionS [.c .quad 64, .t [1, 2, 3, 4, 5]]) = true ∧
      Instr.selectedIn false .idle (.sectionS [.c .quad 64, .t [1, 2, 3, 4, 5]]) = true := by decide

theorem witness_DecoderAccepts_error : decode false .idle (.text .whole ['q', '=', '1']) = .error .sectionHead := by decide

theorem witness_CommandDecode : Instr.format .learn = .cmd ∧ busy.txBusy = true ∧ State.reset.txBusy = false := by decide

theorem witness_ImageDenotesDescriptor : pulseRegs.ctrl &&& 0x00007F0F = pulseRegs.ctrl := by decide

theorem witness_ParseSerRoundTrip :
    ({ dataBits := 64 } : Descriptor).dataBits.toNat ≤ 64 ∧ ({ dataBits := 64 } : Descriptor).repeatCount = 0 ∧
      ({ dataBits := 64 } : Descriptor).foxtelGap = 0 ∧ ({ dataBits := 64 } : Descriptor).foxtelMask = 0 := by decide

theorem witness_ParseSerRoundTrip_repeat :
    ({ repeatMode := .foxtelWeird } : Descriptor).dataBits.toNat ≤ 64 ∧
      ({ repeatMode := .foxtelWeird } : Descriptor).repeatMode ≠ .single := by decide

theorem witness_WrregEffect_register : DescReg.foxtelMaskHi ≠ .ctrl := by decide

theorem witness_WrregEffect_elsewhere :
    ∀ a ∈ ([0x004, 0x008, 0x058, 0xFFC, 0x1000, 0x1FFC] : List Offset),
      a.toNat % 4 = 0 ∧ a ≠ 0x000 ∧ ∀ r ∈ descRegs, a ≠ r.offset := by decide

theorem witness_WrregChangesFourBytes :
    nextIs (exec (.wrreg (DescReg.offset .ctrl) 0xFFFFFFFF) busy) (fun t =>
      t.readByte 0x00B == 0 && t.readByte 0x00C == 0x0F && t.readByte 0x00F == 0 && t.readByte 0x010 == 0) = true := by decide

theorem witness_RdregEffect_reserved :
    ∀ a ∈ ([0x058, 0xFFC] : List Offset), a.toNat % 4 = 0 ∧ 0x058 ≤ a.toNat ∧ a.toNat < 0x1000 := by decide

theorem witness_CapbufReadEffect :
    (2 : BitVec 10).toNat < drained.buf.length ∧ (2 : BitVec 10).toNat < drained.rdLen.toNat ∧
      drained.rdLen.toNat ≤ (3 : BitVec 10).toNat := by decide

theorem witness_BusErrorStops :
    (2 ≠ 4 ∨ (0x00C : Offset).toNat % 4 ≠ 0) ∧ (4 ≠ 4 ∨ (0x006 : Offset).toNat % 4 ≠ 0) := by decide

theorem witness_SendEffect : (withRegs pulseRegs).txBusy = false ∧ valid (withRegs pulseRegs).descriptor = true := by decide

theorem witness_SendEffect_tooLong :
    (withRegs { ctrl := 0x4100 }).txBusy = false ∧ 64 < (descriptorOf (withRegs { ctrl := 0x4100 }).regs).dataBits.toNat := by decide

theorem witness_SendEffect_oddQuad :
    (descriptorOf (withRegs { ctrl := 0x303 }).regs).codingScheme = .quad ∧
      (descriptorOf (withRegs { ctrl := 0x303 }).regs).dataBits.toNat % 2 = 1 := by decide

theorem witness_LearnEffect :
    State.reset.txBusy = false ∧ State.reset.session = .idle ∧ inLearnt.txBusy = false ∧ inLearnt.session ≠ .idle := by decide

theorem witness_ReadEffect :
    inLearnt.txBusy = false ∧ inLearnt.session = .learnt ∧ inRecv.txBusy = false ∧ inRecv.session ≠ .learnt := by decide

theorem witness_PulseCoding : (64 : BitVec 7).toNat ≤ 64 ∧ 64 < (65 : BitVec 7).toNat := by decide

theorem witness_PhaseCoding :
    State.reset.cfg.phaseMode = .literal ∧
      ({ cfg := { phaseMode := .bipolar } } : State).cfg.phaseMode = .bipolar := by decide

theorem witness_QuadCoding :
    (64 : BitVec 7).toNat ≤ 64 ∧ (64 : BitVec 7).toNat % 2 = 0 ∧ (63 : BitVec 7).toNat % 2 = 1 := by decide

theorem witness_RepeatOperations :
    ((64 : BitVec 7).toNat ≤ 64 ∧ (CodingScheme.quad = .quad → (64 : BitVec 7).toNat % 2 = 0)) ∧
      (64 < (65 : BitVec 7).toNat ∨ (CodingScheme.pulse = .quad ∧ (65 : BitVec 7).toNat % 2 = 1)) := by decide

theorem witness_FrameParts : ({} : Descriptor).dataBits = 0 := by decide

theorem witness_PayloadLength : 64 % 2 = 0 ∧ 63 < 64 := by decide

theorem witness_FrameCount :
    (withRegs pulseRegs).txBusy = false ∧ nextIs (exec .send (withRegs pulseRegs)) (fun t => t.err == .ok) = true := by decide

theorem witness_TxstepEffect : busy.txq = .mark 560 :: [.space 560] ∧ State.reset.txq = [] := by decide

theorem witness_QueueIsEmittedInOrder : (busy.txBusy = true ↔ busy.txq ≠ []) ∧ busy.txq ≠ [] := by decide

theorem witness_TrailingOffTime : 13 ≤ (13 : Word).toNat := by decide

theorem witness_SendTakesItsDuration : busy.Inv ∧ busy.inbox = [] ∧ busy.tmoPending = false := ⟨witness_inv_busy, by decide⟩

theorem witness_DescriptorRegistersAreTheHosts :
    (∀ a v, Instr.learn ≠ .wrreg a v) ∧ ∃ t, exec .learn State.reset = .next t := ⟨fun _ _ h => (by cases h), _, rfl⟩

theorem witness_EdgeBaselineAndIgnored :
    inLearn.edgeEn = true ∧ inLearn.session = .learn ∧ State.reset.edgeEn = false := by decide

theorem witness_EdgeRecordEffect : inRecv.edgeEn = true ∧ inRecv.session = .recv := by decide

theorem witness_EdgeRecordEffect_full :
    { inRecv with cfg := { capN := 2 } }.session = .recv ∧
      nextIs (exec (.edgeRecord 5 true) { inRecv with cfg := { capN := 2 } }) (fun t => t.full) = true := by decide

theorem witness_TimeoutEffect :
    atDeadline.tmoPending = true ∧ atDeadline.now = atDeadline.tmoDeadline ∧ atDeadline.session = .recv := by decide

theorem witness_TimeoutEffect_idle :
    { atDeadline with session := .learnt }.tmoPending = true ∧
      { atDeadline with session := .learnt }.now = { atDeadline with session := .learnt }.tmoDeadline := by decide

theorem witness_CaptureEntryMeaning : (0x7FFFFFFF : Word).toNat < 2 ^ 31 := by decide

theorem witness_SessionExits_timeout :
    atDeadline.session = .recv ∧ nextIs (exec .timeout atDeadline) (fun t => t.session != .learn && t.session != .recv) = true := by decide

theorem witness_SessionExits_full :
    nextIs (exec (.edgeRecord 5 true) { inRecv with cfg := { capN := 2 } }) (fun t =>
      t.session != .learn && t.session != .recv) = true := by decide

theorem witness_BufferDiscipline :
    Instr.wellFormed .learn = true ∧ nextIs (exec .learn drained) (fun t => t.buf == []) = true := by decide

theorem witness_BufferDiscipline_append :
    nextIs (exec (.edgeRecord 5 true) inRecv) (fun t => t.buf.length == 1) = true := by decide

theorem witness_CapacityBoundary :
    smallLearn.Inv ∧ smallLearn.session = .learn ∧ [(5, true), (6, false)].length = smallLearn.cfg.capN ∧
      [(5, true)].length = smallLearn.cfg.capN - 1 := ⟨witness_inv_smallLearn, by decide⟩

theorem witness_ReadTwice : inLearnt.Inv ∧ inLearnt.txBusy = false ∧ inLearnt.session = .learnt := ⟨witness_inv_inLearnt, by decide⟩

theorem witness_ArmedTimeoutOnlyRunsDown :
    busyRecv.Inv ∧ busyRecv.tmoPending = true ∧ nextIs (step busyRecv) (fun t => t.tmoPending) = true := ⟨witness_inv_busyRecv, by decide⟩

theorem witness_SessionEndsAtTheDeadline : busyRecv.Inv ∧ busyRecv.inbox = [] ∧ busyRecv.tmoPending = true := ⟨witness_inv_busyRecv, by decide⟩

theorem witness_EdgeAndTimeoutInEitherOrder :
    atDeadline.Inv ∧ atDeadline.session = .recv ∧ atDeadline.now = atDeadline.tmoDeadline := ⟨witness_inv_atDeadline, by decide⟩

theorem witness_ResultsAreWrittenByCommandsOnly :
    Instr.wellFormed (.rdreg 0x004) = true ∧ Instr.format (.rdreg 0x004) ≠ .cmd ∧
      ∃ t, exec (.rdreg 0x004) busy = .next t := ⟨by decide, by decide, _, rfl⟩

theorem witness_FieldOperations :
    State.reset.front.malformed = false ∧ FieldLetter.T ∉ State.reset.front.seen ∧ 1 ≤ [(5 : Word)].length ∧
      [(1 : Word), 2, 3, 4, 5].length ≤ 5 := by decide

theorem witness_FieldRejections :
    ({ front := { seen := [.C] } } : State).front.malformed = false ∧
      Field.letter (.c .pulse 8) ∈ ({ front := { seen := [.C] } } : State).front.seen := by decide

theorem witness_FieldRejections_range :
    State.reset.front.malformed = false ∧ Field.wellFormed (.c .pulse 65) = false ∧
      Field.wellFormed (.t [1, 2, 3, 4, 5, 6]) = false := by decide

/-- R134: the last word in range and the first out of it. -/
theorem witness_FieldRejections_decimal :
    isDec ['4', '2', '9', '4', '9', '6', '7', '2', '9', '5'] = true ∧ spelled 10 ['4', '2', '9', '4', '9', '6', '7', '2', '9', '5'] = 4294967295 ∧
      isDec ['4', '2', '9', '4', '9', '6', '7', '2', '9', '6'] = true ∧ spelled 10 ['4', '2', '9', '4', '9', '6', '7', '2', '9', '6'] = 4294967296 := by decide

/-- R125, and leading zeros (V26). -/
theorem witness_FieldRejections_dataBits :
    isDec ['0', '6', '4'] = true ∧ spelled 10 ['0', '6', '4'] = 64 ∧ isDec ['6', '5'] = true ∧
      spelled 10 ['6', '5'] = 65 := by decide

/-- R127: an empty entry. -/
theorem witness_FieldRejections_entries :
    1 ≤ [['7'], []].length ∧ [['7'], []].length ≤ 5 ∧
      ∀ e ∈ [['7'], []], e = [] ∨ isDec e = true := by decide

/-- R135: the last value in range, hexadecimal. -/
theorem witness_FieldRejections_hexadecimal :
    spellsNum64 ['0', 'x', 'f', 'f', 'F', 'F', 'f', 'f', 'f', 'f', 'f', 'f', 'f', 'f', 'f', 'f', 'f', 'f'] (2 ^ 64 - 1) := Or.inr ⟨['f', 'f', 'F', 'F', 'f', 'f', 'f', 'f', 'f', 'f', 'f', 'f', 'f', 'f', 'f', 'f'], by decide, by decide, by decide⟩

/-- R135: the first out of range. -/
theorem witness_FieldRejections_hexadecimal_out :
    spellsNum64 ['0', 'x', '1', '0', '0', '0', '0', '0', '0', '0', '0', '0', '0', '0', '0', '0', '0', '0', '0'] (2 ^ 64) := Or.inr ⟨['1', '0', '0', '0', '0', '0', '0', '0', '0', '0', '0', '0', '0', '0', '0', '0', '0'], by decide, by decide, by decide⟩

/-- R135: the same in decimal. -/
theorem witness_FieldRejections_num64_decimal :
    spellsNum64 ['1', '8', '4', '4', '6', '7', '4', '4', '0', '7', '3', '7', '0', '9', '5', '5', '1', '6', '1', '6'] (2 ^ 64) := Or.inl (by decide)

theorem witness_SectionOperations :
    sectionWellFormed [.g 5, .c .pulse 8] = true ∧ State.reset.front.sSeen = false ∧
      State.reset.front.seen = [] ∧ State.reset.front.dSeen = false := by decide

theorem witness_SectionOperations_second :
    ({ front := { sSeen := true, dSeen := true } } : State).front.malformed = false ∧
      ({ front := { sSeen := true, dSeen := true } } : State).front.sSeen = true ∧
      ({ front := { sSeen := true, dSeen := true } } : State).front.dSeen = true := by decide

theorem witness_SectionOperations_request :
    decode false .idle (.text .whole ['s', '=', 'C', '=', 'M', ',', '8']) = .ok (.sectionS [.c .pulse 8]) ∧
      decode false .idle (.text .whole ['d', '=', '0', 'x', 'A']) = .ok (.sectionD 10) ∧
      FieldLetter.G ∉ [Field.c .pulse 8].map Field.letter ∧ sectionWellFormed [.c .pulse 8] = true := by decide

theorem witness_FieldOrderIsFree :
    [Field.g 5, .c .pulse 8].Perm [.c .pulse 8, .g 5] ∧ sectionWellFormed [.g 5, .c .pulse 8] = true := ⟨.swap _ _ _, by decide⟩

theorem witness_ForeignCharactersAreMalformed :
    ' ' ∈ [' ', '\t', '+', '-', '.'] ∧ ' ' ∈ ['s', '=', 'C', '=', 'M', ',', ' ', '8'] := by decide

theorem witness_ForeignCharactersAreMalformed_section :
    ['q', '=', '1'] ∈ splitOn '&' ['s', '=', 'C', '=', 'M', ',', '8', '&', 'q', '=', '1'] ∧
      decode false .idle (.text .whole ['q', '=', '1']) = .error .sectionHead := by decide

theorem witness_ForeignCharactersAreMalformed_item :
    ['E', '=', '4', '2', '9', '4', '9', '6', '7', '2', '9', '6'] ∈ splitOn ';' ['C', '=', 'M', ',', '8', ';', 'E', '=', '4', '2', '9', '4', '9', '6', '7', '2', '9', '6'] ∧ ['E', '=', '4', '2', '9', '4', '9', '6', '7', '2', '9', '6'] ≠ [] ∧
      decode false .idle (.text .item ['E', '=', '4', '2', '9', '4', '9', '6', '7', '2', '9', '6']) = .error .range := by decide

theorem witness_ForeignCharactersAreMalformed_request :
    isRequest ['d', '=', '5', '&', 's', '=', 'C', '=', 'M', ',', '8'] := ⟨['s', '=', 'C', '=', 'M', ',', '8'], ⟨[['C', '=', 'M', ',', '8']], [.C], by decide, by decide, by decide,
      .cons ⟨'M', by decide, ['8'], by decide, by decide, by decide⟩ .nil⟩,
      .inr ⟨['d', '=', '5'], ⟨['5'], by decide, 5, .inl (by decide), by decide⟩, .inr (by decide)⟩⟩

/-- For CodingFieldIsRequired, SendTxtExpansion and SendTxtLoadsTheImageAndSends. -/
theorem witness_ParseSome : parse ['s', '=', 'C', '=', 'M', ',', '8'] = some { dataBits := 8 } := by decide

theorem witness_SpaceCoding : (64 : BitVec 7).toNat ≤ 64 ∧ 64 < (65 : BitVec 7).toNat := by decide

theorem witness_CharacterOperations : State.reset.front.malformed = false := by decide

theorem witness_BurstQuantization : (12 : Word).toNat ≤ 12 := by decide

theorem witness_PulseSilenceIsFixed : 63 < 64 := by decide

theorem witness_RdregEffect_window : 1023 < 1024 := by decide

theorem witness_CodingFieldIsRequired : ∃ d, parse ['s', '=', 'C', '=', 'M', ',', '8'] = some d := ⟨_, witness_ParseSome⟩

theorem witness_SendTxtLoadsTheImageAndSends : ∃ d, parse ['s', '=', 'C', '=', 'M', ',', '8'] = some d := ⟨_, witness_ParseSome⟩

theorem witness_TransmitAndCaptureCommute : ∃ ts lvl, Instr.edgeRecord 5 true = .edgeRecord ts lvl := ⟨5, true, rfl⟩

theorem witness_ParseNone : parse ['d', '=', '5'] = none := by decide

theorem witness_SendTxtExpansion :
    (∃ d, parse ['s', '=', 'C', '=', 'M', ',', '8'] = some d) ∧ parse ['d', '=', '5'] = none := ⟨⟨_, witness_ParseSome⟩, witness_ParseNone⟩

theorem witness_StepRunsTheDecodedInstruction :
    decode false .idle (.read 0x004 4) = .ok (.rdreg 0x004) ∧ busy.nextInternal = some (428, .txstep) ∧
      busy.due { wait := 3, input := .raw (.read 0x004 4) } ≤ 428 := by decide

theorem witness_StepRunsTheBlocksOwnInstruction :
    busy.nextInternal = some (428, .txstep) ∧ busy.inbox = [] ∧
      428 < busy.due { wait := 500, input := .rst } := by decide

theorem witness_StepRunsTheBlocksOwnInstruction_sequencer :
    busy.Inv ∧ busy.nextInternal = some (428, .txstep) ∧ busy.txq = .mark 560 :: [.space 560] ∧
      (busy.elapse 428).txPhase = segmentUs busy.cfg (.mark 560) := ⟨witness_inv_busy, by decide⟩

theorem witness_StepRunsTheBlocksOwnInstruction_timer :
    inRecv.nextInternal = some (10000000, .timeout) ∧ inRecv.tmoPending = true := by decide

theorem witness_StepKeepsInv : busyRecv.Inv ∧ nextIs (step busyRecv) (fun _ => true) = true := ⟨witness_inv_busyRecv, by decide⟩

theorem witness_LegalInputsNeverStop :
    { busy with inbox := [{ wait := 3, input := .raw (.read 0x004 4) }, { wait := 0, input := .drain }] }.inboxLegal = true := by decide

end Sys2Proof.Machine.Test
end

section
/-! PROOFS. The family of 10_state.md: every step keeps the invariant, the register image of a Descriptor, and what is
written by commands only. -/

namespace Sys2Proof.Machine

/-! ### The invariant through one step -/

/-- The reset pin leads to a state of the invariant: nothing is armed, queued or captured, and the parameters stay
(R260; log 17). -/
theorem inv_resetPin {s : State} (hI : s.Inv) : s.resetPin.Inv where
  cfg_legal := hI.cfg_legal
  busy_iff_queue := by simp [State.resetPin, State.reset]
  edge_iff_armed := rfl
  timeout_iff_armed := rfl
  buf_bound := Nat.zero_le _
  recv_room := by simp [State.resetPin, State.reset]
  learn_empty := fun _ => rfl
  window_bound := Nat.le_refl _
  window_closed := fun _ => rfl
  full_not_armed := fun _ => rfl
  ctrl_masked := by simp [State.resetPin, State.reset]
  phase_in_range := rfl
  deadline_near := by simp [State.resetPin, State.reset]

/-- Every input that gives a next state keeps the invariant: an instruction does, the reset pin does, and the host's
side touches only what the invariant does not speak of. -/
theorem inv_runInput {inp : Input} {s t : State} (hI : s.Inv) (h : runInput inp s = .next t) : t.Inv := by
  obtain ⟨_, _, -, -, hexec⟩ | ⟨-, rfl⟩ | ht := runInput_next h
  · exact inv_exec hI hexec
  · exact inv_resetPin hI
  · rw [ht]
    exact { hI with }

/-- Settles O59: the time that passes keeps the invariant, and so does what happens after it, be it the block's own
instruction, nothing, or an input. -/
theorem stepKeepsInv : Obligations.StepKeepsInv := by
  intro s t hI hstep
  obtain ⟨n, r, hseg, hdeadline, hact⟩ := step_next hstep
  have helapsed := inv_elapse s n hI hseg hdeadline
  obtain ⟨i, -, hexec⟩ | ⟨-, rfl⟩ | ⟨p, -, hinput⟩ := hact
  · exact inv_exec (helapsed r) hexec
  · exact helapsed s.inbox
  · exact inv_runInput (helapsed r) hinput

/-! ### Register images -/

/-- A register file with the reserved bits of DESC_CTRL 0 is the image of the Descriptor it denotes (R32, R33). -/
theorem imageOf_descriptorOf {g : DescRegs} (hctrl : g.ctrl &&& 0x00007F0F = g.ctrl) :
    imageOf (descriptorOf g) = g := by
  simp only [imageOf, descriptorOf, ctrlWord_fields_of, hctrl, lowHalf_pair64, highHalf_pair64]

/-- Settles O5: the two directions are the laws of `descriptorOf` and `imageOf`. -/
theorem imageDenotesDescriptor : Obligations.ImageDenotesDescriptor :=
  ⟨descriptorOf_imageOf, fun _ => imageOf_descriptorOf⟩

/-! ### What commands write -/

/-- A well-formed instruction that is no command is no write to CMD either (R114). -/
theorem not_command_of_wellFormed {i : Instr} (hw : i.wellFormed = true) (hf : i.format ≠ .cmd) :
    ¬ (i.format = .cmd ∨ ∃ v, i = .wrreg 0 v) := by
  rintro (hc | ⟨v, rfl⟩)
  · exact hf hc
  · simp [Instr.wellFormed] at hw

/-- Settles O43: of the effects an instruction can have, those of a command are excluded, and the others leave ERR,
RESULT, RD_LEN and DESC_SNAP alone. -/
theorem resultsAreWrittenByCommandsOnly : Obligations.ResultsAreWrittenByCommandsOnly := by
  intro i s t hw hf hexec
  have hno := not_command_of_wellFormed hw hf
  cases exec_next hexec with
  | commandBusy _ _ hc => exact absurd hc hno
  | sends _ _ hc => exact absurd (hc.imp_left (· ▸ rfl)) hno
  | learns _ _ hc => exact absurd (hc.imp_left (· ▸ rfl)) hno
  | reads _ _ hc => exact absurd (hc.imp_left (· ▸ rfl)) hno
  | illegal _ _ hc => exact absurd hc hno
  | writes => rw [writeReg_eq]; exact ⟨rfl, rfl, rfl, rfl⟩
  | record ts l =>
    obtain ⟨e, ⟨-, heq⟩ | ⟨-, heq⟩⟩ := recordEffect_cases s ts l <;> rw [heq] <;> exact ⟨rfl, rfl, rfl, rfl⟩
  | fires => rw [timeoutEffect_eq]; exact ⟨rfl, rfl, rfl, rfl⟩
  | answers | encodes | text | baseline | emits | stutters => exact ⟨rfl, rfl, rfl, rfl⟩

end Sys2Proof.Machine
end

section
/-! PROOFS. The family of 20_memory.md: a run with legal accesses only never stops, the bytes a register write changes,
bus errors, and the step that takes the next input. -/

namespace Sys2Proof.Machine

/-! ### One step, as an equation -/

/-- An input that is due no later than the block's own next step is taken (R71, R72). -/
theorem step_eq_stepInput {s : State} {p : Pending} {rest : List Pending} (hbox : s.inbox = p :: rest)
    (hdue : ∀ n i, s.nextInternal = some (n, i) → s.due p ≤ n) : step s = stepInput p rest s := by
  simp only [step, nextStep, hbox]
  split
  · next n i hi => rw [if_neg (Nat.not_lt.mpr (hdue n i hi))]
  · rfl

/-- What a step is: the block's own next instruction, with the same inputs still to come; a microsecond of the time
base; or the next input. -/
theorem step_cases (s : State) :
    (∃ n i r, s.nextInternal = some (n, i) ∧ r.map Pending.input = s.inbox.map Pending.input ∧
      step s = exec i ({ s with inbox := r }.elapse n)) ∨
    step s = .next (s.elapse 1) ∨
    ∃ p rest, s.inbox = p :: rest ∧ step s = stepInput p rest s := by
  cases hbox : s.inbox with
  | nil =>
    cases hint : s.nextInternal with
    | none => exact .inr (.inl (by simp only [step, nextStep, hbox, stepAlone, hint]))
    | some own =>
      refine .inl ⟨own.1, own.2, [], rfl, rfl, ?_⟩
      simp only [step, nextStep, hbox, stepAlone, hint]
      rw [← hbox]
  | cons p rest =>
    by_cases hown : ∃ n i, s.nextInternal = some (n, i) ∧ n < s.due p
    · obtain ⟨n, i, hint, hlt⟩ := hown
      refine .inl ⟨n, i, { p with wait := p.wait - n } :: rest, hint, rfl, ?_⟩
      simp only [step, nextStep, hbox, hint, if_pos hlt, stepBefore]
    · refine .inr (.inr ⟨p, rest, rfl, step_eq_stepInput hbox fun n i hint => ?_⟩)
      exact Nat.not_lt.mp fun hlt => hown ⟨n, i, hint, hlt⟩

/-- Settles O53: the input is taken, its time passes as the model writes it, and it runs as what it decodes to. -/
theorem stepRunsTheDecodedInstruction : Obligations.StepRunsTheDecodedInstruction := by
  intro s p rest r i hbox hraw hdec hdue
  have htime : { s with inbox := rest }.elapse (s.due p) = { s with
      inbox := rest
      now := s.now + BitVec.ofNat 32 (s.due p)
      txPhase := if s.txq = [] then s.txPhase else s.txPhase + s.due p } := by
    simp only [State.elapse, List.isEmpty_iff]
  rw [step_eq_stepInput hbox hdue, stepInput, htime, hraw]
  simp only [runInput, hdec]

/-! ### Legal inputs -/

/-- Whether the inputs to come are legal is a matter of the inputs, not of the time before them. -/
theorem inboxLegal_congr {s t : State} (h : t.inbox.map Pending.input = s.inbox.map Pending.input) :
    t.inboxLegal = s.inboxLegal := by
  have hmap : ∀ u : State, u.inboxLegal = (u.inbox.map Pending.input).all legalInput := fun u => by
    rw [List.all_map]; rfl
  rw [hmap, hmap, h]

/-- Legal inputs put before legal ones (log 16). -/
theorem inboxLegal_push {s : State} {ps : List Pending} (hps : ∀ p ∈ ps, legalInput p.input = true)
    (hs : s.inboxLegal = true) : (s.push ps).inboxLegal = true := by
  simp only [State.inboxLegal, push_inbox, List.all_append, Bool.and_eq_true, List.all_eq_true] at hs ⊢
  exact ⟨hps, hs⟩

theorem legalInput_readAt {a : Offset} (ha : aligned a = true) : legalInput (readAt a).input = true := by
  simp [readAt, legalInput, legalRaw, ha]

theorem legalInput_writeAt {a : Offset} (ha : aligned a = true) (v : Word) :
    legalInput (writeAt a v).input = true := by
  simp [writeAt, legalInput, legalRaw, ha]

/-- The accesses of SENDTXT are aligned 32-bit writes (R110). -/
theorem sendTxtAccesses_legal (d : Descriptor) : ∀ p ∈ sendTxtAccesses d, legalInput p.input = true := by
  intro p hp
  obtain hreg | hsend := List.mem_append.mp hp
  · obtain ⟨r, -, rfl⟩ := List.mem_map.mp hreg
    exact legalInput_writeAt (aligned_offset r) _
  · rw [List.mem_singleton.mp hsend]
    exact legalInput_writeAt rfl 1

/-- Every word of the window is at an aligned offset (R61, R63). -/
theorem aligned_capbufOffset (i : Nat) : aligned (capbufOffset i) = true := by
  simp [aligned, capbufOffset]

/-- An instruction the block runs by itself always gives a next state (R80, R235). -/
theorem exec_nextInternal_total {s : State} {n : Nat} {i : Instr} (h : s.nextInternal = some (n, i)) (u : State) :
    ∃ t, exec i u = .next t := by
  obtain ⟨rfl, -⟩ | ⟨rfl, -⟩ := nextInternal_cases h
  · exact exec_legal (r := .internal .sequencer) (e := u.edgeEn) (ses := u.session) rfl rfl u
  · exact exec_legal (r := .internal .timer) (e := u.edgeEn) (ses := u.session) rfl rfl u

/-- No instruction touches the inputs to come, so it keeps them legal. -/
theorem inboxLegal_exec {i : Instr} {s t : State} (h : exec i s = .next t) (hs : s.inboxLegal = true) :
    t.inboxLegal = true :=
  (inboxLegal_congr (by rw [(exec_inbox_cfg h).1])).trans hs

/-- A legal input gives a next state, and what it puts before the other inputs is legal (R80, R110, R235). -/
theorem runInput_legal {inp : Input} {s : State} (hinp : legalInput inp = true) (hs : s.inboxLegal = true) :
    ∃ t, runInput inp s = .next t ∧ t.inboxLegal = true := by
  cases inp with
  | raw r =>
    cases hdec : decode s.edgeEn s.session r with
    | ok i =>
      obtain ⟨t, ht⟩ := exec_legal hinp hdec s
      exact ⟨t, by simp only [runInput, hdec, ht], inboxLegal_exec ht hs⟩
    | error e => exact ⟨s.onFront Front.reject, by simp only [runInput, hdec], hs⟩
  | rst => exact ⟨_, rfl, hs⟩
  | sendTxt req =>
    refine ⟨_, rfl, ?_⟩
    unfold sendTxt
    split
    · next d _ => exact inboxLegal_push (sendTxtAccesses_legal d) hs
    · exact hs
  | waitTx => exact ⟨_, rfl, inboxLegal_push (by decide) hs⟩
  | waitTxTest =>
    refine ⟨_, rfl, ?_⟩
    unfold waitTxTest
    split
    · exact inboxLegal_push (by decide) hs
    · exact hs
  | drain => exact ⟨_, rfl, inboxLegal_push (by decide) hs⟩
  | drainWindow =>
    refine ⟨_, rfl, inboxLegal_push (fun p hp => ?_) hs⟩
    obtain ⟨i, -, rfl⟩ := List.mem_map.mp hp
    exact legalInput_readAt (aligned_capbufOffset i)

/-- With legal inputs to come, a step gives a next state with legal inputs to come (R80, R235, R237). -/
theorem step_legal {s : State} (hs : s.inboxLegal = true) : ∃ t, step s = .next t ∧ t.inboxLegal = true := by
  obtain ⟨n, i, r, hint, hsame, hstep⟩ | hstep | ⟨p, rest, hbox, hstep⟩ := step_cases s
  · obtain ⟨t, ht⟩ := exec_nextInternal_total hint ({ s with inbox := r }.elapse n)
    exact ⟨t, hstep.trans ht, inboxLegal_exec ht ((inboxLegal_congr hsame).trans hs)⟩
  · exact ⟨_, hstep, hs⟩
  · simp only [State.inboxLegal, hbox, List.all_cons, Bool.and_eq_true] at hs
    obtain ⟨hinput, hrest⟩ := hs
    rw [hstep]
    exact runInput_legal hinput hrest

/-- Settles O60, by induction on the number of steps. -/
theorem legalInputsNeverStop : Obligations.LegalInputsNeverStop := by
  intro k
  induction k with
  | zero => exact fun s hs => ⟨s, rfl, hs⟩
  | succ k ih =>
    intro s hs
    obtain ⟨t, hstep, ht⟩ := step_legal hs
    rw [run_next k s t hstep]
    exact ih t ht

/-! ### The bytes of a register -/

theorem offset_mod_four (r : DescReg) : r.offset.toNat % 4 = 0 := by
  simpa [aligned] using aligned_offset r

/-- The offsets that name a descriptor register are those of its four bytes (R61, R64). -/
theorem target_eq_desc_iff (b : Offset) (r : DescReg) :
    target b = .desc r ↔ r.offset.toNat ≤ b.toNat ∧ b.toNat < r.offset.toNat + 4 := by
  constructor
  · intro h
    have := offset_of_target_desc b r h
    omega
  · intro h
    have hword := offset_mod_four r
    rw [target_congr b r.offset (by omega), target_offset]

/-- What the bits of a word written to a descriptor register become: only DESC_CTRL discards some (R33, R114). -/
theorem storedBits_eq (r : DescReg) (v : Word) : storedBits r v = if r = .ctrl then v &&& 0x00007F0F else v := by
  cases r <;> rfl

/-- After a change of one descriptor register, a read answers the new word where the offset names that register, and
everywhere else what it did before (R68, R113). -/
theorem readWord_set (s : State) (r : DescReg) (w : Word) (b : Offset) :
    { s with regs := s.regs.set r w }.readWord b = if target b = .desc r then w else s.readWord b := by
  unfold State.readWord
  cases target b with
  | desc q => simp only [descRegs_get_set, Target.desc.injEq]
  | cmd | status | result | reserved | window => exact (if_neg nofun).symm

/-- Settles O8: the word read at a byte's offset is the stored one exactly in the register's four bytes, and there the
byte's lane is its distance from the register's offset. -/
theorem wrregChangesFourBytes : Obligations.WrregChangesFourBytes := by
  intro s t r v hexec b
  rw [exec_wrreg_desc] at hexec
  cases hexec
  simp only [State.readByte, readWord_set, target_eq_desc_iff, storedBits_eq]
  split
  · next hin =>
    have hword := offset_mod_four r
    rw [show b.toNat % 4 = b.toNat - r.offset.toNat by omega]
  · rfl

/-! ### Bus errors -/

theorem aligned_eq_false_iff (a : Offset) : aligned a = false ↔ a.toNat % 4 ≠ 0 := by
  simp [aligned]

/-- A read of another width or at a misaligned offset (R62, R63, R80). -/
theorem decodeRead_busError {a : Offset} {w : Nat} (h : w ≠ 4 ∨ a.toNat % 4 ≠ 0) :
    decodeRead a w = .busError .read a w := by
  unfold decodeRead
  rw [if_neg]
  rintro ⟨hw, ha⟩
  obtain hwidth | hmis := h
  · exact hwidth hw
  · rw [(aligned_eq_false_iff a).mpr hmis] at ha
    cases ha

/-- A write of another width or at a misaligned offset (R62, R63, R80). -/
theorem decodeWrite_busError {a : Offset} {lanes : List Byte} (h : lanes.length ≠ 4 ∨ a.toNat % 4 ≠ 0) :
    decodeWrite a lanes = .busError .write a lanes.length := by
  unfold decodeWrite
  split
  · obtain hwidth | hmis := h
    · exact absurd rfl hwidth
    · rw [(aligned_eq_false_iff a).mpr hmis]; rfl
  · rfl

/-- Settles O12: the decoder takes every access the port does not accept for BUS_ERROR, and the accesses of a register
look at the offset first. -/
theorem busErrorStops : Obligations.BusErrorStops := by
  refine fun s edgeEn ses a => ⟨fun w h => ?_, fun lanes h => ?_, fun _ _ => rfl, fun h => ?_⟩
  · rw [decode, decodeRead_busError h]
  · rw [decode, decodeWrite_busError h]
  · have hmis := (aligned_eq_false_iff a).mpr h
    constructor
    · simp [exec, execRdreg, portRead, hmis, busErrorStop]
    · intro v
      simp [exec, execWrreg, hmis, busErrorStop]

end Sys2Proof.Machine
end

section
/-! PROOFS. The family of 30_encoding.md: decoder and encoder agree, the register port, STATUS, the numbers of a request,
the textual front-end's characters and the accesses of SENDTXT. -/

namespace Sys2Proof.Machine

/-! ### The operand checks of a row -/

theorem illegalCmd_wellFormed_iff (op : BitVec 4) :
    (Instr.illegalCmd op).wellFormed = true ↔ op ≠ 1 ∧ op ≠ 2 ∧ op ≠ 3 := by
  simp [Instr.wellFormed, and_assoc]

theorem rdreg_wellFormed_iff (a : Offset) :
    (Instr.rdreg a).wellFormed = true ↔ aligned a = true ∧ a.toNat < 0x1000 := by
  simp [Instr.wellFormed]

theorem wrreg_wellFormed_iff (a : Offset) (v : Word) :
    (Instr.wrreg a v).wellFormed = true ↔ aligned a = true ∧ a ≠ 0 := by
  simp [Instr.wellFormed]

theorem busError_wellFormed_iff (dir : Dir) (a : Offset) (w : Nat) :
    (Instr.busError dir a w).wellFormed = true ↔ w ≠ 4 ∨ a.toNat % 4 ≠ 0 := by
  simp [Instr.wellFormed, aligned, or_comm]

/-- Only the rows of an edge event put a condition on the state (R202, R203, R205). -/
theorem selectedIn_of_format {i : Instr} (edgeEn : Bool) (ses : Session) (h : i.format ≠ .evt) :
    i.selectedIn edgeEn ses = true := by
  cases i with
  | edgeBaseline | edgeRecord | edgeIgnored => exact absurd rfl h
  | _ => rfl

/-- An edge event decodes to the row the state selects (R202, R203, R205). -/
theorem decodeEdge_selected (edgeEn : Bool) (ses : Session) (ts : Word) (lvl : Bool) :
    (decodeEdge edgeEn ses ts lvl).selectedIn edgeEn ses = true := by
  cases edgeEn <;> cases ses <;> rfl

/-- No state selects two rows of one edge event (R202, R203, R205). -/
theorem decodeEdge_of_selected {edgeEn : Bool} {ses : Session} {ts : Word} {lvl : Bool} {i : Instr}
    (hi : i = .edgeBaseline ts lvl ∨ i = .edgeRecord ts lvl ∨ i = .edgeIgnored ts lvl)
    (hsel : i.selectedIn edgeEn ses = true) : decodeEdge edgeEn ses ts lvl = i := by
  obtain rfl | rfl | rfl := hi
  · obtain ⟨rfl, rfl⟩ : edgeEn = true ∧ ses = .learn := by simpa [Instr.selectedIn] using hsel
    rfl
  · obtain ⟨rfl, rfl⟩ : edgeEn = true ∧ ses = .recv := by simpa [Instr.selectedIn] using hsel
    rfl
  · cases edgeEn with
    | false => rfl
    | true =>
      cases ses with
      | idle | learnt => rfl
      | learn | recv => cases hsel

/-! ### Decoding what was encoded -/

/-- A concatenation read as a number (R90). -/
theorem toNat_append_eq_add {m n : Nat} (x : BitVec m) (y : BitVec n) :
    (x ++ y).toNat = x.toNat * 2 ^ n + y.toNat := by
  rw [BitVec.toNat_append, ← Nat.shiftLeft_add_eq_or_of_lt y.isLt, Nat.shiftLeft_eq]

/-- A CMD word made for an opcode decodes by that opcode (R91, R92). -/
theorem decode_cmdRaw (edgeEn : Bool) (ses : Session) (op : BitVec 4) :
    decode edgeEn ses (cmdRaw op) = .ok
      (if op = 1 then .send else if op = 2 then .learn else if op = 3 then .read else .illegalCmd op) := by
  rw [cmdRaw, decode_cmd, decodeCmd, opOf_setWidth]

/-- A word written to an aligned offset other than CMD's is a register write of that word (R64, R114). -/
theorem decode_write_lanes (edgeEn : Bool) (ses : Session) {a : Offset} (ha : aligned a = true) (h0 : a ≠ 0) (v : Word) :
    decode edgeEn ses (.write a (lanesOf v)) = .ok (.wrreg a v) := by
  simp only [decode, decodeWrite, lanesOf, ha, if_true, if_neg h0, wordOf_lanes]

/-- The offset of a window word decodes to the read of that word (R61, R210). -/
theorem decodeRead_window (idx : BitVec 10) :
    decodeRead ((1 : BitVec 1) ++ idx ++ (0 : BitVec 2)) 4 = .capbufRd idx := by
  have hoffset : ((1 : BitVec 1) ++ idx ++ (0 : BitVec 2)).toNat = 0x1000 + 4 * idx.toNat := by
    simp only [toNat_append_eq_add, BitVec.ofNat_eq_ofNat, BitVec.toNat_ofNat]
    omega
  have hidx : ((1 : BitVec 1) ++ idx ++ (0 : BitVec 2)).extractLsb' 2 10 = idx := by
    apply BitVec.eq_of_toNat_eq
    rw [BitVec.extractLsb'_toNat, hoffset, Nat.shiftRight_eq_div_pow]
    omega
  have haligned : aligned ((1 : BitVec 1) ++ idx ++ (0 : BitVec 2)) = true := by
    simp only [aligned, beq_iff_eq]
    omega
  rw [decodeRead, if_pos ⟨rfl, haligned⟩, if_neg (by omega), hidx]

/-- The text of a well-formed field decodes to the operation of that field (R121 to R132). -/
theorem decode_fieldText (edgeEn : Bool) (ses : Session) {f : Field} (h : f.wellFormed = true) :
    decode edgeEn ses (.text .item (fieldText f)) = .ok (fieldInstr f) := by
  rw [decode, decodeText, decodeField_fieldText f h]
  rfl

/-- Settles O2: by the instruction's row, with the law of its format's raw form. -/
theorem decodeEncodeAgree : Obligations.DecodeEncodeAgree := by
  intro i edgeEn ses hw hsel
  cases i with
  | send | learn | read => exact decode_cmdRaw edgeEn ses _
  | illegalCmd op =>
    obtain ⟨h1, h2, h3⟩ := (illegalCmd_wellFormed_iff op).mp hw
    rw [encode, decode_cmdRaw, if_neg h1, if_neg h2, if_neg h3]
  | codingPulse | codingSpace | codingPhase | codingQuad | repeatNone | repeatSameframe | repeatStoppauseonly
  | repeatFoxtelweird =>
    simp only [encode, decode, decodeDescWord, ctrlCoding_ctrlWord, ctrlRepeat_ctrlWord, ctrlDataBits_ctrlWord]
  | rdreg a =>
    obtain ⟨haligned, hlow⟩ := (rdreg_wellFormed_iff a).mp hw
    rw [encode, decode, decodeRead, if_pos ⟨rfl, haligned⟩, if_pos hlow]
  | wrreg a v =>
    obtain ⟨haligned, hcmd⟩ := (wrreg_wellFormed_iff a v).mp hw
    exact decode_write_lanes edgeEn ses haligned hcmd v
  | capbufRd idx => rw [encode, decode, decodeRead_window]
  | busError dir a w =>
    have hbad := (busError_wellFormed_iff dir a w).mp hw
    cases dir with
    | read => rw [encode, decode, decodeRead_busError hbad]
    | write => rw [encode, decode, decodeWrite_busError (by rwa [List.length_replicate]), List.length_replicate]
  | edgeBaseline ts lvl => exact congrArg _ (decodeEdge_of_selected (.inl rfl) hsel)
  | edgeRecord ts lvl => exact congrArg _ (decodeEdge_of_selected (.inr (.inl rfl)) hsel)
  | edgeIgnored ts lvl => exact congrArg _ (decodeEdge_of_selected (.inr (.inr rfl)) hsel)
  | timeout | txstep => rfl
  | sectionS fs => exact decodeSection_sectionSText fs hw
  | sectionD d => exact decodeSection_sectionDText d
  | fieldC | fieldT => exact decode_fieldText edgeEn ses hw
  | fieldH | fieldP | fieldS | fieldE | fieldG | fieldR => exact decode_fieldText edgeEn ses rfl
  | ccharPulse | ccharSpace | ccharPhase | ccharQuad | rcharSameframe | rcharStoppauseonly | rcharFoxtelweird => rfl

/-! ### What the decoder accepts -/

/-- An access the port accepts is four bytes wide and aligned (R62, R63). -/
theorem accepted_access {a : Offset} {w : Nat} (h : ¬(w ≠ 4 ∨ a.toNat % 4 ≠ 0)) : w = 4 ∧ aligned a = true := by
  simpa [aligned] using h

theorem decodeRead_wellFormed (a : Offset) (w : Nat) : (decodeRead a w).wellFormed = true := by
  by_cases hbad : w ≠ 4 ∨ a.toNat % 4 ≠ 0
  · rw [decodeRead_busError hbad]
    exact (busError_wellFormed_iff ..).mpr hbad
  · have hgood := accepted_access hbad
    rw [decodeRead, if_pos hgood]
    split
    · next hlow => exact (rdreg_wellFormed_iff a).mpr ⟨hgood.2, hlow⟩
    · rfl

theorem decodeCmd_wellFormed (w : Word) : (decodeCmd w).wellFormed = true := by
  unfold decodeCmd
  split_ifs with h1 h2 h3
  · rfl
  · rfl
  · rfl
  · exact (illegalCmd_wellFormed_iff _).mpr ⟨h1, h2, h3⟩

theorem decodeCmd_format (w : Word) : (decodeCmd w).format = .cmd := by
  unfold decodeCmd
  split_ifs <;> rfl

/-- What a write access can be: a command, a register write, or a bus error (R62, R63, R112, R114). -/
theorem decodeWrite_cases (a : Offset) (lanes : List Byte) :
    ((a = 0 ∧ lanes.length = 4) ∧ ∃ w, decodeWrite a lanes = decodeCmd w) ∨
    ((a ≠ 0 ∧ aligned a = true) ∧ ∃ v, decodeWrite a lanes = .wrreg a v) ∨
    ((lanes.length ≠ 4 ∨ a.toNat % 4 ≠ 0) ∧ decodeWrite a lanes = .busError .write a lanes.length) := by
  by_cases hbad : lanes.length ≠ 4 ∨ a.toNat % 4 ≠ 0
  · exact .inr (.inr ⟨hbad, decodeWrite_busError hbad⟩)
  · obtain ⟨hlen, haligned⟩ := accepted_access hbad
    match lanes, hlen with
    | [b0, b1, b2, b3], hlen =>
      simp only [decodeWrite, haligned, if_true]
      by_cases hcmd : a = 0
      · exact .inl ⟨⟨hcmd, hlen⟩, _, if_pos hcmd⟩
      · exact .inr (.inl ⟨⟨hcmd, trivial⟩, _, if_neg hcmd⟩)

theorem decodeWrite_wellFormed (a : Offset) (lanes : List Byte) : (decodeWrite a lanes).wellFormed = true := by
  obtain ⟨-, w, h⟩ | ⟨⟨hcmd, haligned⟩, v, h⟩ | ⟨hbad, h⟩ := decodeWrite_cases a lanes <;> rw [h]
  · exact decodeCmd_wellFormed w
  · exact (wrreg_wellFormed_iff a v).mpr ⟨haligned, hcmd⟩
  · exact (busError_wellFormed_iff ..).mpr hbad

theorem decodeEdge_wellFormed (edgeEn : Bool) (ses : Session) (ts : Word) (lvl : Bool) :
    (decodeEdge edgeEn ses ts lvl).wellFormed = true := by
  cases edgeEn <;> cases ses <;> rfl

theorem decodeDescWord_wellFormed (u : EncUnit) (w : Word) : (decodeDescWord u w).wellFormed = true := by
  cases u <;> simp only [decodeDescWord] <;> split <;> rfl

/-- Request text that is accepted: sections and fields with their entries in range, and characters (R121 to R137). -/
theorem decodeText_wellFormed {pos : TextPos} {cs : List Char} {i : Instr} (h : decodeText pos cs = .ok i) :
    i.wellFormed = true := by
  cases pos with
  | whole =>
    rw [decodeText] at h
    obtain ⟨v, rfl⟩ | ⟨v, rfl⟩ := decodeSection_head h
    · obtain ⟨fs, -, rfl⟩ := (decodeSection_s v i).mp h
      exact sectionWellFormed_of_decode h
    · obtain ⟨d, -, rfl⟩ := (decodeSection_d v i).mp h
      rfl
  | item =>
    obtain ⟨f, hf, hi⟩ := (bind_eq_ok _ _ _).mp h
    cases hi
    have hw := wellFormed_of_decodeField hf
    cases f with
    | c | t => exact hw
    | h | p | s | e | g | r => rfl
  | codingEntry =>
    obtain ⟨c, -, hi⟩ := (bind_eq_ok _ _ _).mp h
    cases hi
    cases c <;> rfl
  | repeatEntry =>
    obtain ⟨c, -, hi⟩ := (bind_eq_ok _ _ _).mp h
    cases hi
    cases c <;> rfl

theorem decode_wellFormed {edgeEn : Bool} {ses : Session} {r : Raw} {i : Instr} (h : decode edgeEn ses r = .ok i) :
    i.wellFormed = true := by
  cases r with
  | read a w => cases h; exact decodeRead_wellFormed a w
  | write a lanes => cases h; exact decodeWrite_wellFormed a lanes
  | edge ts lvl => cases h; exact decodeEdge_wellFormed edgeEn ses ts lvl
  | internal u => cases u <;> cases h <;> rfl
  | descWord u w => cases h; exact decodeDescWord_wellFormed u w
  | text pos cs => exact decodeText_wellFormed h

/-- An instruction comes from the port its row's format names (R111). -/
theorem decode_format {edgeEn : Bool} {ses : Session} {r : Raw} {i : Instr} (h : decode edgeEn ses r = .ok i) :
    i.format = r.format := by
  cases r with
  | read a w =>
    cases h
    unfold decodeRead
    split_ifs <;> rfl
  | write a lanes =>
    cases h
    obtain ⟨hcmd, w, h⟩ | ⟨⟨hcmd, -⟩, v, h⟩ | ⟨hbad, h⟩ := decodeWrite_cases a lanes <;> rw [h, Raw.format]
    · rw [if_pos hcmd, decodeCmd_format]
    · exact (if_neg fun h => hcmd h.1).symm
    · refine (if_neg ?_).symm
      rintro ⟨rfl, hlen⟩
      exact hbad.elim (absurd hlen) (absurd rfl)
  | edge ts lvl => cases h; cases edgeEn <;> cases ses <;> rfl
  | internal u => cases u <;> cases h <;> rfl
  | descWord u w => cases h; cases u <;> simp only [decodeDescWord] <;> split <;> rfl
  | text pos cs => exact decodeText_format h

/-- What the decoder gives is the row the state selects. -/
theorem decode_selected {edgeEn : Bool} {ses : Session} {r : Raw} {i : Instr} (h : decode edgeEn ses r = .ok i) :
    i.selectedIn edgeEn ses = true := by
  by_cases hevt : r.format = .evt
  · cases r with
    | edge ts lvl => cases h; exact decodeEdge_selected edgeEn ses ts lvl
    | write a lanes => simp only [Raw.format] at hevt; split at hevt <;> cases hevt
    | _ => cases hevt
  · exact selectedIn_of_format edgeEn ses (by rwa [decode_format h])

/-- Settles O3: acceptance by the kind of raw form; only the arm of text can give an error. -/
theorem decoderAcceptsOnlyWellFormed : Obligations.DecoderAcceptsOnlyWellFormed := by
  refine ⟨fun edgeEn ses r i h => ⟨decode_wellFormed h, decode_selected h⟩, fun edgeEn ses r e h => ?_⟩
  cases r with
  | text pos cs => exact ⟨pos, cs, rfl⟩
  | internal u => cases u <;> cases h
  | _ => cases h

/-! ### Words and texts of the encoding tables -/

/-- Settles O1: fixed words, read by evaluation. -/
theorem writtenWordsDecode : Obligations.WrittenWordsDecode := by
  unfold Obligations.WrittenWordsDecode
  decide

/-! ### The register port -/

/-- An aligned offset that is no descriptor register's offset names none (R61). -/
theorem target_ne_desc {a : Offset} (ha : a.toNat % 4 = 0) (h : ∀ r : DescReg, a ≠ r.offset) (r : DescReg) :
    target a ≠ .desc r := by
  intro hr
  obtain ⟨hle, hlt⟩ := (target_eq_desc_iff a r).mp hr
  have hword := offset_mod_four r
  exact h r (BitVec.eq_of_toNat_eq (by omega))

/-- Settles O7: the stored bits at the offset of a register, and nothing at any other. -/
theorem wrregEffect : Obligations.WrregEffect := by
  refine fun s v => ⟨exec_wrreg_desc .ctrl v s, fun r hr => ?_, fun a ha hcmd hother => ?_⟩
  · rw [exec_wrreg_desc, storedBits_eq, if_neg hr]
  · exact exec_wrreg_other a v s (by simpa [aligned] using ha) hcmd (target_ne_desc ha hother)

theorem exec_rdreg_word {a : Offset} {s : State} {v : Word} (ha : aligned a = true) (hv : s.readWord a = v) :
    exec (.rdreg a) s = .next { s with rdata := v } := by
  rw [exec_rdreg a s ha, hv, State.answer]

/-- Settles O9: each offset answers what it names in the register map. -/
theorem rdregEffect : Obligations.RdregEffect := by
  refine fun s => ⟨exec_rdreg_word rfl rfl, exec_rdreg_word rfl rfl, exec_rdreg_word rfl rfl,
    fun r => exec_rdreg_word (aligned_offset r) ?_, fun a ha hlow hhigh => exec_rdreg_word ?_ ?_,
    fun i hi => exec_rdreg_word (aligned_capbufOffset i) ?_⟩
  · rw [State.readWord, target_offset]
  · simpa [aligned] using ha
  · rw [State.readWord, target_reserved a hlow hhigh]
  · rw [State.readWord, target_window i hi]

/-! ### STATUS -/

theorem sessionCode_toNat (ses : Session) :
    (sessionCode ses).toNat = match ses with | .idle => 0 | .learn => 1 | .recv => 2 | .learnt => 3 := by
  cases ses <;> rfl

theorem errBits_toNat (e : ErrCode) :
    (errBits e).toNat = match e with
      | .ok => 0 | .malformed => 1 | .sessionBusy => 2 | .unsupported => 3 | .illegalCmd => 4 | .txBusy => 5 := by
  cases e <;> rfl

/-- TxActive over Armed over Off (R37). -/
theorem indicator_toNat (s : State) :
    s.indicator.toNat = if s.txBusy then 1 else if s.session = .learn ∨ s.session = .recv then 2 else 0 := by
  simp only [State.indicator, armed, Bool.or_eq_true, decide_eq_true_eq]
  split_ifs <;> rfl

/-- The concatenation of the fields is their sum, each at its place (R93). -/
theorem status_toNat (s : State) :
    s.status.toNat = (sessionCode s.session).toNat + 4 * s.txBusy.toNat + 8 * s.edgeEn.toNat
      + 16 * s.tmoPending.toNat + 32 * s.full.toNat + 256 * (errBits s.err).toNat + 4096 * s.indicator.toNat := by
  rw [State.status]
  simp only [toNat_append_eq_add, BitVec.toNat_ofBool, BitVec.ofNat_eq_ofNat, BitVec.toNat_ofNat]
  omega

/-- Settles O11: the sum of the fields, with the codes of the format. -/
theorem statusLayout : Obligations.StatusLayout := by
  intro s
  have hsum := status_toNat s
  rw [sessionCode_toNat, errBits_toNat, indicator_toNat] at hsum
  exact hsum

/-! ### Commands -/

/-- CMD.OP as a number (R91). -/
theorem opOf_eq_ofNat (w : Word) : opOf w = BitVec.ofNat 4 (w.toNat % 16) := by
  apply BitVec.eq_of_toNat_eq
  simp [opOf]

theorem ofNat_four_eq_iff (n : Nat) (op : BitVec 4) (h : n < 16) : BitVec.ofNat 4 n = op ↔ n = op.toNat := by
  rw [← BitVec.toNat_inj, BitVec.toNat_ofNat, Nat.mod_eq_of_lt h]

/-- A word written to CMD by the number its bits 3:0 spell (R91, R92). -/
theorem decodeCmd_eq (w : Word) : decodeCmd w =
    if w.toNat % 16 = 1 then .send else if w.toNat % 16 = 2 then .learn else if w.toNat % 16 = 3 then .read
      else .illegalCmd (BitVec.ofNat 4 (w.toNat % 16)) := by
  have hlt : w.toNat % 16 < 16 := Nat.mod_lt _ (by decide)
  simp only [decodeCmd, opOf_eq_ofNat, ofNat_four_eq_iff _ _ hlt]
  rfl

/-- Every command goes through the TX_BUSY check (R112). -/
theorem exec_of_format_cmd {i : Instr} (h : i.format = .cmd) : ∃ body, exec i = command body := by
  cases i with
  | send | learn | read | illegalCmd => exact ⟨_, rfl⟩
  | _ => cases h

theorem command_busy (body : State → State) {s : State} (h : s.txBusy = true) :
    command body s = .next (s.raise .txBusy) := by
  rw [command, if_pos h]

theorem command_idle (body : State → State) {s : State} (h : s.txBusy = false) :
    command body s = .next (body s) := by
  rw [command, h]
  rfl

/-- Settles O4: the opcode's number, and the check before every command. -/
theorem commandDecode : Obligations.CommandDecode := by
  refine fun edgeEn ses w s => ⟨?_, fun i hi hbusy => ?_, fun op hidle => command_idle illegalEffect hidle⟩
  · rw [decode_cmd, decodeCmd_eq]
  · obtain ⟨body, hexec⟩ := exec_of_format_cmd hi
    rw [hexec]
    exact command_busy body hbusy

/-- Settles O55: the word is a write to CMD that is due at once. -/
theorem tableWordIsRunNext : Obligations.TableWordIsRunNext := by
  intro s nbits w
  have hdec : ∀ edgeEn ses, decode edgeEn ses (tableRaw nbits w) = .ok (decodeCmd (BitVec.ofNat 32 w)) :=
    fun edgeEn ses => decode_cmd edgeEn ses _
  constructor
  · rw [decodeTableWord, hdec]
  · rw [step_now (s.withFetchWord nbits w) _ s.inbox rfl rfl]
    simp only [runInput, hdec]
    rfl

/-! ### Characters of a request -/

/-- A coding character in a request that is not malformed yet (R125). -/
theorem onFront_applyCchar {s : State} (h : s.front.malformed = false) (c : CodingScheme) :
    s.onFront (applyCchar c) = { s with front := { s.front with desc := setCoding c s.front.desc } } := by
  simp only [State.onFront, applyCchar, h]
  rfl

/-- A repeat character in a request that is not malformed yet (R132). -/
theorem onFront_applyRchar {s : State} (h : s.front.malformed = false) (c : RepeatChar) :
    s.onFront (applyRchar c) = { s with front := { s.front with desc := setRepeat c s.front.desc } } := by
  simp only [State.onFront, applyRchar, h]
  rfl

/-- Settles O46: the seven characters, by the two laws of a character. -/
theorem characterOperations : Obligations.CharacterOperations := by
  intro s h
  have hscheme := fun c => congrArg (Host.Outcome.next (φ := Fault) (ρ := Refusal)) (onFront_applyCchar h c)
  have hmode := fun c => congrArg (Host.Outcome.next (φ := Fault) (ρ := Refusal)) (onFront_applyRchar h c)
  exact ⟨hscheme .pulse, hscheme .space, hscheme .phase, hscheme .quad, hmode .r, hmode .e, hmode .f⟩

/-! ### The accesses of SENDTXT -/

theorem sendTxt_eq_of_parse {req : List Char} {d : Descriptor} (h : parse req = some d) (s : State) :
    sendTxt req s = { s with front := readRequest req, inbox := sendTxtAccesses d ++ s.inbox } := by
  rw [sendTxt, h]
  rfl

/-- Settles O51: SENDTXT by what the request parses to. -/
theorem sendTxtExpansion : Obligations.SendTxtExpansion := by
  refine fun req s => ⟨fun hnone => ⟨{ s with front := readRequest req }, ?_, rfl, ?_⟩, fun d hd => ⟨_, rfl, ?_⟩⟩
  · rw [runInput, sendTxt, hnone]
  · by_contra hmal
    rw [parse, if_neg hmal] at hnone
    cases hnone
  · rw [sendTxt_eq_of_parse hd]
    rfl

/-- A write that is due at once is the next step, and it is the register write of its row (R110, R114). -/
theorem step_writeAt {s : State} (r : DescReg) (v : Word) {rest : List Pending}
    (hbox : s.inbox = writeAt r.offset v :: rest) :
    step s = .next { s with inbox := rest, regs := s.regs.set r (storedBits r v) } := by
  have hdec := decode_write_lanes s.edgeEn s.session (aligned_offset r) (offset_ne_zero r) v
  rw [step_now s _ rest hbox rfl]
  simp only [runInput, hdec, exec_wrreg_desc]

/-- A command written at once is the next step (R110, R112). -/
theorem step_writeCmd {s : State} (w : Word) {rest : List Pending} (hbox : s.inbox = writeAt 0x000 w :: rest) :
    step s = exec (decodeCmd w) { s with inbox := rest } := by
  rw [step_now s _ rest hbox rfl]
  simp only [runInput, decode_cmd]

/-- The register file after writes of a register file's words to some registers, in order. -/
def writeAll (g : DescRegs) (rs : List DescReg) (start : DescRegs) : DescRegs :=
  rs.foldl (fun acc r => acc.set r (storedBits r (g.get r))) start

/-- Register writes that are all due at once take a step each. -/
theorem run_writeAll (g : DescRegs) (rs : List DescReg) (rest : List Pending) (k : Nat) (s : State)
    (hbox : s.inbox = rs.map (fun r => writeAt r.offset (g.get r)) ++ rest) :
    Host.Core.run Sys2Proof.core (rs.length + k) s =
      Host.Core.run Sys2Proof.core k { s with inbox := rest, regs := writeAll g rs s.regs } := by
  induction rs generalizing s with
  | nil =>
    obtain rfl : s.inbox = rest := hbox
    rw [List.length_nil, Nat.zero_add]
    rfl
  | cons r rs ih =>
    rw [List.length_cons, Nat.add_right_comm, run_next _ s _ (step_writeAt r (g.get r) hbox)]
    exact ih _ rfl

/-- Writing every register of an image, in offset order, gives the image (R110, R138). -/
theorem writeAll_imageOf (d : Descriptor) (start : DescRegs) : writeAll (imageOf d) descRegs start = imageOf d := by
  have hctrl : storedBits .ctrl (imageOf d).ctrl = (imageOf d).ctrl := by
    have h := ctrlWord_fields_of (imageOf d).ctrl
    simp only [imageOf, ctrlCoding_ctrlWord, ctrlRepeat_ctrlWord, ctrlDataBits_ctrlWord] at h
    exact h.symm
  calc writeAll (imageOf d) descRegs start
      = { imageOf d with ctrl := storedBits .ctrl (imageOf d).ctrl } := rfl
    _ = imageOf d := by rw [hctrl]

/-- SENDTXT of a request that parses, alone in the inbox: twenty steps load the image, and the write of SEND is left
(R110). -/
theorem run_sendTxt {req : List Char} {d : Descriptor} (h : parse req = some d) (s : State) :
    Host.Core.run Sys2Proof.core 21 { s with inbox := [{ wait := 0, input := .sendTxt req }] } =
      Host.Core.run Sys2Proof.core 1
        { s with inbox := [writeAt 0x000 1], regs := imageOf d, front := readRequest req } := by
  have hfirst := step_now { s with inbox := [{ wait := 0, input := .sendTxt req }] } (.sendTxt req) [] rfl rfl
  rw [runInput, sendTxt_eq_of_parse h] at hfirst
  rw [run_next 20 _ _ hfirst, show 20 = descRegs.length + 1 from rfl,
    run_writeAll (imageOf d) descRegs [writeAt 0x000 1] 1 _ rfl, writeAll_imageOf]

/-- Settles O52: the 20 steps before the last load the image, and the last is the SEND, which always gives a state. -/
theorem sendTxtLoadsTheImageAndSends : Obligations.SendTxtLoadsTheImageAndSends := by
  intro req d s h
  refine ⟨{ s with inbox := [], regs := imageOf d, front := readRequest req }, _, ?_, rfl, rfl,
    descriptorOf_imageOf d⟩
  rw [run_sendTxt h]
  exact run_next 0 _ _ (step_writeCmd 1 rfl)

/-! ### The numbers of a request -/

/-- A value in its range, and what is made of it, or the rejection. -/
theorem bind_range {α β : Type} (p : Prop) [Decidable p] (x : α) (k : α → Except Reject β) :
    ((if p then .ok x else .error .range) >>= k) = if p then k x else .error .range := by
  split <;> rfl

/-- An item that is a field in range, or is rejected as out of range, as an operation of its own (R121). -/
theorem decode_item_range {edgeEn : Bool} {ses : Session} {cs : List Char} {p : Prop} [Decidable p] {f : Field}
    {i : Instr} (h : decodeField cs = if p then .ok f else .error .range) (hi : fieldInstr f = i) :
    decode edgeEn ses (.text .item cs) = if p then .ok i else .error .range := by
  rw [decode, decodeText, h, ← hi]
  exact bind_range ..

/-- One decimal entry (R128, R130, R131, R134). -/
theorem word_range {a : List Char} (ha : isDec a = true) (mk : Word → Field) :
    (decWord a >>= fun x => .ok (mk x)) =
      if spelled 10 a < 2 ^ 32 then .ok (mk (BitVec.ofNat 32 (spelled 10 a))) else .error .range := by
  rw [decWord_isDec ha, bind_range]

/-- Two decimal entries, each in its range (R126, R129, R134). -/
theorem words_range {a b : List Char} (ha : isDec a = true) (hb : isDec b = true) (mk : Word → Word → Field) :
    (decWord a >>= fun x => decWord b >>= fun y => .ok (mk x y)) =
      if spelled 10 a < 2 ^ 32 ∧ spelled 10 b < 2 ^ 32 then
        .ok (mk (BitVec.ofNat 32 (spelled 10 a)) (BitVec.ofNat 32 (spelled 10 b))) else .error .range := by
  rw [decWord_isDec ha, bind_range, word_range hb, ite_and]

/-- The three numbers of R=, the last a `num64` (R132, R135). -/
theorem repeatNumbers_range {a b m : List Char} {n : Nat} (ha : isDec a = true) (hb : isDec b = true)
    (hm : spellsNum64 m n) (mk : Word → Word → Word64 → Field) :
    (decWord a >>= fun x => decWord b >>= fun y => num64 m >>= fun z => .ok (mk x y z)) =
      if spelled 10 a < 2 ^ 32 ∧ spelled 10 b < 2 ^ 32 ∧ n < 2 ^ 64 then
        .ok (mk (BitVec.ofNat 32 (spelled 10 a)) (BitVec.ofNat 32 (spelled 10 b)) (BitVec.ofNat 64 n))
      else .error .range := by
  rw [decWord_isDec ha, bind_range, decWord_isDec hb, bind_range, num64_spells hm, bind_range, ite_and, ite_and]

theorem ccharText_no_comma (c : CodingScheme) : ',' ∉ ccharText c := by
  cases c <;> decide

theorem rcharText_no_comma (c : RepeatChar) : ',' ∉ rcharText c := by
  cases c <;> decide

/-- A field that repeats a letter, or is not well-formed, only marks the request malformed (R124, R127, R134). -/
theorem applyField_reject {f : Field} {x : Front} (hm : x.malformed = false)
    (h : f.letter ∈ x.seen ∨ f.wellFormed = false) : applyField x f = x.reject := by
  unfold applyField Front.take
  cases hw : f.wellFormed
  · rfl
  · have hseen : x.seen.contains f.letter = true := by
      simpa [hw] using h
    simp only [if_true, hm, hseen]
    rfl

/-- Two entries between commas, the second a decimal number. -/
theorem splitOn_entries {a b : List Char} (ha : ',' ∉ a) (hb : isDec b = true) :
    splitOn ',' (a ++ [','] ++ b) = [a, b] :=
  splitOn_two.mpr ⟨by simp, ha, (isDec_no_sep hb).1⟩

theorem fieldOfC_spelled {a : List Char} (ha : isDec a = true) (c : CodingScheme) :
    fieldOfC [ccharText c, a] =
      if spelled 10 a ≤ 64 then .ok (.c c (BitVec.ofNat 7 (spelled 10 a))) else .error .range := by
  rw [fieldOfC, cchar_text, decDataBits_isDec ha]
  exact bind_range ..

theorem fieldOfT_spelled {es : List (List Char)} (hlen : es.length ≤ 5) (h : ∀ e ∈ es, e = [] ∨ isDec e = true) :
    fieldOfT es = if ∀ e ∈ es, spelled 10 e < 2 ^ 32 then .ok (.t (es.map fun e => BitVec.ofNat 32 (spelled 10 e)))
      else .error .range := by
  rw [fieldOfT, if_pos hlen, optWords_spelled es h, bind_range]

theorem fieldOfR_spelled {a b m : List Char} {n : Nat} (ha : isDec a = true) (hb : isDec b = true)
    (hm : spellsNum64 m n) (c : RepeatChar) : fieldOfR [rcharText c, a, b, m] =
      if spelled 10 a < 2 ^ 32 ∧ spelled 10 b < 2 ^ 32 ∧ n < 2 ^ 64 then
        .ok (.r c (BitVec.ofNat 32 (spelled 10 a)) (BitVec.ofNat 32 (spelled 10 b)) (BitVec.ofNat 64 n))
      else .error .range := by
  rw [fieldOfR, rchar_text]
  exact repeatNumbers_range ha hb hm (Field.r c)

/-- Settles O45: the entries of a field stand between commas, and each number is its value or out of range. -/
theorem fieldRejections : Obligations.FieldRejections := by
  refine ⟨fun f s hm h => ?_, fun edgeEn ses a b ha hb => ?_⟩
  · rw [exec_field, State.onFront, applyField_reject hm h]
    rfl
  have hone : splitOn ',' a = [a] := splitOn_of_not_mem ',' a (isDec_no_sep ha).1
  have htwo : splitOn ',' (a ++ [','] ++ b) = [a, b] := splitOn_entries (isDec_no_sep ha).1 hb
  refine ⟨fun c => ?coding, ?header, fun es hne hlen hes => ?timings, ?pause, ?stop, ?endMark, ?gap,
    fun m n hm => ⟨fun c => ?repeats, ?data⟩⟩
  case coding =>
    have hsplit := splitOn_entries (ccharText_no_comma c) ha
    exact decode_item_range ((congrArg fieldOfC hsplit).trans (fieldOfC_spelled ha c)) rfl
  case header => exact decode_item_range ((congrArg fieldOfH htwo).trans (words_range ha hb Field.h)) rfl
  case timings =>
    have hcomma : ∀ e ∈ es, ',' ∉ e := fun e he => by
      obtain rfl | hdec := hes e he
      · exact List.not_mem_nil
      · exact (isDec_no_sep hdec).1
    have hsplit := splitOn_joinWith ',' es (List.length_pos_iff.mp hne) hcomma
    exact decode_item_range ((congrArg fieldOfT hsplit).trans (fieldOfT_spelled hlen hes)) rfl
  case pause => exact decode_item_range ((congrArg fieldOfP hone).trans (word_range ha Field.p)) rfl
  case stop => exact decode_item_range ((congrArg fieldOfS htwo).trans (words_range ha hb Field.s)) rfl
  case endMark => exact decode_item_range ((congrArg fieldOfE hone).trans (word_range ha Field.e)) rfl
  case gap => exact decode_item_range ((congrArg fieldOfG hone).trans (word_range ha Field.g)) rfl
  case repeats =>
    have hsplit : splitOn ',' (rcharText c ++ [','] ++ a ++ [','] ++ b ++ [','] ++ m) = [rcharText c, a, b, m] :=
      splitOn_four.mpr ⟨by simp, rcharText_no_comma c, (isDec_no_sep ha).1, (isDec_no_sep hb).1,
        spellsNum64_no_comma hm⟩
    exact decode_item_range ((congrArg fieldOfR hsplit).trans (fieldOfR_spelled ha hb hm c)) rfl
  case data =>
    calc decode edgeEn ses (.text .whole (['d', '='] ++ m)) = num64 m >>= fun d => .ok (.sectionD d) := rfl
      _ = _ := by rw [num64_spells hm, bind_range]

end Sys2Proof.Machine
end

section
/-! PROOFS. The family of 40_descriptor_parser.md: fields and sections as operations, what a whole request parses to, the
serializer, and the texts that are no request. -/

namespace Sys2Proof.Machine

/-! ### Fields as operations -/

/-- An operation on the front-end is told by what it leaves there. -/
theorem next_front_congr (s : State) {x y : Front} (h : x = y) :
    Host.Outcome.next (φ := Fault) (ρ := Refusal) { s with front := x } = .next { s with front := y } := by
  rw [h]

/-- A well-formed field whose letter is new is written, and its letter counts as seen (R124 to R132). -/
theorem exec_field_unseen {f : Field} {s : State} (hm : s.front.malformed = false) (hw : f.wellFormed = true)
    (hnew : f.letter ∉ s.front.seen) :
    exec (fieldInstr f) s = .next { s with front := { s.front with
      desc := writeField f s.front.desc, seen := s.front.seen ++ [f.letter] } } := by
  have hread := foldl_applyField [f] s.front hm (by simpa using hw) rfl (by simpa using hnew)
  rw [exec_field]
  exact next_front_congr s hread

theorem fieldC_wellFormed {c : CodingScheme} {n : BitVec 7} (h : n.toNat ≤ 64) : (Field.c c n).wellFormed = true :=
  decide_eq_true h

theorem fieldT_wellFormed {es : List Word} (h1 : 1 ≤ es.length) (h5 : es.length ≤ 5) :
    (Field.t es).wellFormed = true := by
  simp only [Field.wellFormed, h1, h5, decide_true, Bool.and_self]

/-- Settles O44: the law of a field that is read for the first time, for each of the eight letters. -/
theorem fieldOperations : Obligations.FieldOperations := by
  intro s hm
  refine ⟨fun c n hn => ?_, fun m q => ?_, fun es h1 h5 => ?_, fun p => ?_, fun m q => ?_, fun e => ?_, fun g => ?_,
    fun c n g m => ?_⟩
  · exact exec_field_unseen hm (fieldC_wellFormed hn)
  · exact exec_field_unseen (f := .h m q) hm rfl
  · exact exec_field_unseen hm (fieldT_wellFormed h1 h5)
  · exact exec_field_unseen (f := .p p) hm rfl
  · exact exec_field_unseen (f := .s m q) hm rfl
  · exact exec_field_unseen (f := .e e) hm rfl
  · exact exec_field_unseen (f := .g g) hm rfl
  · exact exec_field_unseen (f := .r c n g m) hm rfl

/-! ### The order of fields -/

/-- The operand checks of an `s=` section (R124, R137), each as a statement about its fields. -/
theorem sectionWellFormed_iff (fs : List Field) : sectionWellFormed fs = true ↔
    (∀ f ∈ fs, f.wellFormed = true) ∧ (fs.map Field.letter).Nodup ∧ .C ∈ fs.map Field.letter := by
  simp only [sectionWellFormed, Bool.and_eq_true, List.all_eq_true, distinctLetters_iff, List.contains_iff_mem,
    and_assoc]

theorem sectionWellFormed_perm {fs gs : List Field} (hp : fs.Perm gs) (h : sectionWellFormed fs = true) :
    sectionWellFormed gs = true := by
  obtain ⟨hw, hnodup, hC⟩ := (sectionWellFormed_iff fs).mp h
  have hletters := hp.map Field.letter
  exact (sectionWellFormed_iff gs).mpr
    ⟨fun f hf => hw f (hp.mem_iff.mpr hf), hletters.nodup_iff.mp hnodup, hletters.mem_iff.mp hC⟩

/-- Settles O48: any two fields of the section are the same one or have different letters, so their writes commute. -/
theorem fieldOrderIsFree : Obligations.FieldOrderIsFree := by
  intro fs gs d hp h
  obtain ⟨-, hnodup, -⟩ := (sectionWellFormed_iff fs).mp h
  refine ⟨sectionWellFormed_perm hp h, hp.foldl_eq' (fun a ha b hb d => ?_) d⟩
  by_cases hletter : a.letter = b.letter
  · rw [List.inj_on_of_nodup_map hnodup ha hb hletter]
  · exact (writeField_comm a b d hletter).symm

/-! ### Sections as operations -/

/-- A second `s=` section only marks the request malformed (R121). -/
theorem applySectionS_second (fs : List Field) {f : Front} (hm : f.malformed = false) (h : f.sSeen = true) :
    applySectionS fs f = f.reject := by
  rw [applySectionS, hm, h]
  rfl

/-- A `d=` section read first sets the data value (R133). -/
theorem applySectionD_first (v : Word64) {f : Front} (hm : f.malformed = false) (h : f.dSeen = false) :
    applySectionD v f = { f with dSeen := true, desc := { f.desc with data := v } } := by
  rw [applySectionD, hm, h]
  rfl

/-- A second `d=` section only marks the request malformed (R121). -/
theorem applySectionD_second (v : Word64) {f : Front} (hm : f.malformed = false) (h : f.dSeen = true) :
    applySectionD v f = f.reject := by
  rw [applySectionD, hm, h]
  rfl

/-! ### What the fields of a section leave alone -/

/-- The part of a Descriptor that the field of a letter writes (R125 to R132), with everything else 0. -/
def Descriptor.part (d : Descriptor) : FieldLetter → Descriptor
  | .C => { codingScheme := d.codingScheme, dataBits := d.dataBits }
  | .H => { headerMark := d.headerMark, headerSpace := d.headerSpace }
  | .T => { timings := d.timings }
  | .P => { pauseSpace := d.pauseSpace }
  | .S => { stopMark := d.stopMark, stopSpace := d.stopSpace }
  | .E => { endMark := d.endMark }
  | .G => { gap := d.gap }
  | .R => { repeatMode := d.repeatMode, repeatCount := d.repeatCount, foxtelGap := d.foxtelGap,
            foxtelMask := d.foxtelMask }

/-- A field of another letter does not touch a letter's part. -/
theorem part_writeField {f : Field} {l : FieldLetter} (h : f.letter ≠ l) (d : Descriptor) :
    (writeField f d).part l = d.part l := by
  cases l with
  | C => cases f with | c => exact absurd rfl h | _ => rfl
  | H => cases f with | h => exact absurd rfl h | _ => rfl
  | T => cases f with | t => exact absurd rfl h | _ => rfl
  | P => cases f with | p => exact absurd rfl h | _ => rfl
  | S => cases f with | s => exact absurd rfl h | _ => rfl
  | E => cases f with | e => exact absurd rfl h | _ => rfl
  | G => cases f with | g => exact absurd rfl h | _ => rfl
  | R => cases f with | r => exact absurd rfl h | _ => rfl

/-- The part of an absent letter stays what it was. -/
theorem part_foldl_writeField {fs : List Field} {l : FieldLetter} (h : l ∉ fs.map Field.letter) (d : Descriptor) :
    (fs.foldl (fun d f => writeField f d) d).part l = d.part l := by
  refine List.foldlRecOn (motive := fun x : Descriptor => x.part l = d.part l) fs _ rfl fun x hx f hf => ?_
  have hother : f.letter ≠ l := fun heq => h (heq ▸ List.mem_map_of_mem hf)
  exact (part_writeField hother x).trans hx

/-- Settles O47: sections as operations by the laws of a first and of a second one; whole requests by what they parse to,
the absent fields because no field of the section touches their part. -/
theorem sectionOperations : Obligations.SectionOperations := by
  refine ⟨fun s hm => ?operations, fun fs hw edgeEn ses => decodeSection_sectionSText fs hw,
    fun edgeEn ses sec fs hsec => ?requests⟩
  case operations =>
    refine ⟨fun fs hw hs hseen => ?_, fun v hd => ?_, fun fs hs => ?_, fun v hd => ?_⟩
    · exact next_front_congr s (applySectionS_first fs s.front hm hw hs hseen)
    · exact next_front_congr s (applySectionD_first v hm hd)
    · exact next_front_congr s (applySectionS_second fs hm hs)
    · exact next_front_congr s (applySectionD_second v hm hd)
  case requests =>
    have hdata := congrArg Descriptor.data (foldl_writeField_data fs {} 0)
    have habsent := fun {l : FieldLetter} (h : l ∉ fs.map Field.letter) => part_foldl_writeField h {}
    refine ⟨parse_s hsec, fun dsec v hd => ⟨parse_s_d hsec hd, parse_d_s hsec hd⟩, hdata, fun h => ?_, fun h => ?_,
      fun h => ?_, fun h => ?_, fun h => ?_, fun h => ?_, fun h => ?_⟩
    · exact ⟨congrArg Descriptor.headerMark (habsent h), congrArg Descriptor.headerSpace (habsent h)⟩
    · exact congrArg Descriptor.timings (habsent h)
    · exact congrArg Descriptor.pauseSpace (habsent h)
    · exact ⟨congrArg Descriptor.stopMark (habsent h), congrArg Descriptor.stopSpace (habsent h)⟩
    · exact congrArg Descriptor.endMark (habsent h)
    · exact congrArg Descriptor.gap (habsent h)
    · exact ⟨congrArg Descriptor.repeatMode (habsent h), congrArg Descriptor.repeatCount (habsent h),
        congrArg Descriptor.foxtelGap (habsent h), congrArg Descriptor.foxtelMask (habsent h)⟩

/-! ### The serializer -/

/-- The fields `ser` writes are a section: each letter once, C= among them (R139). -/
theorem serFields_wellFormed {d : Descriptor} (h : d.dataBits.toNat ≤ 64) : sectionWellFormed (serFields d) = true := by
  have hC := fieldC_wellFormed (c := d.codingScheme) h
  unfold serFields
  cases d.repeatMode <;> simp only [sectionWellFormed, repeatCharOf, List.cons_append, List.all_cons, hC] <;> rfl

/-- The fields `ser` writes and its data value are the whole Descriptor, where the repeat fields are 0 in mode None
(R139; conflict C2). -/
theorem foldl_writeField_serFields {d : Descriptor}
    (h : d.repeatMode ≠ .single ∨ (d.repeatCount = 0 ∧ d.foxtelGap = 0 ∧ d.foxtelMask = 0)) :
    { (serFields d).foldl (fun d f => writeField f d) {} with data := d.data } = d := by
  obtain ⟨_, mode, _, _, _, _, _, _, _, _, _, _, count, gap, mask⟩ := d
  cases mode with
  | single =>
    obtain hmode | ⟨hcount, hgap, hmask⟩ := h
    · exact absurd rfl hmode
    · cases hcount; cases hgap; cases hmask; rfl
  | sameFrame | stopPauseOnly | foxtelWeird => rfl

/-- Settles O6: the string is that of its two sections, and they decode to the fields and the data value. -/
theorem parseSerRoundTrip : Obligations.ParseSerRoundTrip := by
  intro d hbits hrepeat
  constructor
  · simp only [ser, serFields, sectionSText, sectionDText]
    cases d.repeatMode <;> simp [repeatCharOf, fieldText, entriesText, joinWith, rcharText]
  · have hs := decodeSection_sectionSText (serFields d) (serFields_wellFormed hbits)
    have hparse := parse_s_d hs (decodeSection_sectionDText d.data)
    have hser : ser d = sectionSText (serFields d) ++ ['&'] ++ sectionDText d.data := by simp [ser, joinWith]
    rw [hser, hparse, foldl_writeField_serFields hrepeat]

/-! ### The sections and items of a request -/

/-- What stands on the right of a pairing has its partner on the left. -/
theorem forall₂_exists_left {α β : Type} {R : α → β → Prop} {as : List α} {bs : List β} (h : List.Forall₂ R as bs)
    {b : β} (hb : b ∈ bs) : ∃ a ∈ as, R a b := by
  induction h with
  | nil => cases hb
  | cons hab _ ih =>
    obtain rfl | hb := List.mem_cons.mp hb
    · exact ⟨_, List.mem_cons_self, hab⟩
    · obtain ⟨a, ha, hR⟩ := ih hb
      exact ⟨a, List.mem_cons_of_mem _ ha, hR⟩

theorem splitOn_sections {a b : List Char} (ha : '&' ∉ a) (hb : '&' ∉ b) : splitOn '&' (a ++ ['&'] ++ b) = [a, b] :=
  (splitOn_eq_iff '&' _ [a, b] (by simp)).mpr ⟨by simp [joinWith], by simp [ha, hb]⟩

/-- The sections of a request: an `s=` section is among them, and each is of one of the two kinds (R121). -/
theorem sections_of_isRequest {req : List Char} (h : isRequest req) :
    (∃ s ∈ splitOn '&' req, isSectionS s) ∧ ∀ x ∈ splitOn '&' req, isSectionS x ∨ isSectionD x := by
  obtain ⟨s, hs, rfl | ⟨d, hd, rfl | rfl⟩⟩ := h
  · rw [splitOn_of_not_mem '&' req (isSectionS_chars hs)]
    simp [hs]
  · rw [splitOn_sections (isSectionS_chars hs) (isSectionD_chars hd)]
    simp [hs, hd]
  · rw [splitOn_sections (isSectionD_chars hd) (isSectionS_chars hs)]
    simp [hs, hd]

/-- The items of an accepted `s=` section that are not empty are those of its fields (R122). -/
theorem items_of_decodeFieldList {v : List Char} {fs : List Field} (h : decodeFieldList v = .ok fs) :
    List.Forall₂ (fun f x => decodeField x = .ok f) fs ((splitOn ';' v).filter fun x => !x.isEmpty) :=
  (decodeFields_ok _ _).mp ((decodeFieldList_ok v fs).mp h).1

/-- Settles O50: the `s=` section decodes to fields of which one is of the letter C, and that one is an item of it. -/
theorem codingFieldIsRequired : Obligations.CodingFieldIsRequired := by
  intro req d hparse
  obtain ⟨⟨sec, hmem, hsec⟩, -⟩ := sections_of_isRequest ((parse_ok_iff req).mp ⟨d, hparse⟩)
  obtain ⟨fs, hdec⟩ := (decodeSectionS_ok_iff sec).mpr hsec
  obtain ⟨v, rfl⟩ | ⟨v, rfl⟩ := decodeSection_head hdec
  · obtain ⟨_, hfields, heq⟩ := (decodeSection_s v _).mp hdec
    cases heq
    obtain ⟨-, -, hC⟩ := (sectionWellFormed_iff fs).mp (sectionWellFormed_of_decode hdec)
    obtain ⟨f, hf, hletter⟩ := List.mem_map.mp hC
    obtain ⟨item, hitem, hfield⟩ := forall₂_exists_left (items_of_decodeFieldList hfields).flip hf
    obtain ⟨c, -, n, rfl, -⟩ := hletter ▸ isField_of_decodeField hfield
    exact ⟨_, hmem, v, rfl, _, (List.mem_filter.mp hitem).1, _, rfl⟩
  · obtain ⟨_, -, heq⟩ := (decodeSection_d v _).mp hdec
    cases heq

/-! ### The characters of a request -/

/-- The characters of the grammar (R121): digits, the letters of sections, fields and their characters, the `x` of a
hexadecimal number, and the separators. -/
def grammarChars : List Char :=
  digits16 ++ digits16Upper ++
    ['x', 's', 'd', 'C', 'H', 'T', 'P', 'S', 'E', 'G', 'R', 'M', 'Q', 'F', '=', ',', ';', '&']

/-- White space, signs and the point are foreign to the grammar (R134, R136). -/
theorem foreign_not_grammar : ∀ c ∈ [' ', '\t', '+', '-', '.'], c ∉ grammarChars := by
  simp only [List.forall_mem_cons]
  exact ⟨by decide, by decide, by decide, by decide, by decide, nofun⟩

theorem isDec_subset {cs : List Char} (h : isDec cs = true) : cs ⊆ grammarChars := fun c hc =>
  have hdigits : digits10 ⊆ grammarChars := by decide
  hdigits (((isDec_iff cs).mp h).2 c hc)

theorem isHex_subset {cs : List Char} (h : isHex cs = true) : cs ⊆ grammarChars := fun c hc =>
  have hlower : digits16 ⊆ grammarChars := by decide
  have hupper : digits16Upper ⊆ grammarChars := by decide
  (((isHex_iff cs).mp h).2 c hc).elim (@hlower c) (@hupper c)

theorem isNum64_subset {cs : List Char} (h : isNum64 cs) : cs ⊆ grammarChars := by
  obtain ⟨n, ⟨hdec, -⟩ | ⟨hs, rfl, hhex, -⟩, -⟩ := h
  · exact isDec_subset hdec
  · simp only [List.cons_subset]
    exact ⟨by decide, by decide, isHex_subset hhex⟩

theorem joinWith_subset {sep : Char} {ps : List (List Char)} (hsep : sep ∈ grammarChars)
    (h : ∀ p ∈ ps, p ⊆ grammarChars) : joinWith sep ps ⊆ grammarChars := fun c hc => by
  obtain rfl | ⟨p, hp, hc⟩ := mem_joinWith hc
  · exact hsep
  · exact h p hp hc

theorem isField_subset {l : FieldLetter} {cs : List Char} (h : isField l cs) : cs ⊆ grammarChars := by
  cases l with
  | C =>
    obtain ⟨c, hc, n, rfl, hn, -⟩ := h
    have hchars : ['M', 'S', 'P', 'Q'] ⊆ grammarChars := by decide
    simp only [List.append_subset, List.cons_subset]
    exact ⟨⟨by decide, by decide, hchars hc, by decide, by decide⟩, isDec_subset hn⟩
  | H | S =>
    obtain ⟨a, b, rfl, ⟨ha, -⟩, ⟨hb, -⟩⟩ := h
    simp only [List.append_subset]
    exact ⟨⟨⟨by decide, isDec_subset ha⟩, by decide⟩, isDec_subset hb⟩
  | T =>
    obtain ⟨es, rfl, -, -, hes⟩ := h
    refine List.append_subset.mpr ⟨by decide, joinWith_subset (by decide) fun e he => ?_⟩
    obtain rfl | ⟨hdec, -⟩ := hes e he
    · exact List.nil_subset _
    · exact isDec_subset hdec
  | P | E | G =>
    obtain ⟨a, rfl, ⟨ha, -⟩⟩ := h
    exact List.append_subset.mpr ⟨by decide, isDec_subset ha⟩
  | R =>
    obtain ⟨c, hc, a, b, m, rfl, ⟨ha, -⟩, ⟨hb, -⟩, hm⟩ := h
    have hchars : ['R', 'E', 'F'] ⊆ grammarChars := by decide
    simp only [List.append_subset, List.cons_subset]
    exact ⟨⟨⟨⟨⟨⟨by decide, by decide, hchars hc, by decide, by decide⟩, isDec_subset ha⟩, by decide, by decide⟩,
      isDec_subset hb⟩, by decide, by decide⟩, isNum64_subset hm⟩

theorem isSectionS_subset {cs : List Char} (h : isSectionS cs) : cs ⊆ grammarChars := by
  obtain ⟨items, ls, rfl, -, -, hfields⟩ := h
  refine List.append_subset.mpr ⟨by decide, joinWith_subset (by decide) fun x hx => ?_⟩
  by_cases hempty : x = []
  · exact hempty ▸ List.nil_subset _
  · obtain ⟨l, -, hl⟩ := forall₂_exists_left hfields (List.mem_filter.mpr ⟨hx, by simpa using hempty⟩)
    exact isField_subset hl

theorem isSectionD_subset {cs : List Char} (h : isSectionD cs) : cs ⊆ grammarChars := by
  obtain ⟨m, rfl, hm⟩ := h
  exact List.append_subset.mpr ⟨by decide, isNum64_subset hm⟩

/-- Every character of a request is one of the grammar's (R121, R136). -/
theorem isRequest_subset {req : List Char} (h : isRequest req) : req ⊆ grammarChars := by
  have hsections := (sections_of_isRequest h).2
  rw [← joinWith_splitOn '&' req]
  exact joinWith_subset (by decide) fun x hx => (hsections x hx).elim isSectionS_subset isSectionD_subset

/-! ### Exactly the grammar -/

/-- Only a request parses. -/
theorem parse_eq_none {req : List Char} (h : ¬ isRequest req) : parse req = none := by
  rw [← parse_ok_iff, not_exists] at h
  exact Option.eq_none_iff_forall_ne_some.mpr h

/-- The row of a field says its letter, and its operands are the entries (R125 to R132). -/
theorem fieldInstr_injective : Function.Injective fieldInstr := by
  intro f g h
  cases f <;> cases g <;> cases h <;> rfl

/-- An item on its own is the operation of a field exactly if it decodes to that field. -/
theorem decode_item_eq_ok_iff (edgeEn : Bool) (ses : Session) (cs : List Char) (f : Field) :
    decode edgeEn ses (.text .item cs) = .ok (fieldInstr f) ↔ decodeField cs = .ok f := by
  rw [decode, decodeText, bind_eq_ok]
  constructor
  · rintro ⟨g, hg, heq⟩
    rwa [fieldInstr_injective (Except.ok.inj heq)] at hg
  · exact fun h => ⟨f, h, rfl⟩

/-- A decoder that only renames what another one reads accepts the same texts. -/
theorem exists_bind_ok_iff {ε α β : Type} (x : Except ε α) (g : α → β) :
    (∃ b, (x >>= fun a => .ok (g a)) = .ok b) ↔ ∃ a, x = .ok a := by
  simp only [bind_eq_ok, Except.ok.injEq]
  exact ⟨fun ⟨_, a, ha, _⟩ => ⟨a, ha⟩, fun ⟨a, ha⟩ => ⟨_, a, ha, rfl⟩⟩

theorem decodeField_exists_iff (cs : List Char) : (∃ f, decodeField cs = .ok f) ↔ ∃ l, isField l cs := by
  simp only [← decodeField_ok_iff]
  exact ⟨fun ⟨f, hf⟩ => ⟨f.letter, f, hf, rfl⟩, fun ⟨_, f, hf, _⟩ => ⟨f, hf⟩⟩

theorem decodeSection_exists_iff (cs : List Char) :
    (∃ i, decodeSection cs = .ok i) ↔ isSectionS cs ∨ isSectionD cs := by
  rw [← decodeSectionS_ok_iff, ← decodeSectionD_ok_iff]
  constructor
  · rintro ⟨i, h⟩
    obtain ⟨v, rfl⟩ | ⟨v, rfl⟩ := decodeSection_head h
    · obtain ⟨fs, -, rfl⟩ := (decodeSection_s v i).mp h
      exact .inl ⟨fs, h⟩
    · obtain ⟨w, -, rfl⟩ := (decodeSection_d v i).mp h
      exact .inr ⟨w, h⟩
  · rintro (⟨fs, h⟩ | ⟨w, h⟩)
    · exact ⟨_, h⟩
    · exact ⟨_, h⟩

/-- A non-empty item that is no field makes its `s=` section none (R122, R123). -/
theorem decodeSection_error_of_item {v cs : List Char} (hmem : cs ∈ splitOn ';' v) (hne : cs ≠ [])
    (h : ¬ ∃ f, decodeField cs = .ok f) : ∃ e, decodeSection (['s', '='] ++ v) = .error e := by
  cases hdec : decodeSection (['s', '='] ++ v) with
  | error e => exact ⟨e, rfl⟩
  | ok i =>
    obtain ⟨fs, hfields, -⟩ := (decodeSection_s v i).mp hdec
    have hitem := List.mem_filter (p := fun x => !x.isEmpty).mpr ⟨hmem, by simpa using hne⟩
    obtain ⟨f, -, hf⟩ := forall₂_exists_left (items_of_decodeFieldList hfields) hitem
    exact absurd ⟨f, hf⟩ h

theorem not_exists_ok_of_error {ε α : Type} {x : Except ε α} {e : ε} (h : x = .error e) : ¬ ∃ a, x = .ok a := by
  rintro ⟨a, ha⟩
  cases h.symm.trans ha

/-- Settles O49: a request has only characters of the grammar, and decoder and parser accept exactly the grammar. -/
theorem foreignCharactersAreMalformed : Obligations.ForeignCharactersAreMalformed := by
  refine ⟨fun req c hforeign hc => ?characters, fun edgeEn ses req cs e hmem herr => ?sections,
    fun edgeEn ses v cs e hmem hne herr => ?items, fun edgeEn ses cs => ⟨fun l => ?field, ?anyField, ?sectionS, ?sectionD,
      ?anySection, ?coding, ?repeats⟩, parse_ok_iff⟩
  case characters =>
    exact parse_eq_none fun hreq => foreign_not_grammar c hforeign (isRequest_subset hreq hc)
  case sections =>
    have hnot := (decodeSection_exists_iff cs).not.mp (not_exists_ok_of_error herr)
    exact parse_eq_none fun hreq => hnot ((sections_of_isRequest hreq).2 cs hmem)
  case items =>
    have hnot := (exists_bind_ok_iff (decodeField cs) fieldInstr).not.mp (not_exists_ok_of_error herr)
    exact decodeSection_error_of_item hmem hne hnot
  case field =>
    simp only [decode_item_eq_ok_iff]
    exact decodeField_ok_iff l cs
  case anyField => exact (exists_bind_ok_iff (decodeField cs) fieldInstr).trans (decodeField_exists_iff cs)
  case sectionS => exact decodeSectionS_ok_iff cs
  case sectionD => exact decodeSectionD_ok_iff cs
  case anySection => exact decodeSection_exists_iff cs
  case coding => exact (exists_bind_ok_iff (cchar cs) ccharInstr).trans (cchar_ok_iff cs)
  case repeats => exact (exists_bind_ok_iff (rchar cs) rcharInstr).trans (rchar_ok_iff cs)

end Sys2Proof.Machine
end

section
/-! PROOFS. The family of 41_transmit_framing.md: the parts of a frame, the waveforms of SEND and of the repeat rows,
the sequencer's step, and when the block's own steps come. -/

namespace Sys2Proof.Machine

open Sys2Proof.Config (Params)

/-! ### The parts of a frame -/

/-- A burst of 0 emits nothing, whatever silence follows it (R145, R148). -/
theorem burstSilence_eq (mark space : Word) :
    burstSilence mark space = if mark ≠ 0 then [.mark mark, .space space] else [] := by
  simp only [burstSilence, pos_iff_ne_zero]

theorem pause_eq (d : Descriptor) : pause d = if d.pauseSpace ≠ 0 then [.space d.pauseSpace] else [] := by
  simp only [pause, pos_iff_ne_zero]

theorem endmark_eq (d : Descriptor) : endmark d = if d.endMark ≠ 0 then [.mark d.endMark] else [] := by
  simp only [endmark, pos_iff_ne_zero]

theorem gapseg_eq (gap : Word) : gapseg gap = if gap ≠ 0 then [.space gap] else [] := by
  simp only [gapseg, pos_iff_ne_zero]

/-- No bits, no payload, in every coding (R161). -/
theorem payload_zero (p : Params) (scheme : CodingScheme) (t : Timings) (v : Word64) :
    payload p scheme t v 0 = [] := by
  cases scheme <;> rfl

/-- Settles O22: a frame is the concatenation of its parts, and each part says when it is present. -/
theorem frameParts : Obligations.FrameParts := by
  refine fun p d v g => ⟨fun hbits => ?_, ?_⟩
  · have hpayload : payload p d.codingScheme d.timings v d.dataBits.toNat = [] := by
      rw [hbits]
      exact payload_zero p d.codingScheme d.timings v
    rw [frame, hpayload, List.append_nil]
  · simp only [frame, header, stop, burstSilence_eq, pause_eq, endmark_eq, gapseg_eq, List.append_assoc]

/-! ### What the encoder makes of a Descriptor -/

theorem valid_eq_false_iff (d : Descriptor) :
    valid d = false ↔ 64 < d.dataBits.toNat ∨ (d.codingScheme = .quad ∧ d.dataBits.toNat % 2 = 1) := by
  rw [← Bool.not_eq_true, valid_iff, Decidable.not_and_iff_or_not, Nat.not_le, Classical.not_imp,
    Nat.mod_two_not_eq_zero]

/-- A Descriptor is rejected for a reason, never with OK (R140). -/
theorem buildWave_ne_rejected_ok (p : Params) (d : Descriptor) : buildWave p d ≠ .rejected .ok := by
  cases hv : valid d with
  | false => rw [buildWave_invalid p d hv]; exact nofun
  | true =>
    rw [buildWave_valid p d hv]
    cases d.repeatMode <;> exact nofun

theorem length_repeated (n : Nat) (f : List Segment) : (repeated n f).length = n * f.length := by
  simp [repeated]

/-- A waveform is as long as its frames together (R160). -/
theorem length_of_built {p : Params} {d : Descriptor} {w : List Segment} (h : buildWave p d = .built w) :
    w.length = match d.repeatMode with
      | .single => (frame p d d.data d.gap).length
      | .sameFrame => repetitions d * (frame p d d.data d.gap).length
      | .stopPauseOnly => 0
      | .foxtelWeird => repetitions d * (frame p d d.data d.gap).length + (frame p d d.data d.foxtelGap).length
          + (frame p d (d.data ^^^ d.foxtelMask) d.foxtelGap).length := by
  cases hv : valid d with
  | false => rw [buildWave_invalid p d hv] at h; cases h
  | true =>
    rw [buildWave_valid p d hv] at h
    cases hr : d.repeatMode <;> simp only [hr] at h <;> cases h
    · rfl
    · exact length_repeated _ _
    · simp only [waveFoxtel, List.length_append, length_repeated]

/-! ### SEND -/

theorem sendEffect_of_built {s : State} {w : List Segment} (h : buildWave s.cfg s.descriptor = .built w) :
    sendEffect s = { s with
      result := 0, err := .ok, descSnap := s.descriptor, txq := w, txPhase := 0, txBusy := decide (w ≠ []) } := by
  have hbusy : (!w.isEmpty) = decide (w ≠ []) := by cases w <;> rfl
  simp only [sendEffect, h, hbusy]

theorem sendEffect_of_rejected {s : State} {e : ErrCode} (h : buildWave s.cfg s.descriptor = .rejected e) :
    sendEffect s = { s with result := 0, err := e } := by
  simp only [sendEffect, h]

theorem exec_send_idle {s : State} (h : s.txBusy = false) : exec .send s = .next (sendEffect s) :=
  command_idle sendEffect h

/-- Settles O13: an invalid Descriptor is rejected first, and a valid one goes by its repeat mode. -/
theorem sendEffect_spec : Obligations.SendEffect := by
  intro s hidle d n base accepted
  rw [exec_send_idle hidle]
  congr 1
  have hinvalid := valid_eq_false_iff d
  cases hv : valid d with
  | false =>
    rw [if_pos (hinvalid.mp hv)]
    exact sendEffect_of_rejected (buildWave_invalid s.cfg d hv)
  | true =>
    have hbuild := buildWave_valid s.cfg d hv
    rw [if_neg (mt hinvalid.mpr (ne_false_of_eq_true hv))]
    cases hr : d.repeatMode with
    | single | sameFrame | foxtelWeird =>
      simp only [hr] at hbuild
      exact sendEffect_of_built hbuild
    | stopPauseOnly =>
      simp only [hr] at hbuild
      exact sendEffect_of_rejected hbuild

/-- After a SEND that leaves OK, TXQ is the waveform of the Descriptor (R140, R143). -/
theorem buildWave_of_send_ok {s t : State} (hidle : s.txBusy = false) (h : exec .send s = .next t)
    (hok : t.err = .ok) : buildWave s.cfg s.descriptor = .built t.txq := by
  rw [exec_send_idle hidle] at h
  cases h
  obtain ⟨w, hbuild, heq⟩ | ⟨e, hbuild, heq⟩ := sendEffect_cases s
  · rw [heq]
    exact hbuild
  · rw [heq] at hok
    cases hok
    exact absurd hbuild (buildWave_ne_rejected_ok _ _)

/-- Settles O25: TXQ is the waveform, and a waveform is as long as its frames. -/
theorem frameCount : Obligations.FrameCount :=
  fun _ _ hidle hexec hok => length_of_built (buildWave_of_send_ok hidle hexec hok)

/-! ### The repeat rows on their own -/

/-- An encoder operation on its own is told by what it records (log 11). -/
theorem next_encode_congr (s : State) {a b : Build} (h : a = b) :
    (.next (s.encode a) : Result) = .next { s with encOut := b } := by
  rw [h]
  rfl

/-- Settles O21: each row records what the encoder gives for the word's Descriptor under its own repeat mode. -/
theorem repeatOperations : Obligations.RepeatOperations := by
  refine fun s c n => ⟨fun ⟨hbits, hquad⟩ => ?valid, fun hinvalid => ?invalid⟩
  case valid =>
    have hvalid : ∀ r, valid (withCtrl s c r n) = true := fun _ => (valid_iff _).mpr ⟨hbits, hquad⟩
    exact ⟨next_encode_congr s (buildWave_valid _ _ (hvalid .single)),
      next_encode_congr s (buildWave_valid _ _ (hvalid .sameFrame)),
      next_encode_congr s (buildWave_valid _ _ (hvalid .stopPauseOnly)),
      next_encode_congr s (buildWave_valid _ _ (hvalid .foxtelWeird))⟩
  case invalid =>
    have hbuild : ∀ r, buildWave s.cfg (withCtrl s c r n) = .rejected .malformed := fun _ =>
      buildWave_invalid _ _ ((valid_eq_false_iff _).mpr hinvalid)
    exact ⟨next_encode_congr s (hbuild .single), next_encode_congr s (hbuild .sameFrame),
      next_encode_congr s (hbuild .stopPauseOnly), next_encode_congr s (hbuild .foxtelWeird)⟩

/-! ### The sequencer's step -/

theorem exec_txstep_cons {s : State} {seg : Segment} {rest : List Segment} (hq : s.txq = seg :: rest) :
    exec .txstep s = .next (s.emitted seg rest) := by
  simp only [exec, execTxstep, hq, State.emitted]

/-- While a segment is in emission, `carrier_out` is the level its `expand` has at the position (R38, R185, R186). -/
theorem carrierOut_cons {s : State} {seg : Segment} {rest : List Segment} (hq : s.txq = seg :: rest) :
    s.carrierOut = levelAt (expand s.cfg seg) s.txPhase := by
  cases seg with
  | mark d =>
    simp only [State.carrierOut, hq]
    exact (levelAt_cycles s.cfg.carrierOnUs s.cfg.carrierOffUs (count s.cfg d) s.txPhase).symm
  | space d =>
    simp only [State.carrierOut, hq, expand, levelAt, ite_self]

theorem carrierOut_nil {s : State} (hq : s.txq = []) : s.carrierOut = false := by
  simp only [State.carrierOut, hq]

/-- Settles O26: the head segment is emitted, and `carrier_out` is read from it until then. -/
theorem txstepEffect : Obligations.TxstepEffect := by
  refine fun s => ⟨fun seg rest hq => ⟨?_, carrierOut_cons hq⟩, carrierOut_nil⟩
  rw [exec_txstep_cons hq]
  simp only [State.emitted, List.isEmpty_iff]

/-- As many TXSTEPs as there are segments emit the queue in its order (R155 to R157). -/
theorem execAll_txstep {q : List Segment} (hne : q ≠ []) {s : State} (hq : s.txq = q) :
    execAll (List.replicate q.length .txstep) s = .next { s with
      txTrace := s.txTrace ++ q, txq := [], txPhase := 0, txBusy := false } := by
  induction q generalizing s with
  | nil => exact absurd rfl hne
  | cons seg rest ih =>
    rw [List.length_cons, List.replicate_succ, execAll, exec_txstep_cons hq]
    cases rest with
    | nil => rfl
    | cons next later =>
      rw [andThen, ih nofun rfl]
      simp [State.emitted]

/-- Settles O27, by induction on the queue. -/
theorem queueIsEmittedInOrder : Obligations.QueueIsEmittedInOrder :=
  fun _ _ hne => execAll_txstep hne rfl

/-! ### When the block's own steps come -/

/-- The sequencer is due when the rest of the head segment has been emitted (R155, R275). -/
theorem txRemaining_cons {s : State} {seg : Segment} {rest : List Segment} (hq : s.txq = seg :: rest) :
    s.txRemaining = some (segmentUs s.cfg seg - s.txPhase) := by
  simp only [State.txRemaining, hq]

theorem txq_ne_nil_of_txRemaining {s : State} {n : Nat} (h : s.txRemaining = some n) : s.txq ≠ [] := by
  intro hq
  simp [State.txRemaining, hq] at h

theorem tmoRemaining_eq_some_iff (s : State) (n : Nat) :
    s.tmoRemaining = some n ↔ s.tmoPending = true ∧ (s.tmoDeadline - s.now).toNat = n := by
  simp [State.tmoRemaining]

/-- The segment in emission is not past its end. -/
theorem txPhase_le {s : State} (hI : s.Inv) {seg : Segment} {rest : List Segment} (hq : s.txq = seg :: rest) :
    s.txPhase ≤ segmentUs s.cfg seg := by
  have hphase := hI.phase_in_range
  simp only [State.phaseInRange, hq] at hphase
  exact of_decide_eq_true hphase

/-- With no input to come, the step is the block's own. -/
theorem step_own_alone {s : State} {n : Nat} {i : Instr} (h : s.nextInternal = some (n, i)) (hbox : s.inbox = []) :
    step s = exec i (s.elapse n) := by
  simp only [step, nextStep, hbox, stepAlone, h]

/-- An input further away waits for the block's own step. -/
theorem step_own_before {s : State} {n : Nat} {i : Instr} (h : s.nextInternal = some (n, i)) {p : Pending}
    {rest : List Pending} (hbox : s.inbox = p :: rest) (hlt : n < s.due p) :
    step s = exec i ({ s with inbox := { p with wait := p.wait - n } :: rest }.elapse n) := by
  simp only [step, nextStep, hbox, h, if_pos hlt, stepBefore]

/-- The sequencer's step comes with the head segment emitted exactly to its end (R155, R183). -/
theorem txPhase_at_txstep {s : State} (hI : s.Inv) {n : Nat} (h : s.txRemaining = some n) {seg : Segment}
    {rest : List Segment} (hq : s.txq = seg :: rest) : (s.elapse n).txPhase = segmentUs s.cfg seg := by
  have hle := txPhase_le hI hq
  rw [txRemaining_cons hq] at h
  cases h
  simp only [elapse_txPhase, hq, List.isEmpty_cons]
  exact Nat.add_sub_cancel' hle

/-- The timer's step comes with NOW at the deadline (R208, R209). -/
theorem now_at_timeout {s : State} {n : Nat} (h : s.tmoRemaining = some n) : (s.elapse n).now = s.tmoDeadline := by
  obtain ⟨-, rfl⟩ := (tmoRemaining_eq_some_iff s n).mp h
  rw [elapse_now, BitVec.ofNat_toNat, BitVec.setWidth_eq, BitVec.add_comm, BitVec.sub_add_cancel]

/-- Settles O54: the schedule takes the block's own step, which is the sequencer's or the timer's at its time. -/
theorem stepRunsTheBlocksOwnInstruction : Obligations.StepRunsTheBlocksOwnInstruction := by
  refine fun s n i hown => ⟨step_own_alone hown, fun p rest => step_own_before hown, ?_⟩
  obtain ⟨rfl, htx⟩ | ⟨rfl, htmo⟩ := nextInternal_cases hown
  · exact .inl ⟨rfl, txq_ne_nil_of_txRemaining htx, fun hI _ _ hq => txPhase_at_txstep hI htx hq⟩
  · exact .inr ⟨rfl, ((tmoRemaining_eq_some_iff s n).mp htmo).1, now_at_timeout htmo⟩

/-! ### A Send left alone -/

/-- With no input to come and no timeout armed, the step is the sequencer's, at the end of the head segment. -/
theorem step_txstep_alone {s : State} {seg : Segment} {rest : List Segment} (hq : s.txq = seg :: rest)
    (hbox : s.inbox = []) (htmo : s.tmoPending = false) :
    step s = .next ((s.elapse (segmentUs s.cfg seg - s.txPhase)).emitted seg rest) := by
  have hown : s.nextInternal = some (segmentUs s.cfg seg - s.txPhase, .txstep) := by
    simp [State.nextInternal, txRemaining_cons hq, State.tmoRemaining, htmo]
  rw [step_own_alone hown hbox]
  exact exec_txstep_cons hq

/-- The time a queue still needs is the rest of its head segment and the segments after it. -/
theorem segmentsUs_cons_sub {p : Params} {seg : Segment} {phase : Nat} (h : phase ≤ segmentUs p seg)
    (rest : List Segment) :
    segmentsUs p (seg :: rest) - phase = (segmentUs p seg - phase) + segmentsUs p rest := by
  rw [segmentsUs, List.map_cons, List.sum_cons, Nat.sub_add_comm h]
  rfl

/-- Settles O30, by induction on the queue: each step emits one segment in the time that it still needs, keeps the
invariant, and leaves the position 0. -/
theorem sendTakesItsDuration : Obligations.SendTakesItsDuration := by
  intro s
  induction hq : s.txq generalizing s with
  | nil =>
    intro hI _ _
    have hbusy : s.txBusy = false := Bool.eq_false_iff.mpr fun h => hI.busy_iff_queue.mp h hq
    exact ⟨s, rfl, hq, hbusy, (List.append_nil _).symm, by simp [segmentsUs]⟩
  | cons seg rest ih =>
    intro hI hbox htmo
    have hstep := step_txstep_alone hq hbox htmo
    obtain ⟨t, hrun, hempty, hidle, htrace, hnow⟩ := ih _ rfl (stepKeepsInv _ _ hI hstep) hbox htmo
    refine ⟨t, (run_next _ _ _ hstep).trans hrun, hempty, hidle, ?_, ?_⟩
    · rw [htrace]
      exact List.append_assoc _ [seg] rest
    · rw [hnow, segmentsUs_cons_sub (txPhase_le hI hq), BitVec.ofNat_add, ← BitVec.add_assoc]
      rfl

/-! ### The descriptor registers -/

/-- Settles O31: of the effects an instruction can have, only a register write changes a descriptor register. -/
theorem descriptorRegistersAreTheHosts : Obligations.DescriptorRegistersAreTheHosts := by
  intro i s t hno hexec
  cases exec_next hexec with
  | writes a v => exact absurd rfl (hno a v)
  | sends =>
    obtain ⟨-, -, -, -, -, -, hregs, -⟩ := sendEffect_frame s
    exact hregs
  | learns =>
    obtain ⟨-, -, -, -, -, -, hregs, -⟩ := learnEffect_frame s
    exact hregs
  | reads =>
    obtain ⟨-, -, -, -, -, -, hregs, -⟩ := readEffect_frame s
    exact hregs
  | record ts l =>
    obtain ⟨e, ⟨-, heq⟩ | ⟨-, heq⟩⟩ := recordEffect_cases s ts l <;> rw [heq]
  | fires => rw [timeoutEffect_eq]
  | commandBusy | illegal | answers | encodes | text | baseline | emits | stutters => rfl

end Sys2Proof.Machine
end

section
/-! PROOFS. The family of 42_bit_coding.md: the coding rows on their own, how many segments a payload has and where they
stand, and the levels that segments take on `carrier_out`. -/

namespace Sys2Proof.Machine

open Sys2Proof.Config (Params)

/-! ### The coding rows on their own -/

/-- What a coding row records for a count of bits that its coding can carry (R146, R170; log 11). -/
theorem next_encode_payload (s : State) (r : RepeatMode) {c : CodingScheme} {n : BitVec 7} (hbits : n.toNat ≤ 64)
    (hquad : c = .quad → n.toNat % 2 = 0) :
    (.next (s.encode (buildPayload s.cfg (withCtrl s c r n))) : Result) =
      .next { s with encOut := .built (payload s.cfg c s.descriptor.timings s.descriptor.data n.toNat) } :=
  next_encode_congr s (buildPayload_valid _ _ ((valid_iff _).mpr ⟨hbits, hquad⟩))

/-- What a coding row records for any other count of bits (R141; log 11). -/
theorem next_encode_malformed (s : State) (r : RepeatMode) {c : CodingScheme} {n : BitVec 7}
    (h : 64 < n.toNat ∨ (c = .quad ∧ n.toNat % 2 = 1)) :
    (.next (s.encode (buildPayload s.cfg (withCtrl s c r n))) : Result) =
      .next { s with encOut := .rejected .malformed } :=
  next_encode_congr s (buildPayload_invalid _ _ ((valid_eq_false_iff _).mpr h))

/-- Settles O17: the row's payload is the Pulse coding of the data registers. -/
theorem pulseCoding : Obligations.PulseCoding :=
  fun s r _ => ⟨fun hbits => next_encode_payload (c := .pulse) s r hbits nofun,
    fun hmany => next_encode_malformed (c := .pulse) s r (.inl hmany)⟩

/-- Settles O18: the row's payload is the Space coding of the data registers. -/
theorem spaceCoding : Obligations.SpaceCoding :=
  fun s r _ => ⟨fun hbits => next_encode_payload (c := .space) s r hbits nofun,
    fun hmany => next_encode_malformed (c := .space) s r (.inl hmany)⟩

/-- A Phase payload is what the phase mode makes of each bit (R173, R174). -/
theorem exec_codingPhase {s : State} {m : Config.PhaseMode} (hmode : s.cfg.phaseMode = m) (r : RepeatMode)
    {n : BitVec 7} (hbits : n.toNat ≤ 64) :
    exec (.codingPhase r n) s = .next { s with encOut := .built (
      (List.range n.toNat).flatMap fun i =>
        phaseBit m s.descriptor.timings (payloadBit s.descriptor.data i)) } := by
  rw [← hmode]
  exact next_encode_payload (c := .phase) s r hbits nofun

/-- Settles O19: the row's payload is the Phase coding of the data registers, in the mode of the parameters. -/
theorem phaseCoding : Obligations.PhaseCoding :=
  fun s r _ => ⟨fun hbits hliteral => exec_codingPhase hliteral r hbits,
    fun hbits hbipolar => exec_codingPhase hbipolar r hbits,
    fun hmany => next_encode_malformed (c := .phase) s r (.inl hmany)⟩

/-- The segments of a Quad symbol, with the pair's upper bit as the symbol's high bit (R175). -/
theorem quadSegments_quadSymbol (t : Timings) (v : Word64) (k : Nat) :
    quadSegments t (quadSymbol v k) =
      [.mark t.t0, .space (match v.getLsbD (2 * k + 1), v.getLsbD (2 * k) with
        | false, false => t.t1
        | false, true => t.t2
        | true, false => t.t3
        | true, true => t.t4)] := by
  simp only [quadSegments, quadSymbol, payloadBit]
  cases v.getLsbD (2 * k + 1) <;> cases v.getLsbD (2 * k) <;> rfl

/-- Settles O20: the row's payload is the Quad coding of the data registers, symbol by symbol. -/
theorem quadCoding : Obligations.QuadCoding := by
  refine fun s r n => ⟨fun hbits heven => ?symbols, fun h => ?rejected⟩
  case symbols =>
    refine (next_encode_payload (c := .quad) s r hbits fun _ => heven).trans ?_
    simp only [payload, quadSegments_quadSymbol]
    rfl
  case rejected => exact next_encode_malformed (c := .quad) s r (h.imp_right fun hodd => ⟨rfl, hodd⟩)

/-! ### The segments of a payload -/

theorem length_phaseBit (m : Config.PhaseMode) (t : Timings) (b : Bool) : (phaseBit m t b).length = 2 := by
  cases m with
  | literal => rfl
  | bipolar => rw [phaseBit, phaseBitBipolar]; split <;> rfl

/-- Settles O23: each coding makes two segments of a bit or of a symbol, and a Quad symbol is one mark and one space. -/
theorem payloadLength : Obligations.PayloadLength := by
  intro p t v n
  have hpairs {f : Nat → List Segment} (h : ∀ i, (f i).length = 2) : ((List.range n).flatMap f).length = 2 * n :=
    (length_flatMap_range n 2 f h).trans (Nat.mul_comm n 2)
  refine ⟨?pulse, ?space, ?phase, fun heven => ⟨?quad, ?marks, ?spaces⟩⟩
  case pulse => exact hpairs fun _ => rfl
  case space => exact hpairs fun _ => rfl
  case phase => exact hpairs fun _ => length_phaseBit ..
  case quad =>
    exact (length_flatMap_range (n / 2) 2 _ fun _ => rfl).trans (Nat.div_mul_cancel (Nat.dvd_of_mod_eq_zero heven))
  case marks =>
    rw [payload, List.filter_flatMap]
    exact (length_flatMap_range (n / 2) 1 _ fun _ => rfl).trans (Nat.mul_one _)
  case spaces =>
    rw [payload, List.filter_flatMap]
    exact (length_flatMap_range (n / 2) 1 _ fun _ => rfl).trans (Nat.mul_one _)

/-- Of `k` entries per number, those of the number `i` stand from `k * i` on. -/
theorem getElem?_flatMap_range {α : Type} {n k i j : Nat} {f : Nat → List α} (hlen : ∀ i, (f i).length = k)
    (hi : i < n) (hj : j < k) : ((List.range n).flatMap f)[k * i + j]? = (f i)[j]? := by
  induction n with
  | zero => exact absurd hi (Nat.not_lt_zero i)
  | succ n ih =>
    have hfront : ((List.range n).flatMap f).length = k * n :=
      (length_flatMap_range n k f hlen).trans (Nat.mul_comm n k)
    rw [List.range_succ, List.flatMap_append, List.flatMap_singleton]
    obtain hbefore | rfl := Nat.lt_succ_iff_lt_or_eq.mp hi
    · have hstart : k * i + j < k * n :=
        calc k * i + j < k * (i + 1) := Nat.add_lt_add_left hj (k * i)
          _ ≤ k * n := Nat.mul_le_mul_left k hbefore
      rw [List.getElem?_append_left (hfront ▸ hstart), ih hbefore]
    · rw [List.getElem?_append_right (hfront ▸ Nat.le_add_right ..), hfront, Nat.add_sub_cancel_left]

/-- Settles O24: the segments of bit `i` stand at `2 * i` and `2 * i + 1`. -/
theorem pulseSilenceIsFixed : Obligations.PulseSilenceIsFixed := by
  intro p t v n i hi
  have hbit (j : Nat) : j < 2 → (payload p .pulse t v n)[2 * i + j]? = (pulseBit t (payloadBit v i))[j]? :=
    getElem?_flatMap_range (f := fun i => pulseBit t (payloadBit v i)) (fun _ => rfl) hi
  exact ⟨hbit 1 Nat.one_lt_two, hbit 0 Nat.two_pos⟩

/-! ### Time on `carrier_out` -/

/-- Quantization with the reference parameters (R179, R182). -/
theorem count_reference (us : Word) : count Params.reference us = (us.toNat + 12) / 25 := rfl

/-- The longest burst that vanishes (R181). -/
theorem count_reference_eq_zero_iff (us : Word) : count Params.reference us = 0 ↔ us.toNat ≤ 12 := by
  rw [count_reference, Nat.div_eq_zero_iff]
  omega

/-- Settles O28: the levels of a segment last as long as the segment, and a count of 0 leaves no level. -/
theorem burstQuantization : Obligations.BurstQuantization := by
  refine ⟨fun p d => ⟨rfl, totalUs_expand p (.mark d), totalUs_expand p (.space d)⟩,
    fun d => totalUs_expand Params.reference (.mark d), totalUs_expand Params.reference (.mark 560),
    totalUs_expand Params.reference (.mark 9000),
    fun us => ⟨count_reference us, count_reference_eq_zero_iff us, fun hshort => ?vanishes, rfl⟩⟩
  case vanishes => rw [expand, (count_reference_eq_zero_iff us).mpr hshort, List.replicate_zero, List.flatten_nil]

/-! ### The electrical view -/

/-- Merging a level onto a merged list that is not empty (R188). -/
theorem mergeLevels_cons {ls : List (Bool × Nat)} {y : Bool × Nat} {rest : List (Bool × Nat)}
    (h : mergeLevels ls = y :: rest) (x : Bool × Nat) :
    mergeLevels (x :: ls) = if x.1 = y.1 then (x.1, x.2 + y.2) :: rest else x :: y :: rest := by
  rw [mergeLevels, h]

/-- Merging keeps the first level. -/
theorem mergeLevels_first (x : Bool × Nat) (ls : List (Bool × Nat)) :
    ∃ n rest, mergeLevels (x :: ls) = (x.1, n) :: rest := by
  cases h : mergeLevels ls with
  | nil => exact ⟨x.2, [], by rw [mergeLevels, h]⟩
  | cons y rest =>
    rw [mergeLevels_cons h]
    split
    · exact ⟨_, _, rfl⟩
    · exact ⟨_, _, rfl⟩

theorem mergeLevels_ne_nil {ls : List (Bool × Nat)} (hne : ls ≠ []) : mergeLevels ls ≠ [] := by
  obtain ⟨x, xs, rfl⟩ := List.exists_cons_of_ne_nil hne
  obtain ⟨n, rest, h⟩ := mergeLevels_first x xs
  rw [h]
  exact List.cons_ne_nil _ _

/-- A list of levels can be merged in two parts, cut where the level changes (R188). -/
theorem mergeLevels_append_of_ne {x y : Bool × Nat} (hne : x.1 ≠ y.1) (ls rs : List (Bool × Nat)) :
    mergeLevels (ls ++ x :: y :: rs) = mergeLevels (ls ++ [x]) ++ mergeLevels (y :: rs) := by
  induction ls with
  | nil =>
    obtain ⟨n, rest, hright⟩ := mergeLevels_first y rs
    rw [List.nil_append, mergeLevels_cons hright, if_neg hne, hright]
    rfl
  | cons z ls ih =>
    obtain ⟨w, rest, hleft⟩ := List.exists_cons_of_ne_nil (mergeLevels_ne_nil (List.concat_ne_nil x ls))
    rw [hleft] at ih
    rw [List.cons_append, List.cons_append, mergeLevels_cons ih, mergeLevels_cons hleft]
    split
    · rfl
    · rfl

/-- The levels of a mark of `k + 1` cycles end with a whole cycle (R180, R185). -/
theorem expand_mark_succ {p : Params} {d : Word} {k : Nat} (h : count p d = k + 1) :
    expand p (.mark d) = (List.replicate k (cycle p)).flatten ++ cycle p := by
  rw [expand, h, List.replicate_succ', List.flatten_append, List.flatten_singleton]

/-- A silence and a space after it are one silence, the space being left out when it takes no time (R188). -/
theorem mergeLevels_silence_space (t n : Nat) :
    mergeLevels ((false, t) :: [(false, n)].filter fun x => !(x.2 == 0)) = [(false, t + n)] := by
  cases n with
  | zero => rfl
  | succ n => rfl

/-- Settles O29: the last cycle's active part cuts the view, and what follows it is its off-time and the space. -/
theorem trailingOffTime : Obligations.TrailingOffTime := by
  intro d q hmark
  have hcycles : count Params.reference d ≠ 0 := mt (count_reference_eq_zero_iff d).mp (Nat.not_le.mpr hmark)
  obtain ⟨k, hcount⟩ := Nat.exists_eq_succ_of_ne_zero hcycles
  have hview : electrical (expandAll Params.reference [.mark d, .space q]) =
      mergeLevels ((List.replicate k (cycle Params.reference)).flatten.filter (fun x => !(x.2 == 0)) ++
        (true, 8) :: (false, 16) :: [(false, q.toNat)].filter fun x => !(x.2 == 0)) := by
    rw [electrical, expandAll, List.flatMap_cons, expand_mark_succ hcount, List.append_assoc, List.filter_append]
    rfl
  rw [hview, mergeLevels_append_of_ne Bool.noConfusion, mergeLevels_silence_space, List.getLast?_concat]

end Sys2Proof.Machine
end

section
/-! PROOFS. The family of 43_capture.md: the commands LEARN and READ, the capture window, edge events and the learn
timeout, what a session keeps and how it ends. -/

namespace Sys2Proof.Machine

/-! ### LEARN and READ -/

theorem learnEffect_of_idle {s : State} (h : s.session = .idle) : learnEffect s = { s with
    result := 0, buf := [], rdLen := 0, full := false
    tmoDeadline := s.now + BitVec.ofNat 32 (timeoutUs s.cfg), tmoPending := true
    edgeEn := true, session := .learn, err := .ok } := by
  rw [learnEffect, if_pos h, h]
  rfl

theorem learnEffect_of_not_idle {s : State} (h : s.session ≠ .idle) :
    learnEffect s = { s with result := (sessionCode s.session).setWidth 32, err := .sessionBusy } :=
  if_neg h

theorem readEffect_of_learnt {s : State} (h : s.session = .learnt) : readEffect s = { s with
    rdLen := BitVec.ofNat 11 s.buf.length, result := BitVec.ofNat 32 s.buf.length, session := .idle, err := .ok } :=
  if_pos h

theorem readEffect_of_not_learnt {s : State} (h : s.session ≠ .learnt) :
    readEffect s = { s with rdLen := 0, result := 0, err := .ok } :=
  if_neg h

theorem exec_learn_not_busy {s : State} (h : s.txBusy = false) : exec .learn s = .next (learnEffect s) :=
  command_idle learnEffect h

theorem exec_read_of_learnt {s : State} (hbusy : s.txBusy = false) (h : s.session = .learnt) :
    exec .read s = .next { s with
      rdLen := BitVec.ofNat 11 s.buf.length, result := BitVec.ofNat 32 s.buf.length, session := .idle, err := .ok } :=
  (command_idle readEffect hbusy).trans (congrArg _ (readEffect_of_learnt h))

theorem exec_read_of_not_learnt {s : State} (hbusy : s.txBusy = false) (h : s.session ≠ .learnt) :
    exec .read s = .next { s with rdLen := 0, result := 0, err := .ok } :=
  (command_idle readEffect hbusy).trans (congrArg _ (readEffect_of_not_learnt h))

/-- Settles O14: the accepted LEARN arms the session, and a rejected one answers the code of the state it met. -/
theorem learnEffect_spec : Obligations.LearnEffect := by
  refine fun s hbusy => ⟨fun hidle => ⟨learnEffect s, exec_learn_not_busy hbusy, ?_, learnEffect_of_idle hidle⟩,
    fun hne => ?_⟩
  · rw [learnEffect_of_idle hidle, State.indicator, hbusy]
    rfl
  · rw [exec_learn_not_busy hbusy, learnEffect_of_not_idle hne]
    cases s.session <;> rfl

/-- Settles O15: the two branches of READ. -/
theorem readEffect_spec : Obligations.ReadEffect :=
  fun _ hbusy => ⟨exec_read_of_learnt hbusy, exec_read_of_not_learnt hbusy⟩

/-! ### The capture window -/

theorem window_of_lt {s : State} {i : Nat} (hlen : i < s.buf.length) (hopen : i < s.rdLen.toNat) :
    s.window i = s.buf[i] := by
  rw [State.window, if_pos hopen, List.getD_eq_getElem _ _ hlen]

theorem window_of_le {s : State} {i : Nat} (hclosed : s.rdLen.toNat ≤ i) : s.window i = 0 :=
  if_neg (Nat.not_lt.mpr hclosed)

theorem exec_capbufRd_word {idx : BitVec 10} {s : State} {v : Word} (hv : s.window idx.toNat = v) :
    exec (.capbufRd idx) s = .next { s with rdata := v } := by
  rw [← hv]
  rfl

/-- Settles O10: the window's word below RD_LEN and above it. -/
theorem capbufReadEffect : Obligations.CapbufReadEffect := fun _ _ =>
  ⟨fun hlen hopen => exec_capbufRd_word (window_of_lt hlen hopen),
    fun hclosed => exec_capbufRd_word (window_of_le hclosed)⟩

/-- P_CAP_N is at most 1024, so the number of entries fits in RD_LEN (R9, R35, R36). -/
theorem buf_length_lt {s : State} (hI : s.Inv) : s.buf.length < 1024 := by
  have hbound := hI.buf_bound
  obtain ⟨hlow, hhigh, -⟩ := inv_params hI
  omega

/-- Settles O16: the first READ opens the window over all of BUF and leaves the session Idle, where the second one
finds nothing. -/
theorem readTwice : Obligations.ReadTwice := by
  intro s hI hbusy hlearnt
  have hlen := buf_length_lt hI
  have hopen : (BitVec.ofNat 11 s.buf.length).toNat = s.buf.length := by
    rw [BitVec.toNat_ofNat, Nat.mod_eq_of_lt (by omega)]
  refine ⟨_, _, exec_read_of_learnt hbusy hlearnt, exec_read_of_not_learnt hbusy nofun, rfl, ?_, fun i hi => ?_,
    rfl, rfl, fun i => window_of_le (Nat.zero_le i)⟩
  · rw [BitVec.toNat_ofNat, Nat.mod_eq_of_lt (by omega)]
  · exact window_of_lt _ (hi.trans_eq hopen.symm)

/-! ### Capture entries -/

/-- A delta is the difference of two timestamps modulo 2^32 (R203, D4). -/
theorem edgeDelta_toNat (ref ts : Word) :
    ((edgeDelta ref ts).toNat : Int) = ((ts.toNat : Int) - (ref.toNat : Int)) % 2 ^ 32 := by
  rw [edgeDelta, BitVec.toNat_sub']
  omega

theorem captureEntry_true (delta : Word) : captureEntry delta true = delta := by
  rw [captureEntry, if_pos rfl, BitVec.ofInt_natCast, BitVec.ofNat_toNat, BitVec.setWidth_eq]

theorem captureEntry_false (delta : Word) : captureEntry delta false = -delta := by
  rw [captureEntry, if_neg Bool.false_ne_true, BitVec.ofInt_neg, BitVec.ofInt_natCast, BitVec.ofNat_toNat,
    BitVec.setWidth_eq]

/-- Settles O35: an entry is the delta itself or its negation, and a delta below 2^31 is the value of its word read as a
signed number. -/
theorem captureEntryMeaning : Obligations.CaptureEntryMeaning := by
  refine fun delta => ⟨fun hlt => ⟨?_, ?_⟩, fun lvl => ?_, congrArg _ (captureEntry_true delta)⟩
  · rw [captureEntry, BitVec.toInt_ofInt, if_pos rfl, Int.bmod_eq_of_le (by omega) (by omega)]
  · rw [captureEntry, BitVec.toInt_ofInt, if_neg Bool.false_ne_true, Int.bmod_eq_of_le (by omega) (by omega)]
  · cases lvl with
    | true => rw [captureEntry_true]
    | false =>
      rw [captureEntry_false]
      exact BitVec.neg_eq_zero_iff

/-! ### Edge events -/

theorem exec_edgeBaseline {s : State} (he : s.edgeEn = true) (hs : s.session = .learn) (ts : Word) (lvl : Bool) :
    exec (.edgeBaseline ts lvl) s = .next (baselineEffect ts s) :=
  congrArg _ (if_pos ⟨he, hs⟩)

theorem exec_edgeRecord {s : State} (he : s.edgeEn = true) (hs : s.session = .recv) (ts : Word) (lvl : Bool) :
    exec (.edgeRecord ts lvl) s = .next (recordEffect ts lvl s) :=
  congrArg _ (if_pos ⟨he, hs⟩)

theorem decode_edge_learn {edgeEn : Bool} {ses : Session} (he : edgeEn = true) (hs : ses = .learn) (ts : Word)
    (lvl : Bool) : decode edgeEn ses (.edge ts lvl) = .ok (.edgeBaseline ts lvl) := by
  rw [he, hs]
  rfl

theorem decode_edge_recv {edgeEn : Bool} {ses : Session} (he : edgeEn = true) (hs : ses = .recv) (ts : Word)
    (lvl : Bool) : decode edgeEn ses (.edge ts lvl) = .ok (.edgeRecord ts lvl) := by
  rw [he, hs]
  rfl

/-- Settles O32: the row of the event in Learn, and the one with edges disabled. -/
theorem edgeBaselineAndIgnored : Obligations.EdgeBaselineAndIgnored := by
  refine fun s ts lvl => ⟨fun he hs => ⟨decode_edge_learn he hs ts lvl, exec_edgeBaseline he hs ts lvl⟩,
    fun he => ⟨?_, rfl⟩⟩
  rw [he]
  rfl

/-- Settles O33: the entry is that of the delta, which is the difference of the timestamps. -/
theorem edgeRecordEffect : Obligations.EdgeRecordEffect := by
  intro s ts lvl he hs delta buf'
  have hbuf : buf' = s.buf ++ [captureEntry (edgeDelta s.ref ts) lvl] := by
    rw [captureEntry, edgeDelta_toNat]
  refine ⟨decode_edge_recv he hs ts lvl, ?_⟩
  rw [exec_edgeRecord he hs, hbuf]
  rfl

/-! ### The timeout -/

theorem armed_iff (ses : Session) : armed ses = true ↔ ses = .learn ∨ ses = .recv := by
  simp only [armed, Bool.or_eq_true, decide_eq_true_eq]

theorem exec_timeout_due {s : State} (hp : s.tmoPending = true) (hnow : s.now = s.tmoDeadline) :
    exec .timeout s = .next (timeoutEffect s) :=
  congrArg _ (if_pos ⟨hp, hnow⟩)

theorem timeoutEffect_of_armed {s : State} (h : armed s.session = true) :
    timeoutEffect s = { s with tmoPending := false, session := .learnt, edgeEn := false } :=
  if_pos h

theorem exec_timeout_armed {s : State} (hp : s.tmoPending = true) (hnow : s.now = s.tmoDeadline)
    (h : armed s.session = true) :
    exec .timeout s = .next { s with tmoPending := false, session := .learnt, edgeEn := false } :=
  (exec_timeout_due hp hnow).trans (congrArg _ (timeoutEffect_of_armed h))

theorem timeoutEffect_of_not_armed {s : State} (h : ¬ armed s.session = true) :
    timeoutEffect s = { s with tmoPending := false } :=
  if_neg h

/-- Settles O34: the timeout in an armed session and in any other. -/
theorem timeoutEffect_spec : Obligations.TimeoutEffect := by
  refine fun s hp hnow => ⟨fun hs => exec_timeout_armed hp hnow ((armed_iff _).mpr hs), fun hs => ?_⟩
  have hnot : ¬ armed s.session = true := by
    rcases hs with hs | hs <;> rw [hs] <;> exact nofun
  rw [exec_timeout_due hp hnow, timeoutEffect_of_not_armed hnot]

/-! ### What an instruction does to the session and its buffer -/

/-- The transitions of SESSION: what an instruction that gives a next state can make of it. -/
theorem session_of_exec {i : Instr} {s t : State} (h : exec i s = .next t) :
    t.session = s.session ∨ (s.session = .idle ∧ t.session = .learn) ∨
      (s.session = .learn ∧ t.session = .recv) ∨ (s.session = .learnt ∧ t.session = .idle) ∨
      (t.session = .learnt ∧
        (i = .timeout ∨ (∃ ts lvl, i = .edgeRecord ts lvl) ∧ s.session = .recv ∧ t.full = true)) := by
  cases exec_next h with
  | sends =>
    obtain ⟨-, hses, -⟩ := sendEffect_frame s
    exact .inl hses
  | learns =>
    by_cases hidle : s.session = .idle
    · rw [learnEffect_of_idle hidle]
      exact .inr (.inl ⟨hidle, rfl⟩)
    · rw [learnEffect_of_not_idle hidle]
      exact .inl rfl
  | reads =>
    by_cases hlearnt : s.session = .learnt
    · rw [readEffect_of_learnt hlearnt]
      exact .inr (.inr (.inr (.inl ⟨hlearnt, rfl⟩)))
    · rw [readEffect_of_not_learnt hlearnt]
      exact .inl rfl
  | writes a v =>
    rw [writeReg_eq]
    exact .inl rfl
  | baseline _ _ _ _ hs => exact .inr (.inr (.inl ⟨hs, rfl⟩))
  | record ts lvl _ _ hs =>
    obtain ⟨e, ⟨-, heq⟩ | ⟨-, heq⟩⟩ := recordEffect_cases s ts lvl <;> rw [heq]
    · exact .inl rfl
    · exact .inr (.inr (.inr (.inr ⟨rfl, .inr ⟨⟨ts, lvl, rfl⟩, hs, rfl⟩⟩)))
  | fires =>
    by_cases harmed : armed s.session = true
    · rw [timeoutEffect_of_armed harmed]
      exact .inr (.inr (.inr (.inr ⟨rfl, .inl rfl⟩)))
    · rw [timeoutEffect_of_not_armed harmed]
      exact .inl rfl
  | commandBusy | illegal | answers | encodes | text | emits | stutters => exact .inl rfl

/-- Settles O36: of the transitions of SESSION, those from Learn or Recv to another state are the last ones. -/
theorem sessionExits : Obligations.SessionExits := by
  intro i s t hexec hs hnl hnr
  obtain hsame | ⟨hidle, -⟩ | ⟨-, hrecv⟩ | ⟨hlearnt, -⟩ | hends := session_of_exec hexec
  · rw [← hsame] at hs
    exact absurd hs (not_or.mpr ⟨hnl, hnr⟩)
  · rw [hidle] at hs
    exact absurd hs nofun
  · exact absurd hrecv hnr
  · rw [hlearnt] at hs
    exact absurd hs nofun
  · exact hends

/-- Settles O37: of the effects an instruction can have, only an accepted LEARN and an edge in Recv write BUF, and
LEARN comes from no register write that is well-formed. -/
theorem bufferDiscipline : Obligations.BufferDiscipline := by
  intro i s t hw hexec
  cases exec_next hexec with
  | sends =>
    obtain ⟨-, -, -, -, -, -, -, hbuf, -⟩ := sendEffect_frame s
    exact .inl hbuf
  | learns _ _ hc =>
    by_cases hidle : s.session = .idle
    · obtain rfl | ⟨v, rfl⟩ := hc
      · rw [learnEffect_of_idle hidle]
        exact .inr (.inl ⟨rfl, hidle, rfl⟩)
      · simp [Instr.wellFormed] at hw
    · rw [learnEffect_of_not_idle hidle]
      exact .inl rfl
  | reads =>
    obtain ⟨-, -, -, -, -, -, -, -, -, -, -, -, hbuf, -⟩ := readEffect_frame s
    exact .inl hbuf
  | writes a v =>
    rw [writeReg_eq]
    exact .inl rfl
  | record ts lvl _ _ hs =>
    obtain ⟨e, ⟨-, heq⟩ | ⟨-, heq⟩⟩ := recordEffect_cases s ts lvl <;> rw [heq] <;>
      exact .inr (.inr ⟨ts, lvl, e, rfl, hs, rfl⟩)
  | fires =>
    rw [timeoutEffect_eq]
    exact .inl rfl
  | commandBusy | illegal | answers | encodes | text | baseline | emits | stutters => exact .inl rfl

/-! ### Edge events one after the other -/

theorem runInput_edge_learn {s : State} (he : s.edgeEn = true) (hs : s.session = .learn) (ts : Word) (lvl : Bool) :
    runInput (.raw (.edge ts lvl)) s = .next (baselineEffect ts s) := by
  simp only [runInput, decode_edge_learn he hs]
  exact exec_edgeBaseline he hs ts lvl

theorem runInput_edge_recv {s : State} (he : s.edgeEn = true) (hs : s.session = .recv) (ts : Word) (lvl : Bool) :
    runInput (.raw (.edge ts lvl)) s = .next (recordEffect ts lvl s) := by
  simp only [runInput, decode_edge_recv he hs]
  exact exec_edgeRecord he hs ts lvl

theorem exists_next_of_andThen {r : Result} {k : State → Result} {t : State} (h : andThen r k = .next t) :
    ∃ u, r = .next u ∧ k u = .next t := by
  cases r with
  | next u => exact ⟨u, rfl, h⟩
  | fault f => cases h
  | refused f => cases h

theorem edges_cons {e : Word × Bool} {es : List (Word × Bool)} {s t : State}
    (h : runInput (.raw (.edge e.1 e.2)) s = .next t) : edges (e :: es) s = edges es t := by
  rw [edges, h, andThen]

theorem edges_append_of_next {es fs : List (Word × Bool)} {s t : State} (h : edges es s = .next t) :
    edges (es ++ fs) s = edges fs t := by
  induction es generalizing s with
  | nil =>
    cases h
    rfl
  | cons e es ih =>
    obtain ⟨u, hrun, hrest⟩ := exists_next_of_andThen h
    rw [List.cons_append, edges_cons hrun, ih hrest]

/-- Edges in Recv that do not fill the buffer are recorded, and the session goes on (R203). -/
theorem edges_below_capacity {es : List (Word × Bool)} {s : State} (he : s.edgeEn = true) (hs : s.session = .recv)
    (hroom : s.buf.length + es.length < s.cfg.capN - 1) :
    ∃ ref buf, edges es s = .next { s with ref := ref, buf := buf } ∧ buf.length = s.buf.length + es.length := by
  induction es generalizing s with
  | nil => exact ⟨s.ref, s.buf, rfl, rfl⟩
  | cons e es ih =>
    have hrun := runInput_edge_recv he hs e.1 e.2
    rw [List.length_cons] at hroom ⊢
    obtain ⟨x, ⟨-, hrec⟩ | ⟨hfull, -⟩⟩ := recordEffect_cases s e.1 e.2
    · rw [hrec] at hrun
      rw [edges_cons hrun]
      have hgrown : (s.buf ++ [x]).length + es.length = s.buf.length + (es.length + 1) := by
        rw [List.length_append, List.length_singleton, Nat.add_assoc, Nat.add_comm 1]
      obtain ⟨ref, buf, hedges, hlen⟩ :=
        ih (s := { s with ref := e.1, buf := s.buf ++ [x] }) he hs (hgrown.trans_lt hroom)
      exact ⟨ref, buf, hedges, hlen.trans hgrown⟩
    · omega

/-- The edge in Recv that fills the buffer ends the session (R204). -/
theorem edges_last {e : Word × Bool} {s : State} (he : s.edgeEn = true) (hs : s.session = .recv)
    (hlast : s.buf.length + 1 = s.cfg.capN - 1) :
    ∃ t, edges [e] s = .next t ∧ t.session = .learnt ∧ t.full = true ∧ t.tmoPending = false ∧
      t.buf.length = s.cfg.capN - 1 := by
  have hrun := runInput_edge_recv he hs e.1 e.2
  obtain ⟨x, ⟨hne, -⟩ | ⟨-, hrec⟩⟩ := recordEffect_cases s e.1 e.2
  · exact absurd hlast hne
  · rw [hrec] at hrun
    refine ⟨_, edges_cons hrun, rfl, rfl, rfl, ?_⟩
    rw [← hlast, List.length_append, List.length_singleton]

/-- A session in Learn takes the first of fewer than N edges as the baseline and records the others (R202, R203). -/
theorem edges_from_learn {e : Word × Bool} {es : List (Word × Bool)} {s : State} (hI : s.Inv)
    (hs : s.session = .learn) (hroom : es.length < s.cfg.capN - 1) :
    ∃ ref buf, edges (e :: es) s = .next { s with session := .recv, ref := ref, buf := buf } ∧
      buf.length = es.length := by
  have he : s.edgeEn = true := hI.edge_iff_armed.trans ((armed_iff _).mpr (.inl hs))
  have hlen : (baselineEffect e.1 s).buf.length = 0 := congrArg List.length (hI.learn_empty hs)
  obtain ⟨ref, buf, hedges, hbuf⟩ :=
    edges_below_capacity (es := es) (s := baselineEffect e.1 s) he rfl (by rw [hlen, Nat.zero_add]; exact hroom)
  rw [hlen, Nat.zero_add] at hbuf
  exact ⟨ref, buf, (edges_cons (runInput_edge_learn he hs e.1 e.2)).trans hedges, hbuf⟩

/-- Settles O38: N - 1 edges leave one entry of room, which the N-th edge takes; the timeout takes the session as it
is. -/
theorem capacityBoundary : Obligations.CapacityBoundary := by
  intro s es hI hs
  obtain ⟨hcap, -⟩ := inv_params hI
  have harmed : armed s.session = true := (armed_iff _).mpr (.inl hs)
  constructor
  · intro hlen
    obtain rfl | ⟨init, last, rfl⟩ := List.eq_nil_or_concat es
    · rw [List.length_nil] at hlen
      omega
    rw [List.concat_eq_append, List.length_append, List.length_singleton] at hlen
    obtain ⟨e, rest, rfl⟩ := List.exists_cons_of_length_pos (l := init) (by omega)
    rw [List.length_cons] at hlen
    obtain ⟨ref, buf, hedges, hbuf⟩ := edges_from_learn (e := e) (es := rest) hI hs (by omega)
    rw [List.concat_eq_append, edges_append_of_next hedges]
    exact edges_last (hI.edge_iff_armed.trans harmed) rfl (by simp only [hbuf]; omega)
  · intro hlen
    obtain ⟨e, rest, rfl⟩ := List.exists_cons_of_length_pos (l := es) (by omega)
    rw [List.length_cons] at hlen
    have hp : s.tmoPending = true := hI.timeout_iff_armed.trans harmed
    obtain ⟨ref, buf, hedges, hbuf⟩ := edges_from_learn (e := e) (es := rest) hI hs (by omega)
    refine ⟨_, _, hedges, hp, exec_timeout_armed hp rfl rfl, rfl, rfl, ?_⟩
    simp only [hbuf]
    omega

/-! ### The deadline of an armed session -/

/-- An instruction takes no time of the time base (R12; log 6), and only a LEARN from Idle sets the deadline (R200). -/
theorem time_of_exec {i : Instr} {s t : State} (h : exec i s = .next t) :
    t.now = s.now ∧ (s.session ≠ .idle → t.tmoDeadline = s.tmoDeadline) := by
  cases exec_next h with
  | sends =>
    obtain ⟨-, -, -, -, hdeadline, -, -, -, -, -, hnow, -⟩ := sendEffect_frame s
    exact ⟨hnow, fun _ => hdeadline⟩
  | learns =>
    obtain ⟨-, -, -, -, -, -, -, -, hnow, -⟩ := learnEffect_frame s
    exact ⟨hnow, fun hs => by rw [learnEffect_of_not_idle hs]⟩
  | reads =>
    obtain ⟨-, -, -, -, -, -, -, -, -, -, hdeadline, -, -, hnow, -⟩ := readEffect_frame s
    exact ⟨hnow, fun _ => hdeadline⟩
  | writes a v =>
    rw [writeReg_eq]
    exact ⟨rfl, fun _ => rfl⟩
  | record ts lvl =>
    obtain ⟨e, ⟨-, heq⟩ | ⟨-, heq⟩⟩ := recordEffect_cases s ts lvl <;> rw [heq] <;> exact ⟨rfl, fun _ => rfl⟩
  | fires =>
    rw [timeoutEffect_eq]
    exact ⟨rfl, fun _ => rfl⟩
  | commandBusy | illegal | answers | encodes | text | baseline | emits | stutters => exact ⟨rfl, fun _ => rfl⟩

/-- A timeout is pending in a session only. -/
theorem session_ne_idle_of_tmoPending {s : State} (hI : s.Inv) (hp : s.tmoPending = true) : s.session ≠ .idle := by
  intro hidle
  rw [hI.timeout_iff_armed, hidle] at hp
  cases hp

/-- An input that leaves the timeout pending takes no time and leaves the deadline: the reset pin is none (R260). -/
theorem deadline_of_runInput {inp : Input} {s t : State} (h : runInput inp s = .next t) (hs : s.session ≠ .idle)
    (hp : t.tmoPending = true) : t.now = s.now ∧ t.tmoDeadline = s.tmoDeadline := by
  obtain ⟨_, _, -, -, hexec⟩ | ⟨-, rfl⟩ | ht := runInput_next h
  · exact (time_of_exec hexec).imp_right (· hs)
  · cases hp
  · rw [ht]
    exact ⟨rfl, rfl⟩

/-- A step that leaves an armed timeout armed lets some time pass, not beyond the deadline, and leaves the deadline. -/
theorem step_armed {s t : State} (hI : s.Inv) (h : step s = .next t) (hs : s.tmoPending = true)
    (ht : t.tmoPending = true) :
    ∃ n, n ≤ (s.tmoDeadline - s.now).toNat ∧ t.now = (s.elapse n).now ∧ t.tmoDeadline = s.tmoDeadline := by
  have hses := session_ne_idle_of_tmoPending hI hs
  obtain ⟨n, r, -, hdeadline, hact⟩ := step_next h
  refine ⟨n, hdeadline _ ((tmoRemaining_eq_some_iff s _).mpr ⟨hs, rfl⟩), ?_⟩
  obtain ⟨i, -, hexec⟩ | ⟨-, rfl⟩ | ⟨p, -, hinput⟩ := hact
  · have hkept := time_of_exec hexec
    exact hkept.imp_right (· hses)
  · exact ⟨rfl, rfl⟩
  · have hkept := deadline_of_runInput hinput hses ht
    exact hkept

/-- Settles O39: the time that passes is what the deadline comes nearer, since it does not pass it. -/
theorem armedTimeoutOnlyRunsDown : Obligations.ArmedTimeoutOnlyRunsDown := by
  intro s t hI hstep hs ht
  obtain ⟨n, hn, hnow, hdeadline⟩ := step_armed hI hstep hs ht
  have hlt := (s.tmoDeadline - s.now).isLt
  have hpassed : ((s.elapse n).now - s.now).toNat = n := by
    rw [elapse_now, BitVec.add_comm, BitVec.add_sub_cancel, BitVec.toNat_ofNat, Nat.mod_eq_of_lt (by omega)]
  refine ⟨hdeadline, ?_⟩
  rw [hdeadline, hnow, remaining_elapse s n hn, hpassed, Nat.sub_add_cancel hn]

/-! ### A session left alone -/

/-- With no input to come and the timeout armed, the step is the timeout at its deadline, or the sequencer's. -/
theorem step_armed_alone {s : State} (hI : s.Inv) (hbox : s.inbox = []) (hp : s.tmoPending = true) :
    ∃ n, ((s.elapse n).now = s.tmoDeadline ∧
        step s = .next { s.elapse n with tmoPending := false, session := .learnt, edgeEn := false }) ∨
      ∃ seg rest, s.txq = seg :: rest ∧ step s = .next ((s.elapse n).emitted seg rest) := by
  cases hown : s.nextInternal with
  | none =>
    have htmo := (nextInternal_none hown).2
    rw [State.tmoRemaining, if_pos hp] at htmo
    cases htmo
  | some own =>
    obtain ⟨n, i⟩ := own
    refine ⟨n, ?_⟩
    rw [step_own_alone hown hbox]
    obtain ⟨rfl, htx⟩ | ⟨rfl, htmo⟩ := nextInternal_cases hown
    · obtain ⟨seg, rest, hq⟩ := List.exists_cons_of_ne_nil (txq_ne_nil_of_txRemaining htx)
      exact .inr ⟨seg, rest, hq, exec_txstep_cons hq⟩
    · have hnow := now_at_timeout htmo
      have harmed : armed s.session = true := hI.timeout_iff_armed.symm.trans hp
      exact .inl ⟨hnow, exec_timeout_armed hp hnow harmed⟩

/-- Settles O40, by induction on the queue: each step is the timeout, or emits one segment and leaves the session
alone. -/
theorem sessionEndsAtTheDeadline : Obligations.SessionEndsAtTheDeadline := by
  intro s
  induction hq : s.txq generalizing s with
  | nil =>
    intro hI hbox hp
    obtain ⟨n, ⟨hnow, hstep⟩ | ⟨seg, rest, hcons, -⟩⟩ := step_armed_alone hI hbox hp
    · exact ⟨1, _, Nat.le_add_left _ _, run_next 0 _ _ hstep, rfl, rfl, rfl, hnow, rfl, rfl⟩
    · rw [hq] at hcons
      cases hcons
  | cons seg rest ih =>
    intro hI hbox hp
    obtain ⟨n, ⟨hnow, hstep⟩ | ⟨seg, rest, hcons, hstep⟩⟩ := step_armed_alone hI hbox hp
    · exact ⟨1, _, Nat.le_add_left _ _, run_next 0 _ _ hstep, rfl, rfl, rfl, hnow, rfl, rfl⟩
    · rw [hq] at hcons
      cases hcons
      obtain ⟨k, t, hk, hrun, hend⟩ := ih _ rfl (stepKeepsInv _ _ hI hstep) hbox hp
      exact ⟨k + 1, t, Nat.succ_le_succ hk, (run_next _ _ _ hstep).trans hrun, hend⟩

end Sys2Proof.Machine
end

section
/-! PROOFS. The family of 60_exceptions.md: steps of different agents at one instant, taken in either order (R241). -/

namespace Sys2Proof.Machine

/-! ### A transmit step and a capture step -/

/-- A step of the capture side: it neither reads nor writes what TXSTEP changes (R42). -/
def OnCaptureSide (f : State → State) : Prop :=
  ∀ s : State, (f s).txq = s.txq ∧ ∀ seg rest, f (s.emitted seg rest) = (f s).emitted seg rest

theorem onCaptureSide_id : OnCaptureSide id := fun _ => ⟨rfl, fun _ _ => rfl⟩

/-- An enabling condition that TXSTEP does not touch keeps a step on the capture side. -/
theorem OnCaptureSide.guarded {f : State → State} (hf : OnCaptureSide f) {p : State → Prop} [DecidablePred p]
    (hp : ∀ s seg rest, p (s.emitted seg rest) ↔ p s) : OnCaptureSide fun s => if p s then f s else s := by
  intro s
  by_cases h : p s
  · simp only [hp, if_pos h]
    exact hf s
  · simp only [hp, if_neg h, implies_true, and_self]

theorem onCaptureSide_baselineEffect (ts : Word) : OnCaptureSide (baselineEffect ts) := fun _ => ⟨rfl, fun _ _ => rfl⟩

theorem recordEffect_of_last {s : State} (h : s.buf.length + 1 = s.cfg.capN - 1) (ts : Word) (lvl : Bool) :
    recordEffect ts lvl s =
      { s with ref := ts, buf := s.buf ++ [captureEntry (edgeDelta s.ref ts) lvl] : State }.fullTransition :=
  if_pos (List.length_append.trans h)

theorem recordEffect_of_room {s : State} (h : s.buf.length + 1 ≠ s.cfg.capN - 1) (ts : Word) (lvl : Bool) :
    recordEffect ts lvl s = { s with ref := ts, buf := s.buf ++ [captureEntry (edgeDelta s.ref ts) lvl] } :=
  if_neg fun hlen => h (List.length_append.symm.trans hlen)

theorem onCaptureSide_recordEffect (ts : Word) (lvl : Bool) : OnCaptureSide (recordEffect ts lvl) := by
  intro s
  by_cases h : s.buf.length + 1 = s.cfg.capN - 1
  · rw [recordEffect_of_last h]
    exact ⟨rfl, fun seg rest => recordEffect_of_last (s := s.emitted seg rest) h ts lvl⟩
  · rw [recordEffect_of_room h]
    exact ⟨rfl, fun seg rest => recordEffect_of_room (s := s.emitted seg rest) h ts lvl⟩

theorem onCaptureSide_timeoutEffect : OnCaptureSide timeoutEffect := by
  intro s
  by_cases h : armed s.session = true
  · rw [timeoutEffect_of_armed h]
    exact ⟨rfl, fun _ _ => timeoutEffect_of_armed h⟩
  · rw [timeoutEffect_of_not_armed h]
    exact ⟨rfl, fun _ _ => timeoutEffect_of_not_armed h⟩

theorem exec_txstep_nil {s : State} (hq : s.txq = []) : exec .txstep s = .next s := by
  simp only [exec, execTxstep, hq]

/-- TXSTEP and a step of the capture side give the same state in both orders. -/
theorem execAll_txstep_comm {i : Instr} {f : State → State} (hf : OnCaptureSide f)
    (hexec : ∀ s, exec i s = .next (f s)) (s : State) :
    execAll [.txstep, i] s = execAll [i, .txstep] s ∧ ∃ t, execAll [.txstep, i] s = .next t := by
  obtain ⟨hq, hemitted⟩ := hf s
  cases htxq : s.txq with
  | nil =>
    simp only [execAll, andThen, hexec, exec_txstep_nil htxq, exec_txstep_nil (hq.trans htxq)]
    exact ⟨trivial, _, rfl⟩
  | cons seg rest =>
    simp only [execAll, andThen, hexec, exec_txstep_cons htxq, exec_txstep_cons (hq.trans htxq), hemitted]
    exact ⟨trivial, _, rfl⟩

/-- Settles O41: each edge operation and TIMEOUT is a step of the capture side. -/
theorem transmitAndCaptureCommute : Obligations.TransmitAndCaptureCommute := by
  rintro i s (⟨ts, lvl, rfl⟩ | ⟨ts, lvl, rfl⟩ | ⟨ts, lvl, rfl⟩ | rfl)
  · exact execAll_txstep_comm ((onCaptureSide_baselineEffect ts).guarded fun _ _ _ => Iff.rfl) (fun _ => rfl) s
  · exact execAll_txstep_comm ((onCaptureSide_recordEffect ts lvl).guarded fun _ _ _ => Iff.rfl) (fun _ => rfl) s
  · exact execAll_txstep_comm onCaptureSide_id (fun _ => rfl) s
  · exact execAll_txstep_comm (onCaptureSide_timeoutEffect.guarded fun _ _ _ => Iff.rfl) (fun _ => rfl) s

/-! ### An edge and the timeout -/

/-- An edge with edges disabled is dropped (R205). -/
theorem runInput_edge_disabled {s : State} (he : s.edgeEn = false) (ts : Word) (lvl : Bool) :
    runInput (.raw (.edge ts lvl)) s = .next s := by
  obtain ⟨hdecode, hexec⟩ := (edgeBaselineAndIgnored s ts lvl).2 he
  simp only [runInput, hdecode, hexec]

theorem edges_singleton {ts : Word} {lvl : Bool} {s t : State} (h : runInput (.raw (.edge ts lvl)) s = .next t) :
    edges [(ts, lvl)] s = .next t :=
  edges_cons (e := (ts, lvl)) h

theorem exec_timeout_not_pending {s : State} (hp : s.tmoPending = false) : exec .timeout s = .next s :=
  congrArg _ (if_neg fun ⟨h, _⟩ => Bool.false_ne_true (hp.symm.trans h))

theorem full_of_armed {s : State} (hI : s.Inv) (h : armed s.session = true) : s.full = false :=
  Bool.eq_false_iff.mpr fun hfull => Bool.false_ne_true ((hI.full_not_armed hfull).symm.trans h)

/-- In Recv at the deadline an edge is recorded, and after TIMEOUT the session is Learnt: by TIMEOUT itself, or already
by the full transition, which cancels it (R203, R204, R208). -/
theorem edge_then_timeout {s : State} (hI : s.Inv) (hs : s.session = .recv) (hnow : s.now = s.tmoDeadline) (ts : Word)
    (lvl : Bool) :
    ∃ t, andThen (edges [(ts, lvl)] s) (exec .timeout) = .next t ∧ t.session = .learnt ∧
      t.buf = s.buf ++ [captureEntry (ts - s.ref) lvl] ∧
      (t.full = true ↔ s.buf.length + 1 = s.cfg.capN - 1) := by
  have harmed : armed s.session = true := (armed_iff _).mpr (.inr hs)
  have hedge := edges_singleton (runInput_edge_recv (hI.edge_iff_armed.trans harmed) hs ts lvl)
  by_cases hlast : s.buf.length + 1 = s.cfg.capN - 1
  · rw [hedge, recordEffect_of_last hlast]
    exact ⟨_, exec_timeout_not_pending rfl, rfl, rfl, iff_of_true rfl hlast⟩
  · have hfull : ¬ s.full = true := Bool.eq_false_iff.mp (full_of_armed hI harmed)
    rw [hedge, recordEffect_of_room hlast]
    exact ⟨_, exec_timeout_armed (hI.timeout_iff_armed.trans harmed) hnow harmed, rfl, rfl, iff_of_false hfull hlast⟩

/-- In Recv at the deadline TIMEOUT ends the session, and an edge after it is dropped (R208, R205). -/
theorem timeout_then_edge {s : State} (hI : s.Inv) (hs : s.session = .recv) (hnow : s.now = s.tmoDeadline) (ts : Word)
    (lvl : Bool) :
    ∃ t, andThen (exec .timeout s) (edges [(ts, lvl)]) = .next t ∧ t.session = .learnt ∧ t.buf = s.buf ∧
      t.ref = s.ref ∧ t.full = false := by
  have harmed : armed s.session = true := (armed_iff _).mpr (.inr hs)
  have hfull : s.full = false := full_of_armed hI harmed
  rw [exec_timeout_armed (hI.timeout_iff_armed.trans harmed) hnow harmed, andThen]
  exact ⟨_, edges_singleton (runInput_edge_disabled rfl ts lvl), rfl, rfl, rfl, hfull⟩

/-- Settles O42: both orders, each by its own lemma. -/
theorem edgeAndTimeoutInEitherOrder : Obligations.EdgeAndTimeoutInEitherOrder :=
  fun _ ts lvl hI hs hnow => ⟨edge_then_timeout hI hs hnow ts lvl, timeout_then_edge hI hs hnow ts lvl⟩

end Sys2Proof.Machine
end

section
/-! PROOFS. The family of 70_reset_and_hazards.md: the state after reset, and what the reset pin ends. -/

namespace Sys2Proof.Machine

/-! ### The state after reset -/

theorem reset_regs_get (r : DescReg) : State.reset.regs.get r = 0 := by
  cases r <;> rfl

/-- After reset no offset of the register port answers anything else than 0, whatever it names (R61, R113). -/
theorem reset_readWord (a : Offset) : State.reset.readWord a = 0 := by
  rw [State.readWord]
  cases target a with
  | desc r => exact reset_regs_get r
  | window i => exact window_of_le (Nat.zero_le i)
  | cmd | status | result | reserved => rfl

/-- Settles O56: the single fields by evaluation, the registers and the reads each by their lemma. -/
theorem resetState : Obligations.ResetState :=
  ⟨rfl, rfl, rfl, rfl, rfl, rfl, rfl, reset_regs_get, rfl, rfl, rfl, rfl, rfl, carrierOut_nil rfl, reset_readWord⟩

/-- Settles O58: nothing is armed, queued or captured, the window is closed, and the parameters are the reference ones. -/
theorem invAtReset : Obligations.InvAtReset where
  cfg_legal := by decide
  busy_iff_queue := iff_of_false Bool.false_ne_true (absurd rfl)
  edge_iff_armed := rfl
  timeout_iff_armed := rfl
  buf_bound := Nat.zero_le _
  recv_room := nofun
  learn_empty := nofun
  window_bound := Nat.le_refl _
  window_closed := absurd rfl
  full_not_armed := nofun
  ctrl_masked := BitVec.zero_and
  phase_in_range := rfl
  deadline_near := nofun

/-! ### The reset pin during a Send or a capture -/

/-- A READ right after the reset pin answers 0 and leaves the window closed: the session is Idle (R207, R261). -/
theorem exec_read_resetPin (s : State) :
    exec .read s.resetPin = .next { s.resetPin with rdLen := 0, result := 0, err := .ok } :=
  exec_read_of_not_learnt rfl nofun

/-- Settles O57: the state the pin leads to, and the READ after it. -/
theorem resetEndsEverything : Obligations.ResetEndsEverything :=
  fun s => ⟨s.resetPin, rfl, rfl, rfl, carrierOut_nil rfl, rfl, rfl, rfl, rfl, rfl, rfl,
    _, exec_read_resetPin s, rfl, fun i => window_of_le (Nat.zero_le i)⟩

end Sys2Proof.Machine
end
